-- ==== Sys2Proof/Word.lean ====
section
/-! DEFINITION. The host's words and bytes, complex samples, the names of the registers in the CSR window, and the
accesses a host can make. Rules of spec/00_scope.md, 10_state.md and 20_memory.md. -/

namespace Sys2Proof

/-- A byte, bits [7:0] (R6). -/
abbrev Byte := BitVec 8

/-- A 32-bit host word: a register, an address or half of a sample (R6, R60). -/
abbrev Word := BitVec 32

/-- An IEEE 754 binary32 value as its 32-bit pattern: bit 31 the sign, [30:23] the exponent, [22:0] the fraction (R10, R63). -/
abbrev F32 := BitVec 32

/-- A complex sample (re, im) (R10). -/
structure Sample where
  re : F32
  im : F32
deriving DecidableEq, Repr

/-- +0.0 (95_test_vectors.md, conventions). -/
abbrev f32Zero : F32 := 0x00000000#32

/-- +1.0. -/
abbrev f32One : F32 := 0x3F800000#32

/-- -1.0. -/
abbrev f32NegOne : F32 := 0xBF800000#32

/-- A binary32 pattern is a NaN when its exponent is all ones and its fraction is not zero. -/
def isNaN (a : F32) : Bool :=
  a &&& 0x7F800000#32 == 0x7F800000#32 && a &&& 0x007FFFFF#32 != 0#32

/-- The register names of the CSR map (10_state.md section 2). -/
inductive Csr where
  | cmd | status | ctrl
  | stgRampup | stgPhasing | stgPaylen | stgMod | stgRampdn
  | cfgRampup | cfgPhasing | cfgPaylen | cfgMod | cfgRampdn
  | geoNsym | geoFramelen
  | allocPay | allocSym | allocSmp | resizeCnt
  | outCap | outCount | faultExp | faultCnt
  | hdrIn0 | hdrIn1
deriving DecidableEq, Repr

/-- The five registers a GETCFG reads (R96). -/
inductive CfgReg where
  | rampup | phasing | paylen | mod | rampdn
deriving DecidableEq, Repr

/-- The size of a host access. R68 admits 8 bits (PIN) and 32 bits (CSR, OUT); every other size is refused. -/
inductive Width where
  | b8 | b16 | b32 | b64
deriving DecidableEq, Repr

/-- What the outside world does to the block: a host read or write (R20, R68), or the reset input (R291). The data of
a write wider than 32 bits is not represented: such an access is refused whatever its data. -/
inductive HostEvent where
  | read (width : Width) (addr : Word)
  | write (width : Width) (addr : Word) (data : Word)
  | reset
deriving DecidableEq, Repr

end Sys2Proof
end

