-- ==== Sys2Proof/Config.lean ====
section
/-! DEFINITION. The parameters of 00_scope.md rule R5. `Params` is one choice of them within their constraints; every
operation of the machine takes a `Params`. `Config.params` is the choice of the machine `exec` and `step` describe: its
values are constants without a body, closed so that each constraint of R5 holds whatever they are (log entries 1, 14). -/

namespace Sys2Proof

/-- The 6-bit tap masks under which the register of R171 runs through all 63 nonzero states: the admitted values of
PN_TAPS (R170; log entry 14, DEDUCED). -/
def maximalTaps : List (BitVec 6) := [0x21#6, 0x2D#6, 0x30#6, 0x33#6, 0x36#6, 0x39#6]

/-- The parameters of R5 with their constraints. -/
structure Params where
  /-- EVEN_SIGN = -1 (R11, D14). -/
  evenNegative : Bool
  /-- PN_TAPS (R170, D17). -/
  pnTaps : BitVec 6
  pnTaps_maximal : pnTaps ∈ maximalTaps
  /-- PN_SEED (R170, D17). -/
  pnSeed : BitVec 6
  pnSeed_ne_zero : pnSeed ≠ 0#6
  /-- CHECKSUM32 (R191, D18). -/
  checksum32 : List Byte → Word
  /-- SCRAMBLE, self-inverse and length-preserving (R192, D19). -/
  scramble : List Byte → List Byte
  scramble_scramble : ∀ x, scramble (scramble x) = x
  scramble_length : ∀ x, (scramble x).length = x.length
  /-- FEC_N (R193, D20). -/
  fecN : Nat
  fecN_bounds : 16 ≤ fecN ∧ fecN ≤ 32
  /-- FEC_ENC, 15 bytes to FEC_N bytes (R193, D20). -/
  fecEnc : List Byte → List Byte
  fecEnc_length : ∀ x, x.length = 15 → (fecEnc x).length = fecN
  /-- FILLER, of which entries FEC_N..31 are used (R193, D20). -/
  filler : Nat → Byte
  /-- INTLV_PERM, a permutation of the byte positions 0..31 (R194, D21). -/
  intlvPerm : Equiv.Perm (Fin 32)
  /-- HDR_MAP (R196, D22). -/
  hdrMap : Bool → Sample
  /-- MOD_MAP (scheme, depth, symbol), pure (R223, D23). -/
  modMap : BitVec 4 → BitVec 4 → BitVec 15 → Sample
  /-- SCHEME_BPSK (D24). -/
  schemeBpsk : BitVec 4
  /-- MOD_SUPPORTED (scheme, depth) (R121, D7). -/
  modSupported : BitVec 4 → BitVec 4 → Bool
  modSupported_default : modSupported schemeBpsk 1#4 = true
  /-- ENV_UP(i, N) (R130, D5), with ENV_EXACT0. -/
  envUp : Nat → Nat → F32
  envUp_zero : ∀ len, envUp 0 len = f32Zero
  /-- ENV_DN(i, D) (R135, D5), with ENV_EXACT0. -/
  envDn : Nat → Nat → F32
  envDn_zero : ∀ d, envDn 0 d = f32One
  /-- MIN_ALLOC, as the 32 bits an ALLOC register holds (R245, D27; log entry 15). -/
  minAlloc : Word
  /-- T_EXEC (R297, D48). No rule reads it and no definition of the model does. -/
  execLatency : Word → Nat
  /-- The binary32 product of a sign (true for -1) and a NaN: some NaN (R10; log entry 11). -/
  nanProduct : Bool → F32 → F32
  nanProduct_isNaN : ∀ neg a, isNaN (nanProduct neg a) = true
  /-- The free values: `draw k i` is element i of the draw numbered k (R8 `draw`; log entry 3). -/
  draw : Nat → Nat → BitVec 64

namespace Params

/-- Element i of draw k, as one bit. -/
def drawBit (P : Params) (k i : Nat) : Bool := (P.draw k i).getLsbD 0

/-- Element i of draw k, as a byte. -/
def drawByte (P : Params) (k i : Nat) : Byte := (P.draw k i).setWidth 8

/-- Element i of draw k, as a 15-bit symbol. -/
def drawSymbol (P : Params) (k i : Nat) : BitVec 15 := (P.draw k i).setWidth 15

/-- Element i of draw k, as a binary32 value. -/
def drawF32 (P : Params) (k i : Nat) : F32 := (P.draw k i).setWidth 32

/-- Element i of draw k, as a complex sample. -/
def drawSample (P : Params) (k i : Nat) : Sample :=
  ⟨(P.draw k i).setWidth 32, (P.draw k i >>> 32).setWidth 32⟩

end Params

namespace Config

/-! ### The address map: the defaults of R5 (log entry 2, DESIGN CHOICE within R5) -/

/-- CSR_BASE (R60, D3). -/
def csrBase : Nat := 0x00000000
/-- The CSR window is 4 KiB long (R60). -/
def csrSize : Nat := 0x1000
/-- PIN_BASE (R60, D3). -/
def pinBase : Nat := 0x00010000
/-- PIN[0..65535] (R62). -/
def pinSize : Nat := 0x10000
/-- OUT_BASE (R60, D3). -/
def outBase : Nat := 0x01000000
/-- OUT_MAX, in samples (R40, D26). -/
def outMax : Nat := 1048576

/-! ### Open constants: nothing in Lean can evaluate them or prove a value of them (log entries 1, 14) -/

opaque evenNegative : Bool
/-- Which of the six maximal-length masks PN_TAPS is. -/
opaque pnTapsIndex : Fin 6
/-- PN_SEED - 1. -/
opaque pnSeedIndex : Fin 63
opaque checksum32 : List Byte → Word
/-- SCRAMBLE where it is self-inverse and length-preserving; see `selfInverse`. -/
opaque scrambleRaw : List Byte → List Byte
/-- FEC_N - 16. -/
opaque fecExtra : Fin 17
/-- Byte k of FEC_ENC(x). -/
opaque fecByte : List Byte → Nat → Byte
opaque filler : Nat → Byte
opaque intlvPerm : Equiv.Perm (Fin 32)
/-- The two halves of HDR_MAP(bit). -/
opaque hdrMapRaw : Bool → BitVec 64
/-- The two halves of MOD_MAP(scheme, depth, symbol). -/
opaque modMapRaw : BitVec 4 → BitVec 4 → BitVec 15 → BitVec 64
opaque schemeBpsk : BitVec 4
/-- MOD_SUPPORTED away from (SCHEME_BPSK, 1). -/
opaque modSupportedRaw : BitVec 4 → BitVec 4 → Bool
/-- ENV_UP away from i = 0. -/
opaque envUpRaw : Nat → Nat → F32
/-- ENV_DN away from i = 0. -/
opaque envDnRaw : Nat → Nat → F32
opaque minAlloc : Word
opaque execLatency : Word → Nat
/-- The product of a sign and a NaN, where it is a NaN. -/
opaque nanProductRaw : Bool → F32 → F32
opaque draw : Nat → Nat → BitVec 64

/-- A sample from its two halves. -/
def sampleOf (v : BitVec 64) : Sample := ⟨v.setWidth 32, (v >>> 32).setWidth 32⟩

/-- `f` where applying it twice gives the argument back and it keeps the length, and the argument elsewhere. Every
length-preserving self-inverse function is of this form, and every function of this form is one (R192). -/
def selfInverse (f : List Byte → List Byte) (x : List Byte) : List Byte :=
  if f (f x) = x ∧ (f x).length = x.length then f x else x

theorem selfInverse_selfInverse (f : List Byte → List Byte) (x : List Byte) :
    selfInverse f (selfInverse f x) = x := by
  by_cases h : f (f x) = x ∧ (f x).length = x.length
  · simp [selfInverse, h.1, h.2]
  · simp [selfInverse, h]

theorem selfInverse_length (f : List Byte → List Byte) (x : List Byte) :
    (selfInverse f x).length = x.length := by
  unfold selfInverse
  split
  · next h => exact h.2
  · rfl

/-- PN_TAPS. -/
def pnTaps : BitVec 6 := maximalTaps.get pnTapsIndex

/-- PN_SEED. -/
def pnSeed : BitVec 6 := BitVec.ofNat 6 (pnSeedIndex.val + 1)

theorem pnSeed_ne_zero : pnSeed ≠ 0#6 := by
  have h := pnSeedIndex.isLt
  intro e
  have e' := congrArg BitVec.toNat e
  simp only [pnSeed, BitVec.toNat_ofNat] at e'
  omega

/-- The parameters of the machine the model describes. -/
def params : Params where
  evenNegative := evenNegative
  pnTaps := pnTaps
  pnTaps_maximal := List.get_mem _ _
  pnSeed := pnSeed
  pnSeed_ne_zero := pnSeed_ne_zero
  checksum32 := checksum32
  scramble := selfInverse scrambleRaw
  scramble_scramble := selfInverse_selfInverse scrambleRaw
  scramble_length := selfInverse_length scrambleRaw
  fecN := 16 + fecExtra.val
  fecN_bounds := by have := fecExtra.isLt; omega
  fecEnc := fun x => (List.range (16 + fecExtra.val)).map (fecByte x)
  fecEnc_length := by simp
  filler := filler
  intlvPerm := intlvPerm
  hdrMap := fun b => sampleOf (hdrMapRaw b)
  modMap := fun sc d sym => sampleOf (modMapRaw sc d sym)
  schemeBpsk := schemeBpsk
  modSupported := fun sc d => (sc == schemeBpsk && d == 1#4) || modSupportedRaw sc d
  modSupported_default := by simp
  envUp := fun i len => if i = 0 then f32Zero else envUpRaw i len
  envUp_zero := by simp
  envDn := fun i d => if i = 0 then f32One else envDnRaw i d
  envDn_zero := by simp
  minAlloc := minAlloc
  execLatency := execLatency
  nanProduct := fun neg a => if isNaN (nanProductRaw neg a) then nanProductRaw neg a else 0x7FC00000#32
  nanProduct_isNaN := by
    intro neg a
    split
    · assumption
    · decide
  draw := draw

end Config

end Sys2Proof
end

