-- ==== Sys2Proof/Syntax.lean ====
section
/-! DEFINITION. The operations of FRAMEGEN, one constructor for each row of spec/opcode_table.json (30_encoding.md rules
R90-R96). -/

namespace Sys2Proof

/-- A host operation (R90). CREATE, SETCFG, EXEC, DESTROY and the reserved words are in command form; GETCFG and
FRAMELEN are in query form. -/
inductive Instr where
  /-- CREATE; `staged` is the S bit: true for CREATE.S (R92, R93, R123). -/
  | create (staged : Bool)
  /-- SETCFG (R124). -/
  | setcfg
  /-- EXEC (R127). -/
  | exec
  /-- DESTROY (R137). -/
  | destroy
  /-- GETCFG, with the order in which the host reads the five registers (R96: any order; R125). -/
  | getcfg (order : List CfgReg)
  /-- FRAMELEN (R126). -/
  | framelen
  /-- Any command word that is none of the five of R94 (R95, R266). -/
  | reserved (w : Word)
deriving DecidableEq, Repr

end Sys2Proof
end

