-- ==== Sys2Proof/WellFormed.lean ====
section
/-! DEFINITION. Which terms of `Instr` are operations a host can issue (30_encoding.md rules R94-R96). -/

namespace Sys2Proof

/-- The five words that decode to a command (R94). -/
def commandWords : List Word := [0x00000001#32, 0x00000101#32, 0x00000002#32, 0x00000003#32, 0x00000004#32]

/-- A GETCFG reads each of the five registers once, in any order (R96). -/
def isGetcfgOrder (order : List CfgReg) : Bool := order.length == 5 && decide order.Nodup

/-- A GETCFG reads the five registers, each once; a reserved word is none of the five command words. Every other term
is an operation. -/
def Instr.wellFormed : Instr → Bool
  | .create _ => true
  | .setcfg => true
  | .exec => true
  | .destroy => true
  | .getcfg order => isGetcfgOrder order
  | .framelen => true
  | .reserved w => !commandWords.contains w

end Sys2Proof
end

