-- ==== Sys2Proof/Decode.lean ====
section
/-! DEFINITION. The CSR map's offsets, the decoder of command words (R94) and of the front of a host access stream, and
the encoder. -/

namespace Sys2Proof

/-- The offset of a register in the CSR window (10_state.md section 2). -/
def Csr.offset : Csr → Nat
  | .cmd => 0x000
  | .status => 0x004
  | .ctrl => 0x008
  | .stgRampup => 0x010
  | .stgPhasing => 0x014
  | .stgPaylen => 0x018
  | .stgMod => 0x01C
  | .stgRampdn => 0x020
  | .cfgRampup => 0x030
  | .cfgPhasing => 0x034
  | .cfgPaylen => 0x038
  | .cfgMod => 0x03C
  | .cfgRampdn => 0x040
  | .geoNsym => 0x050
  | .geoFramelen => 0x054
  | .allocPay => 0x060
  | .allocSym => 0x064
  | .allocSmp => 0x068
  | .resizeCnt => 0x06C
  | .outCap => 0x070
  | .outCount => 0x074
  | .faultExp => 0x078
  | .faultCnt => 0x07C
  | .hdrIn0 => 0x080
  | .hdrIn1 => 0x084

/-- Every register of the CSR map, in the order of the map. -/
def Csr.all : List Csr :=
  [.cmd, .status, .ctrl, .stgRampup, .stgPhasing, .stgPaylen, .stgMod, .stgRampdn,
    .cfgRampup, .cfgPhasing, .cfgPaylen, .cfgMod, .cfgRampdn, .geoNsym, .geoFramelen]
  ++ [.allocPay, .allocSym, .allocSmp, .resizeCnt, .outCap, .outCount, .faultExp, .faultCnt, .hdrIn0, .hdrIn1]

/-- The register at an offset of the CSR window; none for a reserved offset (R52). -/
def Csr.atOffset (off : Nat) : Option Csr := Csr.all.find? fun c => c.offset == off

/-- The host address of a register: CSR_BASE + offset (R61). -/
def Csr.addr (c : Csr) : Word := BitVec.ofNat 32 (Config.csrBase + c.offset)

/-- The register a GETCFG read names (R96). -/
def CfgReg.csr : CfgReg → Csr
  | .rampup => .cfgRampup
  | .phasing => .cfgPhasing
  | .paylen => .cfgPaylen
  | .mod => .cfgMod
  | .rampdn => .cfgRampdn

/-- Every register of a GETCFG, in the order of R125. -/
def CfgReg.all : List CfgReg := [.rampup, .phasing, .paylen, .mod, .rampdn]

/-- The decoding of a command word (R94). Total: a word that is no command is `reserved`. -/
def decodeCommand (w : Word) : Instr :=
  if w &&& 0xFFFFFEF0#32 ≠ 0#32 then .reserved w
  else
    let op := w.extractLsb' 0 4
    let s := w.getLsbD 8
    if op = 0x1#4 then .create s
    else if op = 0x2#4 then (if s then .reserved w else .setcfg)
    else if op = 0x3#4 then (if s then .reserved w else .exec)
    else if op = 0x4#4 then (if s then .reserved w else .destroy)
    else .reserved w

/-- The configuration register a host access reads, if it is a 32-bit read of one. -/
def cfgRead? : HostEvent → Option CfgReg
  | .read .b32 a => CfgReg.all.find? fun r => r.csr.addr == a
  | .read .b8 _ => none
  | .read .b16 _ => none
  | .read .b64 _ => none
  | .write _ _ _ => none
  | .reset => none

/-- The configuration registers a list of accesses reads, if every one is such a read. -/
def cfgReads? : List HostEvent → Option (List CfgReg)
  | [] => some []
  | ev :: evs =>
    match cfgRead? ev, cfgReads? evs with
    | some r, some rs => some (r :: rs)
    | _, _ => none

/-- The GETCFG at the front of an access stream, if there is one: five reads of the five registers, each once (R96). -/
def decodeGetcfg (evs : List HostEvent) : Option (List CfgReg) :=
  match cfgReads? (evs.take 5) with
  | some order => if isGetcfgOrder order then some order else none
  | none => none

/-- Why the front of an access stream is no operation. -/
inductive NotAnOperation where
  /-- There is no access. -/
  | noAccess
  /-- A data access (R90): a read or write that is neither a CMD write nor a query. -/
  | dataAccess
  /-- The reset input (R291). -/
  | resetInput
deriving DecidableEq, Repr

/-- The operation at the front of an access stream and the accesses after it (R90): a 32-bit write to CMD is a command,
a 32-bit read of GEO_FRAMELEN is a FRAMELEN, five reads of the five CFG registers are a GETCFG. -/
def decode (evs : List HostEvent) : Except NotAnOperation (Instr × List HostEvent) :=
  match evs with
  | [] => .error .noAccess
  | .reset :: _ => .error .resetInput
  | .write width addr data :: rest =>
    if width = .b32 ∧ addr = Csr.cmd.addr then .ok (decodeCommand data, rest) else .error .dataAccess
  | .read width addr :: rest =>
    if width = .b32 ∧ addr = Csr.geoFramelen.addr then .ok (.framelen, rest)
    else
      match decodeGetcfg evs with
      | some order => .ok (.getcfg order, evs.drop 5)
      | none => .error .dataAccess

/-- The 32-bit write of a command word to CMD (R91). -/
def commandWrite (w : Word) : HostEvent := .write .b32 Csr.cmd.addr w

/-- The 32-bit read of a register (R96). -/
def csrReadEvent (c : Csr) : HostEvent := .read .b32 c.addr

/-- The host accesses an operation consists of (R92, R96). -/
def encode : Instr → List HostEvent
  | .create false => [commandWrite 0x00000001#32]
  | .create true => [commandWrite 0x00000101#32]
  | .setcfg => [commandWrite 0x00000002#32]
  | .exec => [commandWrite 0x00000003#32]
  | .destroy => [commandWrite 0x00000004#32]
  | .getcfg order => order.map fun r => csrReadEvent r.csr
  | .framelen => [csrReadEvent .geoFramelen]
  | .reserved w => [commandWrite w]

/-- The command word whose low `nbits` bits are `w`, the bits above zero. -/
def tableWord (nbits w : Nat) : Word := BitVec.ofNat 32 (w % 2 ^ nbits)

/-- The operation the decoder reads from a word of spec/opcode_table.json written to CMD. -/
def decodeTableWord (nbits w : Nat) : Option Instr :=
  match decode [commandWrite (tableWord nbits w)] with
  | .ok (i, _) => some i
  | .error _ => none

end Sys2Proof
end

