-- ==== Sys2Proof/Machine/State.lean ====
section
/-! DEFINITION. The state of one FRAMEGEN instance (spec/10_state.md, 20_memory.md R62, R63), the state after reset
(70_reset_and_hazards.md R290), and why a step stops. -/

namespace Sys2Proof.Machine

/-- The result codes of STATUS.LAST_ERR (R22, R261). Codes 8 to 15 are never written, so they have no name. -/
inductive ErrCode where
  | ok | configError | capacityError | internalFault | notCreated | alreadyCreated | badCommand | faulted
deriving DecidableEq, Repr

/-- The segment the sequencer is writing (R47). -/
inductive Segment where
  | idle | rampUp | phasing | sync | header | payload | rampDown
deriving DecidableEq, Repr

/-- The six fields of a frame configuration (R24-R28, R29-R33; D6). -/
structure Cfg where
  rampUp : BitVec 16
  phasing : BitVec 16
  payLen : BitVec 16
  scheme : BitVec 4
  depth : BitVec 4
  rampDown : BitVec 16
deriving DecidableEq, Repr

/-- The configuration with every field 0: the live registers after reset and after DESTROY (R29-R33, R137). -/
def Cfg.zero : Cfg := ⟨0#16, 0#16, 0#16, 0#4, 0#4, 0#16⟩

/-- DEFAULT_CFG (R120). -/
def Cfg.default (P : Params) : Cfg := ⟨16#16, 16#16, 0#16, P.schemeBpsk, 1#4, 16#16⟩

/-- MOD_SEL, the current payload modulator (R49). -/
structure ModSel where
  scheme : BitVec 4
  depth : BitVec 4
deriving DecidableEq, Repr

/-- A payload working buffer (R48): its first entries as written since it was last unspecified, and the number of the
draw that gives every other entry (R243; log entry 19). -/
structure Buffer (α : Type) where
  draw : Nat
  cells : List α
deriving DecidableEq, Repr

/-- No rule gives the block a fault that stops it: every error is a result code in LAST_ERR (R260, R272), so no step
ends in a fault and the type is empty. -/
inductive Fault where
deriving DecidableEq, Repr

/-- Why a host access has no next state. Every refusal but the first is a host protocol violation of R292; the rules
leave an implementation's response unspecified, so refusing is safe. -/
inductive Refusal where
  /-- Raised by `exec` for an instruction without a meaning. No arm does. Safe. -/
  | notModelled (mnemonic : String)
  /-- An access to an address in no window (R64), raised by `Machine.admitAccess`. Safe. -/
  | outsideEveryWindow (addr : Word)
  /-- An access of a size its window does not take (R68), raised by `Machine.admitAccess`. Safe. -/
  | accessWidth (width : Width) (addr : Word)
  /-- A CSR or OUT access whose address is no multiple of 4 (R68), raised by `Machine.admitAccess`. Safe. -/
  | misaligned (addr : Word)
  /-- An access other than a read of STATUS while STATUS.BUSY reads 1 (R292 item 2), raised by `Machine.step`. Safe. -/
  | accessWhileBusy
deriving DecidableEq, Repr

/-- The state of the block, and the host accesses it has yet to take. -/
@[ext]
structure State where
  /-- STATUS.CREATED (R22). -/
  created : Bool
  /-- STATUS.FAULT (R22). -/
  fault : Bool
  /-- STATUS.BUSY (R22; log entry 10). -/
  busy : Bool
  /-- STATUS.LAST_ERR (R22). -/
  lastErr : ErrCode
  /-- CTRL.RD_DIV_SEL (R23). -/
  rdDivSel : Bool
  /-- STG_RAMPUP, STG_PHASING, STG_PAYLEN, STG_MOD, STG_RAMPDN (R24-R28). -/
  staged : Cfg
  /-- CFG_RAMPUP, CFG_PHASING, CFG_PAYLEN, CFG_MOD, CFG_RAMPDN (R29-R33). -/
  live : Cfg
  /-- GEO_NSYM (R34). -/
  geoNsym : Word
  /-- GEO_FRAMELEN (R35). -/
  geoFrameLen : Word
  /-- ALLOC_PAY (R36). -/
  allocPay : Word
  /-- ALLOC_SYM (R37). -/
  allocSym : Word
  /-- ALLOC_SMP (R38). -/
  allocSmp : Word
  /-- RESIZE_CNT (R39). -/
  resizeCnt : Word
  /-- OUT_CAP (R40). -/
  outCap : Word
  /-- OUT_COUNT (R41). -/
  outCount : Word
  /-- FAULT_EXP (R42). -/
  faultExp : Word
  /-- FAULT_CNT (R43). -/
  faultCnt : Word
  /-- HDR_IN0 (R44). -/
  hdrIn0 : Word
  /-- HDR_IN1 (R44). -/
  hdrIn1 : Word
  /-- LFSR (R45). -/
  lfsr : BitVec 6
  /-- PN_SEQ, 64 chips, chip 0 first; true is the chip value 1 (R45). -/
  pnSeq : List Bool
  /-- HDR_RAW, 15 bytes (R46). -/
  hdrRaw : List Byte
  /-- HDR_ENC, 32 bytes (R46). -/
  hdrEnc : List Byte
  /-- HDR_SYM, 256 samples (R46). -/
  hdrSym : List Sample
  /-- SEG (R47). -/
  seg : Segment
  /-- N, the global index of the next output sample (R47). -/
  n : Nat
  /-- PAY_BUF (R48). -/
  payBuf : Buffer Byte
  /-- PAY_SYM (R48). -/
  paySym : Buffer (BitVec 15)
  /-- PAY_SMP (R48). -/
  paySmp : Buffer Sample
  /-- MOD_SEL (R49). -/
  modSel : ModSel
  /-- The bytes of the PIN and OUT windows written since reset, by address (R62, R63), in the form of `Memory.wf`. -/
  mem : List Host.Cell
  /-- The number of the draw the other bytes of PIN and OUT read (R290; log entry 9). -/
  memDraw : Nat
  /-- How many draws have been made: the number of the next one (log entry 3). -/
  draws : Nat
  /-- The accesses the host has issued and the block has not taken, oldest first (R71; log entry 5). -/
  pending : List HostEvent
  /-- The values the host's reads have returned, oldest first (R71; log entry 5). -/
  responses : List Word
deriving DecidableEq, Repr

namespace State

/-- The state of R290, with the draws numbered from `k`, given the host's side: what it has yet to issue and what it
has read. -/
def resetFrom (P : Params) (k : Nat) (pending : List HostEvent) (responses : List Word) : State where
  created := false
  fault := false
  busy := false
  lastErr := .ok
  rdDivSel := false
  staged := Cfg.default P
  live := Cfg.zero
  geoNsym := 0#32
  geoFrameLen := 0#32
  allocPay := P.minAlloc
  allocSym := P.minAlloc
  allocSmp := P.minAlloc
  resizeCnt := 0#32
  outCap := 0#32
  outCount := 0#32
  faultExp := 0#32
  faultCnt := 0#32
  hdrIn0 := 0#32
  hdrIn1 := 0#32
  lfsr := (P.draw k 0).setWidth 6
  pnSeq := (List.range 64).map (P.drawBit (k + 1))
  modSel := ⟨(P.draw (k + 2) 0).setWidth 4, (P.draw (k + 2) 1).setWidth 4⟩
  hdrRaw := (List.range 15).map (P.drawByte (k + 3))
  hdrEnc := (List.range 32).map (P.drawByte (k + 4))
  hdrSym := (List.range 256).map (P.drawSample (k + 5))
  seg := .idle
  n := 0
  payBuf := ⟨k + 6, []⟩
  paySym := ⟨k + 7, []⟩
  paySmp := ⟨k + 8, []⟩
  mem := []
  memDraw := k + 9
  draws := k + 10
  pending := pending
  responses := responses

/-- The machine right after hardware reset (R290), before the host's first access. -/
def reset : State := resetFrom Config.params 0 [] []

end State

end Sys2Proof.Machine
end

