-- ==== Sys2Proof/Machine/Ops.lean ====
section
/-! DEFINITION. The named operations the meanings share: the bytes of the PIN and OUT windows (20_memory.md), the working
buffers, reporting a result (60_exceptions.md R260), emitting samples (40_frame_assembler.md), and reset (R291). -/

namespace Sys2Proof.Machine

/-! ### Bytes by address -/

namespace Memory

/-- The byte at address `a`: the listed one, or `u a`. -/
def read (u : Nat → Byte) : List Host.Cell → Nat → Byte
  | [], a => u a
  | (b, w) :: m, a => if a = b then w else read u m a

/-- Put a cell in front, unless it holds what its address reads when unlisted. -/
def consCell (u : Nat → Byte) (a : Nat) (v : Byte) (m : List Host.Cell) : List Host.Cell :=
  if v = u a then m else (a, v) :: m

/-- Write one byte, keeping the addresses rising and no cell equal to what its address reads when unlisted. -/
def write (u : Nat → Byte) (a : Nat) (v : Byte) : List Host.Cell → List Host.Cell
  | [] => consCell u a v []
  | (b, w) :: m =>
    if a < b then consCell u a v ((b, w) :: m)
    else if a = b then consCell u a v m
    else (b, w) :: write u a v m

/-- Write bytes at consecutive addresses from `a` up. -/
def writeBytes (u : Nat → Byte) (a : Nat) : List Byte → List Host.Cell → List Host.Cell
  | [], m => m
  | v :: vs, m => write u a v (writeBytes u (a + 1) vs m)

/-- The canonical form: addresses strictly rising, and no cell equal to what its address reads when unlisted. -/
def wf (u : Nat → Byte) : List Host.Cell → Bool
  | [] => true
  | (a, v) :: m => v != u a && m.all (fun c => decide (a < c.1)) && wf u m

end Memory

/-- The four bytes of a word, at rising addresses. No access sees this order (R67; log entry 8). -/
def wordBytes (w : Word) : List Byte :=
  [w.extractLsb' 0 8, w.extractLsb' 8 8, w.extractLsb' 16 8, w.extractLsb' 24 8]

/-- The word whose four bytes are these, as `wordBytes` orders them. -/
def wordOfBytes (b0 b1 b2 b3 : Byte) : Word := (b3 ++ b2 ++ b1 ++ b0 : BitVec 32)

/-- A word's bytes, most significant first (R65). -/
def wordBytesBE (w : Word) : List Byte :=
  [w.extractLsb' 24 8, w.extractLsb' 16 8, w.extractLsb' 8 8, w.extractLsb' 0 8]

/-- A sample's eight bytes in OUT: the real word, then the imaginary word (R63). -/
def sampleBytes (x : Sample) : List Byte := wordBytes x.re ++ wordBytes x.im

/-- Bit p of the stream of bytes B, most significant bit first: bitMSB (R7). -/
def bitMSB (B : Nat → Byte) (p : Nat) : Bool := (B (p / 8)).getLsbD (7 - p % 8)

namespace State

/-- What an address of PIN or OUT that nothing has written since reset reads: drawn once at reset (R290). -/
def unlisted (P : Params) (s : State) (a : Nat) : Byte := P.drawByte s.memDraw a

/-- The byte at a host address of the PIN or OUT window. -/
def byteAt (P : Params) (s : State) (a : Nat) : Byte := Memory.read (s.unlisted P) s.mem a

/-- The word at a host address of the OUT window. -/
def wordAt (P : Params) (s : State) (a : Nat) : Word :=
  wordOfBytes (s.byteAt P a) (s.byteAt P (a + 1)) (s.byteAt P (a + 2)) (s.byteAt P (a + 3))

/-- PIN[j] (R62). -/
def pin (P : Params) (s : State) (j : Nat) : Byte := s.byteAt P (Config.pinBase + j)

/-- OUT[k] (R63). -/
def out (P : Params) (s : State) (k : Nat) : Sample :=
  ⟨s.wordAt P (Config.outBase + 8 * k), s.wordAt P (Config.outBase + 8 * k + 4)⟩

/-- Write bytes at consecutive host addresses of the PIN or OUT window. -/
def storeBytes (P : Params) (a : Nat) (vs : List Byte) (s : State) : State :=
  { s with mem := Memory.writeBytes (s.unlisted P) a vs s.mem }

/-- Return values to the host (R71). -/
def respond (vs : List Word) (s : State) : State := { s with responses := s.responses ++ vs }

end State

/-! ### Working buffers -/

namespace Buffer

/-- Entry j: as written, or the free value of its draw. -/
def get {α : Type} (free : Nat → Nat → α) (b : Buffer α) (j : Nat) : α := b.cells.getD j (free b.draw j)

/-- Write entries 0, 1, … with the given values; the entries after them keep theirs. -/
def put {α : Type} (vs : List α) (b : Buffer α) : Buffer α :=
  { b with cells := vs ++ b.cells.drop vs.length }

end Buffer

/-- Every internal array and register that R137 and R290 leave unspecified gets a new draw: LFSR, PN_SEQ, MOD_SEL, the
header buffers and the payload buffers (R45, R46, R48, R49). -/
def unspecifyInstance (P : Params) (s : State) : State :=
  { s with
    lfsr := (P.draw s.draws 0).setWidth 6
    pnSeq := (List.range 64).map (P.drawBit (s.draws + 1))
    modSel := ⟨(P.draw (s.draws + 2) 0).setWidth 4, (P.draw (s.draws + 2) 1).setWidth 4⟩
    hdrRaw := (List.range 15).map (P.drawByte (s.draws + 3))
    hdrEnc := (List.range 32).map (P.drawByte (s.draws + 4))
    hdrSym := (List.range 256).map (P.drawSample (s.draws + 5))
    payBuf := ⟨s.draws + 6, []⟩
    paySym := ⟨s.draws + 7, []⟩
    paySmp := ⟨s.draws + 8, []⟩
    draws := s.draws + 9 }

/-! ### Reporting a result: what FRAMEGEN has in place of an exception -/

/-- `raise e` (R260): the command ends, LAST_ERR holds the code, and everything written before keeps its value. There
is no handler, no saved state and no return (R272, R273). A command that succeeds reports `ok` the same way. -/
def raise (e : ErrCode) (s : State) : State := { s with lastErr := e }

/-- Hardware reset, asserted between two accesses (R291): the state of R290 with new draws. What the host has yet to
issue and what it has read are the host's, and stay. -/
def hardwareReset (P : Params) (s : State) : State := State.resetFrom P s.draws s.pending s.responses

/-! ### Emitting samples -/

/-- `emit` for each sample in turn: OUT[N] <- x; N <- N + 1 (40_frame_assembler.md, introduction). -/
def emitAll (P : Params) (xs : List Sample) (s : State) : State :=
  { s.storeBytes P (Config.outBase + 8 * s.n) (xs.flatMap sampleBytes) with n := s.n + xs.length }

/-- The sign sgn(k) (R11): true for -1. -/
def sgnNegative (P : Params) (k : Nat) : Bool := (k % 2 == 1) != P.evenNegative

/-- The binary32 product of a sign (true for -1) and an amplitude (R10): the sign bit of a number, a free NaN for a NaN
(log entry 11). -/
def signTimes (P : Params) (negative : Bool) (a : F32) : F32 :=
  if isNaN a then P.nanProduct negative a else if negative then a ^^^ 0x80000000#32 else a

end Sys2Proof.Machine
end

