-- ==== Sys2Proof/Machine/Operands.lean ====
section
/-! DEFINITION. What the commands read: the configuration a command is given (R93, R98), its validity and geometry
(40_frame_assembler.md R120-R122), the required buffer sizes (R240), and the header bytes (R44). -/

namespace Sys2Proof.Machine

/-- The configuration CREATE reads: the staged one for S = 1, DEFAULT_CFG for S = 0 (R93, R123). -/
def createOperand (P : Params) (staged : Bool) (s : State) : Cfg := if staged then s.staged else Cfg.default P

/-- VALID(cfg) (R121). -/
def valid (P : Params) (cfg : Cfg) : Bool := decide (1 ≤ cfg.depth.toNat) && P.modSupported cfg.scheme cfg.depth

/-- nsym = ceil(8 L / d) of GEOMETRY(cfg) (R122). -/
def nsymOf (cfg : Cfg) : Nat := (8 * cfg.payLen.toNat + cfg.depth.toNat - 1) / cfg.depth.toNat

/-- flen of GEOMETRY(cfg) (R122). -/
def frameLenOf (cfg : Cfg) : Nat :=
  cfg.rampUp.toNat + cfg.phasing.toNat + 64 + 256 + nsymOf cfg + cfg.rampDown.toNat

/-- The packed modulation byte (sc << 4) OR d of STG_MOD, CFG_MOD and header byte 10 (R97). -/
def modByte (cfg : Cfg) : Byte := (cfg.scheme ++ cfg.depth : BitVec 8)

/-- REQ_PAY (R240). -/
def requiredPay (s : State) : Word := s.live.payLen.setWidth 32

/-- REQ_SYM (R240). -/
def requiredSym (s : State) : Word := s.geoNsym

/-- REQ_SMP (R240). -/
def requiredSmp (s : State) : Word := s.geoNsym

/-- U[0..7], the user header bytes of HDR_IN0 and HDR_IN1 (R44). -/
def userBytes (s : State) : List Byte := wordBytesBE s.hdrIn0 ++ wordBytesBE s.hdrIn1

end Sys2Proof.Machine
end

