-- ==== Sys2Proof/Machine/Flags.lean ====
section
/-! DEFINITION. The status register (10_state.md R22, R53): FRAMEGEN's only flags. -/

namespace Sys2Proof.Machine

/-- The LAST_ERR code of a result (R261). -/
def ErrCode.code : ErrCode → BitVec 4
  | .ok => 0#4
  | .configError => 1#4
  | .capacityError => 2#4
  | .internalFault => 3#4
  | .notCreated => 4#4
  | .alreadyCreated => 5#4
  | .badCommand => 6#4
  | .faulted => 7#4

/-- STATUS as the host reads it: [0] CREATED, [1] FAULT, [2] BUSY, [3] 0, [7:4] LAST_ERR, [31:8] 0 (R22). -/
def statusWord (s : State) : Word :=
  (0#24 ++ s.lastErr.code ++ 0#1 ++ BitVec.ofBool s.busy ++ BitVec.ofBool s.fault ++ BitVec.ofBool s.created : BitVec 32)

end Sys2Proof.Machine
end

