-- ==== Sys2Proof/Machine/Registers.lean ====
section
/-! DEFINITION. Host reads and writes of the CSR window (10_state.md sections 2 to 7, R52; 20_memory.md R69). -/

namespace Sys2Proof.Machine

/-- The value a 32-bit read of a register returns. Bits its field table does not name read 0 (R22-R44). -/
def csrRead (s : State) : Csr → Word
  | .cmd => 0#32
  | .status => statusWord s
  | .ctrl => (BitVec.ofBool s.rdDivSel).setWidth 32
  | .stgRampup => s.staged.rampUp.setWidth 32
  | .stgPhasing => s.staged.phasing.setWidth 32
  | .stgPaylen => s.staged.payLen.setWidth 32
  | .stgMod => (modByte s.staged).setWidth 32
  | .stgRampdn => s.staged.rampDown.setWidth 32
  | .cfgRampup => s.live.rampUp.setWidth 32
  | .cfgPhasing => s.live.phasing.setWidth 32
  | .cfgPaylen => s.live.payLen.setWidth 32
  | .cfgMod => (modByte s.live).setWidth 32
  | .cfgRampdn => s.live.rampDown.setWidth 32
  | .geoNsym => s.geoNsym
  | .geoFramelen => s.geoFrameLen
  | .allocPay => s.allocPay
  | .allocSym => s.allocSym
  | .allocSmp => s.allocSmp
  | .resizeCnt => s.resizeCnt
  | .outCap => s.outCap
  | .outCount => s.outCount
  | .faultExp => s.faultExp
  | .faultCnt => s.faultCnt
  | .hdrIn0 => s.hdrIn0
  | .hdrIn1 => s.hdrIn1

/-- min(v, OUT_MAX): what a write of v to OUT_CAP stores (R40). -/
def outCapStored (v : Word) : Word := if v.toNat < Config.outMax then v else BitVec.ofNat 32 Config.outMax

/-- A 32-bit write to a register as a data access: reserved bits and read-only registers ignore it (R23-R44, R52, R69).
A write to CMD is a command (R21): `step` decodes and runs it, so none comes here. -/
def csrWrite (v : Word) (s : State) : Csr → State
  | .ctrl => { s with rdDivSel := v.getLsbD 0 }
  | .stgRampup => { s with staged := { s.staged with rampUp := v.setWidth 16 } }
  | .stgPhasing => { s with staged := { s.staged with phasing := v.setWidth 16 } }
  | .stgPaylen => { s with staged := { s.staged with payLen := v.setWidth 16 } }
  | .stgMod => { s with staged := { s.staged with scheme := v.extractLsb' 4 4, depth := v.extractLsb' 0 4 } }
  | .stgRampdn => { s with staged := { s.staged with rampDown := v.setWidth 16 } }
  | .outCap => { s with outCap := outCapStored v }
  | .hdrIn0 => { s with hdrIn0 := v }
  | .hdrIn1 => { s with hdrIn1 := v }
  | .cmd => s
  | .status => s
  | .cfgRampup => s
  | .cfgPhasing => s
  | .cfgPaylen => s
  | .cfgMod => s
  | .cfgRampdn => s
  | .geoNsym => s
  | .geoFramelen => s
  | .allocPay => s
  | .allocSym => s
  | .allocSmp => s
  | .resizeCnt => s
  | .outCount => s
  | .faultExp => s
  | .faultCnt => s

/-- A read at an offset of the CSR window: 0 at a reserved offset (R52). -/
def csrReadAt (off : Nat) (s : State) : Word :=
  match Csr.atOffset off with
  | some c => csrRead s c
  | none => 0#32

/-- A write at an offset of the CSR window: no effect at a reserved offset (R52). -/
def csrWriteAt (off : Nat) (v : Word) (s : State) : State :=
  match Csr.atOffset off with
  | some c => csrWrite v s c
  | none => s

end Sys2Proof.Machine
end

