-- ==== Sys2Proof/Machine/Access.lean ====
section
/-! DEFINITION. Host data accesses to the three windows and the reset input (20_memory.md R60-R70, 70_reset_and_hazards.md
R291, R292). -/

namespace Sys2Proof.Machine

/-- What an admitted access reaches. -/
inductive Target where
  /-- The register, if any, at this offset of the CSR window. -/
  | csr (off : Nat)
  /-- The byte PIN[j]. -/
  | pin (j : Nat)
  /-- The OUT word at this host address. -/
  | out (addr : Nat)
deriving DecidableEq, Repr

/-- A 32-bit access to a word window: the right width and aligned, or refused (R68). -/
def admitWord (width : Width) (addr : Word) (t : Target) : Except Refusal Target :=
  if width ≠ .b32 then .error (.accessWidth width addr)
  else if addr.toNat % 4 ≠ 0 then .error (.misaligned addr)
  else .ok t

/-- The target of an access, or why it is a host protocol violation (R60, R64, R68). -/
def admitAccess (width : Width) (addr : Word) : Except Refusal Target :=
  let a := addr.toNat
  if Config.csrBase ≤ a ∧ a < Config.csrBase + Config.csrSize then
    admitWord width addr (.csr (a - Config.csrBase))
  else if Config.pinBase ≤ a ∧ a < Config.pinBase + Config.pinSize then
    if width ≠ .b8 then .error (.accessWidth width addr) else .ok (.pin (a - Config.pinBase))
  else if Config.outBase ≤ a ∧ a < Config.outBase + 8 * Config.outMax then
    admitWord width addr (.out a)
  else .error (.outsideEveryWindow addr)

/-- The value an admitted read returns (R69, R71); a PIN byte is widened with zeros (log entry 26). -/
def readTarget (P : Params) (s : State) : Target → Word
  | .csr off => csrReadAt off s
  | .pin j => (s.pin P j).setWidth 32
  | .out a => s.wordAt P a

/-- An admitted write stores its value (R69); a PIN write stores the low byte of the data (log entry 26). -/
def writeTarget (P : Params) (v : Word) (s : State) : Target → State
  | .csr off => csrWriteAt off v s
  | .pin j => s.storeBytes P (Config.pinBase + j) [v.extractLsb' 0 8]
  | .out a => s.storeBytes P a (wordBytes v)

/-- An access that is no operation: a data access (R90) or the reset input (R291). -/
def access (P : Params) (ev : HostEvent) (s : State) : Host.Outcome State Fault Refusal :=
  match ev with
  | .reset => .next (hardwareReset P s)
  | .read width addr =>
    match admitAccess width addr with
    | .ok t => .next (s.respond [readTarget P s t])
    | .error r => .refused r
  | .write width addr v =>
    match admitAccess width addr with
    | .ok t => .next (writeTarget P v s t)
    | .error r => .refused r

/-- The accesses a host may make while STATUS.BUSY = 1: a read of STATUS (R292 item 2), and the reset input (R291). -/
def allowedWhileBusy (ev : HostEvent) : Bool := ev == csrReadEvent .status || ev == .reset

/-- Hand the block one more access to take before those already pending: the host's write of a word to CMD, with BUSY
as it reads between commands. -/
def withCommandWrite (s : State) (w : Word) : State := { s with pending := commandWrite w :: s.pending, busy := false }

end Sys2Proof.Machine
end

