-- ==== Sys2Proof/Machine/Buffers.lean ====
section
/-! DEFINITION. The buffer manager (44_buffer_manager.md). -/

namespace Sys2Proof.Machine

/-- ENSURE_CAPACITY for PAY_BUF (R241): on a mismatch the recorded size becomes the required one, the contents become
unspecified (R243) and RESIZE_CNT counts it. -/
def fitPay (s : State) : State :=
  if s.allocPay = requiredPay s then s
  else { s with allocPay := requiredPay s, payBuf := ⟨s.draws, []⟩, draws := s.draws + 1, resizeCnt := s.resizeCnt + 1#32 }

/-- ENSURE_CAPACITY for PAY_SYM (R241). -/
def fitSym (s : State) : State :=
  if s.allocSym = requiredSym s then s
  else { s with allocSym := requiredSym s, paySym := ⟨s.draws, []⟩, draws := s.draws + 1, resizeCnt := s.resizeCnt + 1#32 }

/-- ENSURE_CAPACITY for PAY_SMP (R241). -/
def fitSmp (s : State) : State :=
  if s.allocSmp = requiredSmp s then s
  else { s with allocSmp := requiredSmp s, paySmp := ⟨s.draws, []⟩, draws := s.draws + 1, resizeCnt := s.resizeCnt + 1#32 }

/-- ENSURE_CAPACITY (R241): the three buffers in turn. -/
def ensureCapacity (s : State) : State := fitSmp (fitSym (fitPay s))

end Sys2Proof.Machine
end

