-- ==== Sys2Proof/Machine/Header.lean ====
section
/-! DEFINITION. The header codec (42_header_codec.md). -/

namespace Sys2Proof.Machine

/-- HDR_ASSEMBLE (R190): bytes 8..10 of the raw header; bytes 0..7 are already the user's. -/
def hdrAssemble (s : State) : State :=
  { s with hdrRaw :=
      s.hdrRaw.take 8
        ++ [s.live.payLen.extractLsb' 8 8, s.live.payLen.extractLsb' 0 8, modByte s.live]
        ++ s.hdrRaw.drop 11 }

/-- HDR_CHECKSUM (R191): over bytes 0..10, stored big-endian in bytes 11..14. -/
def hdrChecksum (P : Params) (s : State) : State :=
  { s with hdrRaw := s.hdrRaw.take 11 ++ wordBytesBE (P.checksum32 (s.hdrRaw.take 11)) }

/-- HDR_SCRAMBLE (R192): all 15 bytes, in place. -/
def hdrScramble (P : Params) (s : State) : State := { s with hdrRaw := P.scramble s.hdrRaw }

/-- HDR_FEC (R193): FEC_N bytes of code, then filler to 32. -/
def hdrFec (P : Params) (s : State) : State :=
  { s with hdrEnc := (List.range 32).map fun k =>
      if k < P.fecN then (P.fecEnc s.hdrRaw).getD k 0#8 else P.filler k }

/-- The byte position that output byte j of the interleaver takes (R194). -/
def interleaveSource (P : Params) (j : Nat) : Nat := if h : j < 32 then (P.intlvPerm ⟨j, h⟩).val else j

/-- HDR_INTERLEAVE (R194): output byte j is input byte INTLV_PERM(j). -/
def hdrInterleave (P : Params) (s : State) : State :=
  { s with hdrEnc := (List.range 32).map fun j => s.hdrEnc.getD (interleaveSource P j) 0#8 }

/-- HDR_ENCODE (R195): assemble, checksum, scramble, FEC, interleave, in this order. -/
def hdrEncode (P : Params) (s : State) : State :=
  hdrInterleave P (hdrFec P (hdrScramble P (hdrChecksum P (hdrAssemble s))))

/-- HDR_MODULATE (R196): one binary symbol for each of the 256 bits, most significant first (R198). -/
def hdrModulate (P : Params) (s : State) : State :=
  { s with hdrSym := (List.range 256).map fun p => P.hdrMap (bitMSB (fun j => s.hdrEnc.getD j 0#8) p) }

/-- The 256 samples of the header segment (R197). -/
def headerSamples (s : State) : List Sample := (List.range 256).map fun p => s.hdrSym.getD p ⟨f32Zero, f32Zero⟩

/-- HDR_OUT (R197). -/
def hdrOut (P : Params) (s : State) : State := emitAll P (headerSamples s) s

end Sys2Proof.Machine
end

