-- ==== Sys2Proof/Machine/Payload.lean ====
section
/-! DEFINITION. The payload codec (43_payload_codec.md). -/

namespace Sys2Proof.Machine

/-- PAY_CLEAR (R220): symbols 0..nsym-1 become 0. -/
def payClear (s : State) : State :=
  { s with paySym := s.paySym.put (List.replicate s.geoNsym.toNat 0#15) }

/-- Bit p of the payload stream of `len` bytes: bitMSB inside it, 0 past its end (R221). -/
def payloadBit (B : Nat → Byte) (len p : Nat) : Bool := if p < 8 * len then bitMSB B p else false

/-- Symbol k of the payload stream: d bits, most significant first (R221). -/
def symbolAt (B : Nat → Byte) (len d k : Nat) : BitVec 15 :=
  (List.range d).foldl (fun sym j => (sym <<< 1) ||| (BitVec.ofBool (payloadBit B len (k * d + j))).setWidth 15) 0#15

/-- The symbols REPACK writes (R221, R222). -/
def repackSymbols (P : Params) (s : State) : List (BitVec 15) :=
  (List.range s.geoNsym.toNat).map
    (symbolAt (s.payBuf.get P.drawByte) s.live.payLen.toNat s.live.depth.toNat)

/-- REPACK (R221). -/
def repack (P : Params) (s : State) : State :=
  let t := payClear s
  { t with paySym := t.paySym.put (repackSymbols P t) }

/-- PAY_MODULATE (R223). -/
def payModulate (P : Params) (s : State) : State :=
  { s with paySmp := s.paySmp.put ((List.range s.geoNsym.toNat).map fun k =>
      P.modMap s.modSel.scheme s.modSel.depth (s.paySym.get P.drawSymbol k)) }

/-- The samples of the payload segment (R224). -/
def payloadSamples (P : Params) (s : State) : List Sample :=
  (List.range s.geoNsym.toNat).map (s.paySmp.get P.drawSample)

/-- PAY_OUT (R224). -/
def payOut (P : Params) (s : State) : State := emitAll P (payloadSamples P s) s

end Sys2Proof.Machine
end

