-- ==== Sys2Proof/Machine/Sequence.lean ====
section
/-! DEFINITION. The PN-sequence generator and the sync segment (41_pn_sequence.md). -/

namespace Sys2Proof.Machine

/-- The XOR of all bits of v (R6). -/
def parity6 (v : BitVec 6) : Bool :=
  v.getLsbD 0 ^^ v.getLsbD 1 ^^ v.getLsbD 2 ^^ v.getLsbD 3 ^^ v.getLsbD 4 ^^ v.getLsbD 5

/-- The bit PN_ADVANCE returns in state v (R171). -/
def pnBit (taps v : BitVec 6) : Bool := parity6 (v &&& taps)

/-- The state PN_ADVANCE leaves (R171). -/
def pnNext (taps v : BitVec 6) : BitVec 6 := (v <<< 1) ||| (BitVec.ofBool (pnBit taps v)).setWidth 6

/-- The register after k advances from v (R171). -/
def pnState (taps v : BitVec 6) : Nat → BitVec 6
  | 0 => v
  | k + 1 => pnNext taps (pnState taps v k)

/-- The first k bits the generator returns from v (R172). -/
def pnBits (taps v : BitVec 6) : Nat → List Bool
  | 0 => []
  | k + 1 => pnBit taps v :: pnBits taps (pnNext taps v) k

/-- PN_GENERATE (R172). -/
def pnGenerate (P : Params) (s : State) : State :=
  { s with lfsr := pnState P.pnTaps P.pnSeed 64, pnSeq := pnBits P.pnTaps P.pnSeed 64 }

/-- The sample of a chip: true is +1.0, false is -1.0 (R45, R173). -/
def chipSample (chip : Bool) : Sample := ⟨if chip then f32One else f32NegOne, f32Zero⟩

/-- The 64 samples of the sync segment (R173). -/
def syncSamples (s : State) : List Sample := (List.range 64).map fun k => chipSample (s.pnSeq.getD k false)

/-- SYNC_OUT (R173). -/
def syncOut (P : Params) (s : State) : State := emitAll P (syncSamples s) s

end Sys2Proof.Machine
end

