-- ==== Sys2Proof/Machine/Assembler.lean ====
section
/-! DEFINITION. The frame assembler's commands (40_frame_assembler.md): CREATE, SETCFG, EXEC, DESTROY, and the reserved
command words (60_exceptions.md R266). Each `exec…` is the meaning of one constructor of `Instr`. -/

namespace Sys2Proof.Machine

/-! ### Configuration -/

/-- The live registers, MOD_SEL and the geometry take a valid configuration (R123, R124). -/
def applyCfg (cfg : Cfg) (s : State) : State :=
  { s with
    live := cfg
    modSel := ⟨cfg.scheme, cfg.depth⟩
    geoNsym := BitVec.ofNat 32 (nsymOf cfg)
    geoFrameLen := BitVec.ofNat 32 (frameLenOf cfg) }

/-- CREATE's buffers before ENSURE_CAPACITY (R123, R245). -/
def initBuffers (P : Params) (s : State) : State :=
  { s with allocPay := P.minAlloc, allocSym := P.minAlloc, allocSmp := P.minAlloc, resizeCnt := 0#32 }

/-- CREATE(s) (R123). -/
def create (P : Params) (staged : Bool) (s : State) : State :=
  if s.fault then raise .faulted s
  else if s.created then raise .alreadyCreated s
  else
    let cfg := createOperand P staged s
    if !valid P cfg then raise .configError s
    else raise .ok { ensureCapacity (applyCfg cfg (initBuffers P (pnGenerate P s))) with created := true }

/-- SETCFG (R124). -/
def setcfg (P : Params) (s : State) : State :=
  if s.fault then raise .faulted s
  else if !s.created then raise .notCreated s
  else if !valid P s.staged then raise .configError s
  else raise .ok (ensureCapacity (applyCfg s.staged s))

/-! ### EXEC -/

/-- EXEC_CAPTURE (R128): the user header bytes and PIN[0..L-1]. -/
def execCapture (P : Params) (s : State) : State :=
  { s with
    hdrRaw := userBytes s ++ s.hdrRaw.drop 8
    payBuf := s.payBuf.put ((List.range s.live.payLen.toNat).map (s.pin P)) }

/-- The samples of the ramp-up segment, the first at global index `n` (R130). -/
def rampUpSamples (P : Params) (n ru : Nat) : List Sample :=
  (List.range ru).map fun i => ⟨signTimes P (sgnNegative P (n + i)) (P.envUp i ru), f32Zero⟩

/-- RAMP_UP (R130). -/
def rampUp (P : Params) (s : State) : State := emitAll P (rampUpSamples P s.n s.live.rampUp.toNat) s

/-- The samples of the phasing segment, the first at global index `n` (R131). -/
def phasingSamples (P : Params) (n ph : Nat) : List Sample :=
  (List.range ph).map fun j => ⟨signTimes P (sgnNegative P (n + j)) f32One, f32Zero⟩

/-- PHASING (R131). -/
def phasing (P : Params) (s : State) : State := emitAll P (phasingSamples P s.n s.live.phasing.toNat) s

/-- The divisor D of the ramp-down: the ramp-up length for RD_DIV_SEL = 0, the ramp-down length for 1 (R135). -/
def rampDownDivisor (s : State) : Nat := if s.rdDivSel then s.live.rampDown.toNat else s.live.rampUp.toNat

/-- The amplitude of ramp-down sample i: ENV_DN(i, D), or a draw for a zero divisor (R135, D16). -/
def rampDownAmplitude (P : Params) (s : State) (i : Nat) : F32 :=
  if rampDownDivisor s = 0 then P.drawF32 s.draws i else P.envDn i (rampDownDivisor s)

/-- The samples of the ramp-down segment: the sign follows the segment-local index (R135). -/
def rampDownSamples (P : Params) (s : State) : List Sample :=
  (List.range s.live.rampDown.toNat).map fun i => ⟨signTimes P (sgnNegative P i) (rampDownAmplitude P s i), f32Zero⟩

/-- RAMP_DOWN (R135). A zero divisor uses up one draw (log entry 12). -/
def rampDown (P : Params) (s : State) : State :=
  { emitAll P (rampDownSamples P s) s with draws := if rampDownDivisor s = 0 then s.draws + 1 else s.draws }

/-- EXEC_RUN up to EXEC_END (R129): the six segments in order. -/
def execRun (P : Params) (s : State) : State :=
  let s := { s with n := 0, seg := .rampUp }
  let s := { rampUp P s with seg := .phasing }
  let s := { phasing P s with seg := .sync }
  let s := { syncOut P s with seg := .header }
  let s := { hdrOut P (hdrModulate P (hdrEncode P s)) with seg := .payload }
  let s := { payOut P (payModulate P (repack P s)) with seg := .rampDown }
  { rampDown P s with seg := .idle }

/-- EXEC_END (R136): record the count and check it against the geometry (R263). -/
def execEnd (s : State) : State :=
  let s := { s with outCount := BitVec.ofNat 32 s.n }
  if s.n = s.geoFrameLen.toNat then raise .ok s
  else raise .internalFault { s with faultExp := s.geoFrameLen, faultCnt := BitVec.ofNat 32 s.n, fault := true }

/-- EXEC (R127-R136). -/
def runFrame (P : Params) (s : State) : State :=
  if s.fault then raise .faulted s
  else if !s.created then raise .notCreated s
  else if s.outCap.toNat < s.geoFrameLen.toNat then raise .capacityError s
  else execEnd (execRun P (execCapture P s))

/-! ### DESTROY -/

/-- DESTROY (R137). -/
def destroy (P : Params) (s : State) : State :=
  if s.fault then raise .faulted s
  else if !s.created then raise .notCreated s
  else
    raise .ok
      { unspecifyInstance P s with
        live := Cfg.zero
        geoNsym := 0#32
        geoFrameLen := 0#32
        allocPay := 0#32
        allocSym := 0#32
        allocSmp := 0#32
        created := false }

/-! ### The meanings -/

/-- CREATE and CREATE.S (R123). -/
def execCreate (staged : Bool) (s : State) : Host.Outcome State Fault Refusal := .next (create Config.params staged s)

/-- SETCFG (R124). -/
def execSetcfg (s : State) : Host.Outcome State Fault Refusal := .next (setcfg Config.params s)

/-- EXEC (R127-R136). -/
def execExec (s : State) : Host.Outcome State Fault Refusal := .next (runFrame Config.params s)

/-- DESTROY (R137). -/
def execDestroy (s : State) : Host.Outcome State Fault Refusal := .next (destroy Config.params s)

/-- A reserved command word (R95, R266): BAD_COMMAND, whatever else holds (R268), and no other change. -/
def execReserved (_w : Word) (s : State) : Host.Outcome State Fault Refusal := .next (raise .badCommand s)

end Sys2Proof.Machine
end

