-- ==== Sys2Proof/Machine/Query.lean ====
section
/-! DEFINITION. The two query operations (30_encoding.md R96; 40_frame_assembler.md R125, R126): reads, without a side
effect, never an error (R261). -/

namespace Sys2Proof.Machine

/-- GETCFG (R125): the five live configuration registers, returned in the order the host reads them. -/
def getcfg (order : List CfgReg) (s : State) : State := s.respond (order.map fun r => csrRead s r.csr)

/-- FRAMELEN (R126): GEO_FRAMELEN. -/
def framelen (s : State) : State := s.respond [s.geoFrameLen]

/-- GETCFG (R125). -/
def execGetcfg (order : List CfgReg) (s : State) : Host.Outcome State Fault Refusal := .next (getcfg order s)

/-- FRAMELEN (R126). -/
def execFramelen (s : State) : Host.Outcome State Fault Refusal := .next (framelen s)

end Sys2Proof.Machine
end

