-- ==== Sys2Proof/Machine/Dispatch.lean ====
section
/-! DEFINITION. Which meaning each operation of spec/opcode_table.json has. -/

namespace Sys2Proof.Machine

def exec (i : Instr) (s : State) : Host.Outcome State Fault Refusal :=
  match i with
  | .create staged => Sys2Proof.Machine.execCreate staged s
  | .setcfg => Sys2Proof.Machine.execSetcfg s
  | .exec => Sys2Proof.Machine.execExec s
  | .destroy => Sys2Proof.Machine.execDestroy s
  | .getcfg order => Sys2Proof.Machine.execGetcfg order s
  | .framelen => Sys2Proof.Machine.execFramelen s
  | .reserved w => Sys2Proof.Machine.execReserved w s

end Sys2Proof.Machine
end

