-- ==== Sys2Proof/Machine/Step.lean ====
section
/-! DEFINITION. One step: the block takes the next host operation or access (R20, R71), or waits when there is none (R291). -/

namespace Sys2Proof.Machine

/-- The block takes the operation at the front of the host's accesses and runs it whole (R70), or else takes the first
access as a data access; with no access pending it waits. An access while BUSY reads 1 is refused (R292). -/
def step (s : State) : Host.Outcome State Fault Refusal :=
  match s.pending with
  | [] => .next s
  | ev :: rest =>
    if s.busy && !allowedWhileBusy ev then .refused .accessWhileBusy
    else
      match decode (ev :: rest) with
      | .ok (i, rest') => exec i { s with pending := rest' }
      | .error _ => access Config.params ev { s with pending := rest }

/-- `s` with the host's write of a command word as its next access, so that the next step runs it (log entry 17). -/
def State.withFetchWord (s : State) (nbits w : Nat) : State := withCommandWrite s (tableWord nbits w)

end Sys2Proof.Machine
end

