-- ==== Sys2Proof/Machine/Defaults.lean ====
section
/-! DEFINITION. The default functions the spec offers for parameters the source leaves open, each from general knowledge
(93_implementation_defined.md, G1, G4-G6). The machine of `exec` does not assume them (log entry 1); a statement about
them names them. -/

namespace Sys2Proof.Machine

/-- The default PN_TAPS (R170, G1). -/
def defaultPnTaps : BitVec 6 := 0x21#6

/-- The default PN_SEED (R170, G1). -/
def defaultPnSeed : BitVec 6 := 0x01#6

/-- One bit of the CRC-32 register (R191, G4). -/
def crc32Bit (c : Word) : Word := if c.getLsbD 0 then (c >>> 1) ^^^ 0xEDB88320#32 else c >>> 1

/-- One byte of the CRC-32 register (R191, G4). -/
def crc32Byte (c : Word) (b : Byte) : Word := Nat.repeat crc32Bit 8 (c ^^^ b.setWidth 32)

/-- CRC-32, the default CHECKSUM32 (R191, G4). -/
def crc32 (bytes : List Byte) : Word := bytes.foldl crc32Byte 0xFFFFFFFF#32 ^^^ 0xFFFFFFFF#32

/-- The default scrambler's mask M (R192, G5). -/
def scrambleMask (i : Nat) : Byte := [0xB4#8, 0x6A#8, 0x8B#8, 0xE5#8].getD (i % 4) 0#8

/-- The default SCRAMBLE (R192, G5). -/
def defaultScramble (x : List Byte) : List Byte := x.mapIdx fun i b => b ^^^ scrambleMask i

/-- The default HDR_MAP (R196, G6). -/
def defaultHdrMap (bit : Bool) : Sample := ⟨if bit then f32NegOne else f32One, f32Zero⟩

end Sys2Proof.Machine
end

