-- ==== Sys2Proof/Safety.lean ====
section
/-! DEFINITION. What counts as a good state and a good run, in the terms the claims use (10_state.md section 9,
44_buffer_manager.md R242, 70_reset_and_hazards.md R296). -/

namespace Sys2Proof.Machine

/-! ### Predicates of one state -/

/-- The listed bytes of the windows are in canonical form. -/
def MemCanonical (P : Params) (s : State) : Prop := Memory.wf (s.unlisted P) s.mem = true

/-- An address of the PIN or OUT window (R60). -/
def InDataWindow (a : Nat) : Prop :=
  (0x00010000 ≤ a ∧ a ≤ 0x0001FFFF) ∨ (0x01000000 ≤ a ∧ a ≤ 0x01000000 + 8 * 1048576 - 1)

/-- GEO_NSYM and GEO_FRAMELEN are the geometry of the live configuration (R51). -/
def GeometryMatches (s : State) : Prop :=
  s.geoNsym.toNat = nsymOf s.live ∧ s.geoFrameLen.toNat = frameLenOf s.live

/-- The allocated sizes are the required ones (R242). -/
def CapacityExact (s : State) : Prop :=
  s.allocPay.toNat = s.live.payLen.toNat ∧ s.allocSym = s.geoNsym ∧ s.allocSmp = s.geoNsym

/-- What R49 to R51, R45 and R242 say while an instance exists. -/
structure InstanceGood (P : Params) (s : State) : Prop where
  /-- R50. -/
  validLive : 1 ≤ s.live.depth.toNat ∧ P.modSupported s.live.scheme s.live.depth = true
  /-- R51. -/
  geometry : GeometryMatches s
  /-- R242. -/
  capacity : CapacityExact s
  /-- R49. -/
  modSel : s.modSel = ⟨s.live.scheme, s.live.depth⟩
  /-- R45, R172. -/
  pnSeq : s.pnSeq = pnBits P.pnTaps P.pnSeed 64
  /-- Only the usable part of each buffer has been written (R48). -/
  buffers : s.payBuf.cells.length ≤ s.allocPay.toNat ∧ s.paySym.cells.length ≤ s.allocSym.toNat ∧
    s.paySmp.cells.length ≤ s.allocSmp.toNat

/-- What holds while no instance exists: the live registers and the geometry are 0 (R29-R35, R137), and no buffer entry
has been written since it became unspecified (R48). -/
structure NoInstance (s : State) : Prop where
  live : s.live = Cfg.zero
  geometry : s.geoNsym = 0#32 ∧ s.geoFrameLen = 0#32
  buffers : s.payBuf.cells = [] ∧ s.paySym.cells = [] ∧ s.paySmp.cells = []

/-- The machine's invariant: it holds after reset and every step keeps it. -/
structure Inv (P : Params) (s : State) : Prop where
  instanceGood : s.created = true → InstanceGood P s
  noInstance : s.created = false → NoInstance s
  /-- The internal consistency fault never fires (R136, R263). -/
  noFault : s.fault = false ∧ s.lastErr ≠ .internalFault ∧ s.lastErr ≠ .faulted
  /-- Between commands BUSY reads 0 and the sequencer is idle (R22, R47). -/
  quiet : s.busy = false ∧ s.seg = .idle
  /-- OUT_CAP holds a legal value (R40). -/
  outCap : s.outCap.toNat ≤ 1048576
  /-- The fixed-size arrays have their sizes (R45, R46). -/
  arrays : s.pnSeq.length = 64 ∧ s.hdrRaw.length = 15 ∧ s.hdrEnc.length = 32 ∧ s.hdrSym.length = 256
  canonical : MemCanonical P s
  /-- Only bytes of PIN and OUT are listed (R60). -/
  windows : ∀ c ∈ s.mem, InDataWindow c.1

/-- EXEC executes normally: an instance exists, its geometry matches, the output buffer is large enough and no fault
has been raised (R127). -/
structure ExecReady (s : State) : Prop where
  noFault : s.fault = false
  created : s.created = true
  geometry : GeometryMatches s
  capacity : s.geoFrameLen.toNat ≤ s.outCap.toNat

/-- `x` is the binary32 product of sgn(k) and `a` (R10, R11): `a` with its sign bit kept or changed when `a` is a
number, some NaN when `a` is a NaN. -/
def IsSignTimes (P : Params) (k : Nat) (a x : F32) : Prop :=
  (isNaN a = false → x = if decide (k % 2 = 0) == P.evenNegative then a ^^^ 0x80000000#32 else a) ∧
  (isNaN a = true → isNaN x = true)

/-- The values the table of R290 gives. What it calls unspecified is drawn anew: the numbers of the draws lie below
`draws` and, for a reset after `k` draws, not below `k` (log entries 4, 9). -/
structure IsResetState (P : Params) (k : Nat) (s : State) : Prop where
  status : s.created = false ∧ s.fault = false ∧ s.busy = false ∧ s.lastErr = .ok
  ctrl : s.rdDivSel = false
  staged : s.staged = ⟨16#16, 16#16, 0#16, P.schemeBpsk, 1#4, 16#16⟩
  live : s.live = ⟨0#16, 0#16, 0#16, 0#4, 0#4, 0#16⟩
  geometry : s.geoNsym = 0#32 ∧ s.geoFrameLen = 0#32
  alloc : s.allocPay = P.minAlloc ∧ s.allocSym = P.minAlloc ∧ s.allocSmp = P.minAlloc ∧ s.resizeCnt = 0#32
  execution : s.outCap = 0#32 ∧ s.outCount = 0#32 ∧ s.faultExp = 0#32 ∧ s.faultCnt = 0#32
  header : s.hdrIn0 = 0#32 ∧ s.hdrIn1 = 0#32
  sequencer : s.seg = .idle ∧ s.n = 0
  unwritten : s.mem = [] ∧ s.payBuf.cells = [] ∧ s.paySym.cells = [] ∧ s.paySmp.cells = []
  drawn : k ≤ s.memDraw ∧ s.memDraw < s.draws ∧ k ≤ s.payBuf.draw ∧ s.payBuf.draw < s.draws ∧
    k ≤ s.paySym.draw ∧ s.paySym.draw < s.draws ∧ k ≤ s.paySmp.draw ∧ s.paySmp.draw < s.draws

/-! ### Runs -/

/-- `t` follows from `s` by some number of steps. -/
inductive Reaches : State → State → Prop where
  | refl (s : State) : Reaches s s
  | tail {s t u : State} : Reaches s t → step t = .next u → Reaches s u

/-- A host program ends well (R296): every access was taken, none was refused, and FAULT = 0 at the end. -/
def EndsWell (s t : State) : Prop := Reaches s t ∧ t.pending = [] ∧ t.fault = false

end Sys2Proof.Machine
end

