-- ==== Sys2Proof/Certificates/Slice0/Obligations.lean ====
section
/-! DEFINITION. The statements for the provers: each says what a rule of spec/ says of the machine. A statement about
the machine is about the parameters `Config.params`, which are open (log entry 1). -/

open Sys2Proof Sys2Proof.Machine

/-! ### Encoding -/

/-- The words of table 2.1 of 95_test_vectors.md, and the two queries of R96, decode to their operations. -/
def Obligations.TableWordsDecode : Prop :=
  decodeTableWord 32 0x00000001 = some (.create false) ∧
  decodeTableWord 32 0x00000101 = some (.create true) ∧
  decodeTableWord 32 0x00000002 = some .setcfg ∧
  decodeTableWord 32 0x00000003 = some .exec ∧
  decodeTableWord 32 0x00000004 = some .destroy ∧
  decodeTableWord 32 0x00000000 = some (.reserved 0x00000000#32) ∧
  decodeTableWord 32 0x0000000F = some (.reserved 0x0000000F#32) ∧
  decodeTableWord 32 0x00000103 = some (.reserved 0x00000103#32) ∧
  decodeTableWord 32 0x00000011 = some (.reserved 0x00000011#32) ∧
  decodeTableWord 32 0x00000201 = some (.reserved 0x00000201#32) ∧
  decodeTableWord 32 0x80000001 = some (.reserved 0x80000001#32) ∧
  decodeTableWord 32 0xFFFFFFFF = some (.reserved 0xFFFFFFFF#32) ∧
  decode [.read .b32 0x054#32] = .ok (.framelen, []) ∧
  decode [.read .b32 0x040#32, .read .b32 0x030#32, .read .b32 0x034#32, .read .b32 0x03C#32, .read .b32 0x038#32]
    = .ok (.getcfg [.rampdn, .rampup, .phasing, .mod, .paylen], [])

/-- R94: exactly five words decode to a command, each to its own; every other word is reserved. -/
def Obligations.ExactlyFiveWordsDecodeToACommand : Prop :=
  ∀ w : Word,
    (w = 0x00000001#32 → decodeCommand w = .create false) ∧
    (w = 0x00000101#32 → decodeCommand w = .create true) ∧
    (w = 0x00000002#32 → decodeCommand w = .setcfg) ∧
    (w = 0x00000003#32 → decodeCommand w = .exec) ∧
    (w = 0x00000004#32 → decodeCommand w = .destroy) ∧
    (w ∉ [0x00000001#32, 0x00000101#32, 0x00000002#32, 0x00000003#32, 0x00000004#32] →
      decodeCommand w = .reserved w)

/-- Decoding the accesses that encode a well-formed operation, whatever follows them, gives it back (R94, R96). -/
def Obligations.DecodeOfEncodeIsTheOperation : Prop :=
  ∀ (i : Instr) (rest : List HostEvent), i.wellFormed = true → decode (encode i ++ rest) = .ok (i, rest)

/-- What decodes to an operation is the encoding of that well-formed operation and nothing more (R94, R96). -/
def Obligations.DecodedOperationIsItsEncoding : Prop :=
  ∀ (evs : List HostEvent) (i : Instr) (rest : List HostEvent),
    decode evs = .ok (i, rest) → i.wellFormed = true ∧ evs = encode i ++ rest

/-! ### Steps and host accesses -/

/-- A step runs the operation whose accesses come first, with them taken (R20, R70); with no access pending the block
waits (R291). The list of accesses is the model's (log entry 5), and so is that one step takes the five reads of a GETCFG
whole (log entry 6); R96 makes them five accesses. -/
def Obligations.StepRunsTheDecodedOperation : Prop :=
  ∀ s : State,
    (∀ (i : Instr) (rest : List HostEvent), i.wellFormed = true → s.busy = false → s.pending = encode i ++ rest →
      step s = exec i { s with pending := rest }) ∧
    (s.pending = [] → step s = .next s)

/-- R64 and the admitted accesses of 20_memory.md: an access outside every window, of a wrong width or misaligned, is
refused by name; an admitted one has a next state. The names, and which is given where two apply, are the model's
(log entry 27). -/
def Obligations.ProtocolViolationsAreRefusedByName : Prop :=
  ∀ (s : State) (ev : HostEvent) (rest : List HostEvent) (width : Width) (addr : Word),
    s.busy = false → s.pending = ev :: rest →
    (ev = .read width addr ∨ ∃ v, ev = .write width addr v) →
    (addr.toNat ≤ 0x00000FFF →
      (width ≠ .b32 → step s = .refused (.accessWidth width addr)) ∧
      (width = .b32 → addr.toNat % 4 ≠ 0 → step s = .refused (.misaligned addr)) ∧
      (width = .b32 → addr.toNat % 4 = 0 → ∃ t, step s = .next t)) ∧
    (0x00010000 ≤ addr.toNat ∧ addr.toNat ≤ 0x0001FFFF →
      (width ≠ .b8 → step s = .refused (.accessWidth width addr)) ∧
      (width = .b8 → ∃ t, step s = .next t)) ∧
    (0x01000000 ≤ addr.toNat ∧ addr.toNat ≤ 0x01000000 + 8 * 1048576 - 1 →
      (width ≠ .b32 → step s = .refused (.accessWidth width addr)) ∧
      (width = .b32 → addr.toNat % 4 ≠ 0 → step s = .refused (.misaligned addr)) ∧
      (width = .b32 → addr.toNat % 4 = 0 → ∃ t, step s = .next t)) ∧
    ((0x00001000 ≤ addr.toNat ∧ addr.toNat ≤ 0x0000FFFF) ∨ (0x00020000 ≤ addr.toNat ∧ addr.toNat ≤ 0x00FFFFFF) ∨
        0x01000000 + 8 * 1048576 ≤ addr.toNat →
      step s = .refused (.outsideEveryWindow addr))

/-- R292 item 2: while BUSY = 1 every access but a read of STATUS is refused; the name is the model's (log entries 10,
27). -/
def Obligations.BusyBlockRefusesAccesses : Prop :=
  ∀ (s : State) (ev : HostEvent) (rest : List HostEvent),
    s.busy = true → s.pending = ev :: rest → ev ≠ .read .b32 0x004#32 → ev ≠ .reset →
    step s = .refused .accessWhileBusy

/-- A write to a read-write register stores the value without its reserved bits, OUT_CAP as min(v, OUT_MAX), and nothing
else changes; a read that follows returns what was stored (R23-R28, R40, R44, R69). -/
def Obligations.WritableRegistersReadBack : Prop :=
  ∀ (s : State) (rest : List HostEvent) (off : Word) (v r : Word) (s' : State),
    s.busy = false →
    s.pending = .write .b32 off v :: rest →
    (off, r, s') ∈ [
      (0x008#32, v &&& 0x00000001#32, { s with rdDivSel := v.getLsbD 0 }),
      (0x010#32, v &&& 0x0000FFFF#32, { s with staged := { s.staged with rampUp := v.setWidth 16 } }),
      (0x014#32, v &&& 0x0000FFFF#32, { s with staged := { s.staged with phasing := v.setWidth 16 } }),
      (0x018#32, v &&& 0x0000FFFF#32, { s with staged := { s.staged with payLen := v.setWidth 16 } }),
      (0x01C#32, v &&& 0x000000FF#32,
        { s with staged := { s.staged with scheme := v.extractLsb' 4 4, depth := v.extractLsb' 0 4 } }),
      (0x020#32, v &&& 0x0000FFFF#32, { s with staged := { s.staged with rampDown := v.setWidth 16 } }),
      (0x070#32, BitVec.ofNat 32 (min v.toNat 1048576), { s with outCap := BitVec.ofNat 32 (min v.toNat 1048576) }),
      (0x080#32, v, { s with hdrIn0 := v }),
      (0x084#32, v, { s with hdrIn1 := v })] →
    step s = .next { s' with pending := rest } ∧
    ∀ rest', rest = .read .b32 off :: rest' →
      step { s' with pending := rest } = .next { s' with pending := rest', responses := s.responses ++ [r] }

/-- R52: a reserved offset reads 0; a write to it or to a read-only register has no effect. -/
def Obligations.ReservedAndReadOnlyOffsetsIgnoreWrites : Prop :=
  ∀ (s : State) (rest : List HostEvent) (off : Nat) (v : Word),
    s.busy = false → off ≤ 0xFFF → off % 4 = 0 →
    (off ∉ [0x000, 0x004, 0x008, 0x010, 0x014, 0x018, 0x01C, 0x020, 0x030, 0x034, 0x038, 0x03C, 0x040, 0x050, 0x054,
        0x060, 0x064, 0x068, 0x06C, 0x070, 0x074, 0x078, 0x07C, 0x080, 0x084] →
      (s.pending = .read .b32 (BitVec.ofNat 32 off) :: rest →
        step s = .next { s with pending := rest, responses := s.responses ++ [0#32] }) ∧
      (s.pending = .write .b32 (BitVec.ofNat 32 off) v :: rest → step s = .next { s with pending := rest })) ∧
    (off ∈ [0x004, 0x030, 0x034, 0x038, 0x03C, 0x040, 0x050, 0x054, 0x060, 0x064, 0x068, 0x06C, 0x074, 0x078, 0x07C] →
      s.pending = .write .b32 (BitVec.ofNat 32 off) v :: rest → step s = .next { s with pending := rest })

/-- R22: a read of STATUS returns its fields, at any time, and changes nothing. -/
def Obligations.StatusReadsItsFields : Prop :=
  ∀ (s : State) (rest : List HostEvent), s.pending = .read .b32 0x004#32 :: rest →
    ∃ w : Word, step s = .next { s with pending := rest, responses := s.responses ++ [w] } ∧
      w.getLsbD 0 = s.created ∧ w.getLsbD 1 = s.fault ∧ w.getLsbD 2 = s.busy ∧ w.getLsbD 3 = false ∧
      (w >>> 4) &&& 0xF#32 = (match s.lastErr with
        | .ok => 0#32
        | .configError => 1#32
        | .capacityError => 2#32
        | .internalFault => 3#32
        | .notCreated => 4#32
        | .alreadyCreated => 5#32
        | .badCommand => 6#32
        | .faulted => 7#32) ∧
      w >>> 8 = 0#32

/-- A read of a read-only register, or of CMD, returns the register and changes nothing, whatever accesses follow
(R21, R29-R43, R69). The read of a CFG register is one that begins no GETCFG, which the model takes whole (log entry 6):
`StepRunsTheDecodedOperation` and `GetcfgReturnsTheLiveConfiguration` say what a GETCFG does. -/
def Obligations.ReadOnlyRegistersRead : Prop :=
  ∀ (s : State) (rest : List HostEvent) (off v : Word), s.busy = false → s.pending = .read .b32 off :: rest →
    (off ∈ [0x030#32, 0x034#32, 0x038#32, 0x03C#32, 0x040#32] → decodeGetcfg s.pending = none) →
    (off, v) ∈ [
      (0x000#32, 0#32),
      (0x030#32, s.live.rampUp.setWidth 32), (0x034#32, s.live.phasing.setWidth 32),
      (0x038#32, s.live.payLen.setWidth 32),
      (0x03C#32, (s.live.scheme.setWidth 32 <<< 4) ||| s.live.depth.setWidth 32),
      (0x040#32, s.live.rampDown.setWidth 32), (0x050#32, s.geoNsym), (0x054#32, s.geoFrameLen),
      (0x060#32, s.allocPay), (0x064#32, s.allocSym), (0x068#32, s.allocSmp), (0x06C#32, s.resizeCnt),
      (0x074#32, s.outCount), (0x078#32, s.faultExp), (0x07C#32, s.faultCnt)] →
    step s = .next { s with pending := rest, responses := s.responses ++ [v] }

/-- A read of a read-write register returns it, with zeros at its reserved bits, and changes nothing, whatever accesses
came before or follow (R23-R28, R40, R44, R69). -/
def Obligations.ReadWriteRegistersRead : Prop :=
  ∀ (s : State) (rest : List HostEvent) (off v : Word), s.busy = false → s.pending = .read .b32 off :: rest →
    (off, v) ∈ [
      (0x008#32, if s.rdDivSel then 1#32 else 0#32),
      (0x010#32, s.staged.rampUp.setWidth 32), (0x014#32, s.staged.phasing.setWidth 32),
      (0x018#32, s.staged.payLen.setWidth 32),
      (0x01C#32, (s.staged.scheme.setWidth 32 <<< 4) ||| s.staged.depth.setWidth 32),
      (0x020#32, s.staged.rampDown.setWidth 32), (0x070#32, s.outCap), (0x080#32, s.hdrIn0), (0x084#32, s.hdrIn1)] →
    step s = .next { s with pending := rest, responses := s.responses ++ [v] }

/-- A read of PIN[j] returns the byte it holds, whatever wrote it or nothing, and changes nothing; a write stores one, and
no other byte of the windows and no other state changes; a read that follows the write returns the byte written (R62, R69,
R71). That the byte is the low byte of a data word is the model's choice (log entry 26). -/
def Obligations.PinByteReadsBack : Prop :=
  ∀ (s : State) (rest : List HostEvent) (j : Nat) (addr : Word), s.busy = false → j ≤ 65535 →
    addr = BitVec.ofNat 32 (0x00010000 + j) →
    (s.pending = .read .b8 addr :: rest →
      step s = .next { s with pending := rest, responses := s.responses ++ [(s.pin Config.params j).setWidth 32] }) ∧
    (∀ v, MemCanonical Config.params s → s.pending = .write .b8 addr v :: rest →
      ∃ t, step s = .next t ∧ t = { s with pending := rest, mem := t.mem } ∧
        t.pin Config.params j = v.setWidth 8 ∧
        (∀ a, a ≠ 0x00010000 + j → t.byteAt Config.params a = s.byteAt Config.params a) ∧
        ∀ rest', rest = .read .b8 addr :: rest' →
          step t = .next { t with pending := rest', responses := s.responses ++ [v &&& 0xFF#32] })

/-- A read of either half of OUT[k] returns the word it holds, whether the host, an EXEC or nothing wrote it, and changes
nothing; a write stores one, and no byte outside it and no other state changes; a read that follows the write returns the
word written (R63, R69, R71). -/
def Obligations.OutWordReadsBack : Prop :=
  ∀ (s : State) (rest : List HostEvent) (k : Nat) (imaginary : Bool) (a : Nat), s.busy = false → k < 1048576 →
    a = 0x01000000 + 8 * k + (if imaginary then 4 else 0) →
    (s.pending = .read .b32 (BitVec.ofNat 32 a) :: rest →
      step s = .next { s with
        pending := rest
        responses := s.responses ++
          [if imaginary then (s.out Config.params k).im else (s.out Config.params k).re] }) ∧
    (∀ v, MemCanonical Config.params s → s.pending = .write .b32 (BitVec.ofNat 32 a) v :: rest →
      ∃ t, step s = .next t ∧ t = { s with pending := rest, mem := t.mem } ∧
        t.out Config.params k
          = (if imaginary then ⟨(s.out Config.params k).re, v⟩ else ⟨v, (s.out Config.params k).im⟩) ∧
        (∀ b, b < a ∨ a + 4 ≤ b → t.byteAt Config.params b = s.byteAt Config.params b) ∧
        ∀ rest', rest = .read .b32 (BitVec.ofNat 32 a) :: rest' →
          step t = .next { t with pending := rest', responses := s.responses ++ [v] })

/-- No access but a command word written to CMD, and reset, changes LAST_ERR, CREATED or FAULT (R53, R270). -/
def Obligations.OnlyCommandWordsChangeStatus : Prop :=
  ∀ (s t : State) (ev : HostEvent) (rest : List HostEvent),
    s.pending = ev :: rest → ev ≠ .reset → (∀ w, ev ≠ .write .b32 0x000#32 w) → step s = .next t →
    t.lastErr = s.lastErr ∧ t.created = s.created ∧ t.fault = s.fault

/-! ### Reset -/

/-- R290: the state after reset; how its draws are numbered is the model's choice (log entries 3, 4, 9). -/
def Obligations.ResetStateHasTheResetValues : Prop :=
  IsResetState Config.params 0 State.reset ∧ State.reset.pending = [] ∧ State.reset.responses = []

/-- R290, R291: the reset input, at any time, puts the block in the state of R290; what the host has yet to issue and
what it has read stay. That the values R290 leaves unspecified are draws numbered from `s.draws` up, and that PIN and OUT
have one draw for their bytes, is the model's choice (log entries 3, 4, 9). -/
def Obligations.ResetInputRestoresTheResetState : Prop :=
  ∀ (s : State) (rest : List HostEvent), s.pending = .reset :: rest →
    ∃ t, step s = .next t ∧ IsResetState Config.params s.draws t ∧ t.pending = rest ∧ t.responses = s.responses

/-- R267, R291: no step but reset clears STATUS.FAULT. -/
def Obligations.OnlyResetClearsFault : Prop :=
  ∀ s t : State, step s = .next t → s.fault = true → t.fault = false → ∃ rest, s.pending = .reset :: rest

/-! ### CREATE, SETCFG, DESTROY -/

/-- R123: CREATE. -/
def Obligations.CreateBuildsTheInstance : Prop :=
  ∀ (staged : Bool) (s : State) (cfg : Cfg),
    cfg = (if staged then s.staged else ⟨16#16, 16#16, 0#16, Config.params.schemeBpsk, 1#4, 16#16⟩) →
    (s.fault = true → exec (.create staged) s = .next { s with lastErr := .faulted }) ∧
    (s.fault = false → s.created = true → exec (.create staged) s = .next { s with lastErr := .alreadyCreated }) ∧
    (s.fault = false → s.created = false →
      ¬ (1 ≤ cfg.depth.toNat ∧ Config.params.modSupported cfg.scheme cfg.depth = true) →
      exec (.create staged) s = .next { s with lastErr := .configError }) ∧
    (s.fault = false → s.created = false → 1 ≤ cfg.depth.toNat →
      Config.params.modSupported cfg.scheme cfg.depth = true →
      ∃ t, exec (.create staged) s = .next t ∧
        t.created = true ∧ t.lastErr = .ok ∧ t.live = cfg ∧ t.modSel = ⟨cfg.scheme, cfg.depth⟩ ∧
        t.geoNsym.toNat = (8 * cfg.payLen.toNat + cfg.depth.toNat - 1) / cfg.depth.toNat ∧
        t.geoFrameLen.toNat = cfg.rampUp.toNat + cfg.phasing.toNat + 64 + 256
          + (8 * cfg.payLen.toNat + cfg.depth.toNat - 1) / cfg.depth.toNat + cfg.rampDown.toNat ∧
        t.allocPay.toNat = cfg.payLen.toNat ∧ t.allocSym = t.geoNsym ∧ t.allocSmp = t.geoNsym ∧
        t.resizeCnt.toNat = (if Config.params.minAlloc.toNat = cfg.payLen.toNat then 0 else 1)
          + (if Config.params.minAlloc = t.geoNsym then 0 else 2) ∧
        t.pnSeq = (List.range 64).map (fun k =>
          pnBit Config.params.pnTaps (pnState Config.params.pnTaps Config.params.pnSeed k)) ∧
        t.lfsr = pnState Config.params.pnTaps Config.params.pnSeed 64 ∧
        t = { s with
          created := true, lastErr := .ok, live := t.live, modSel := t.modSel, geoNsym := t.geoNsym,
          geoFrameLen := t.geoFrameLen, allocPay := t.allocPay, allocSym := t.allocSym, allocSmp := t.allocSmp,
          resizeCnt := t.resizeCnt, pnSeq := t.pnSeq, lfsr := t.lfsr, payBuf := t.payBuf, paySym := t.paySym,
          paySmp := t.paySmp, draws := t.draws })

/-- R120, R262: CREATE with S = 0 cannot report CONFIG_ERROR; on a block without an instance and without a fault it
succeeds and gives a frame of 368 samples. -/
def Obligations.DefaultCreateSucceeds : Prop :=
  ∀ s : State, s.fault = false → s.created = false →
    ∃ t, exec (.create false) s = .next t ∧ t.lastErr = .ok ∧ t.created = true ∧ t.geoNsym = 0#32 ∧
      t.geoFrameLen = 368#32 ∧ t.allocPay = 0#32 ∧ t.allocSym = 0#32 ∧ t.allocSmp = 0#32 ∧
      t.resizeCnt = (if Config.params.minAlloc = 0#32 then 0#32 else 3#32)

/-- R124: SETCFG. -/
def Obligations.SetcfgReplacesTheConfiguration : Prop :=
  ∀ s : State,
    (s.fault = true → exec .setcfg s = .next { s with lastErr := .faulted }) ∧
    (s.fault = false → s.created = false → exec .setcfg s = .next { s with lastErr := .notCreated }) ∧
    (s.fault = false → s.created = true →
      ¬ (1 ≤ s.staged.depth.toNat ∧ Config.params.modSupported s.staged.scheme s.staged.depth = true) →
      exec .setcfg s = .next { s with lastErr := .configError }) ∧
    (s.fault = false → s.created = true → 1 ≤ s.staged.depth.toNat →
      Config.params.modSupported s.staged.scheme s.staged.depth = true →
      ∃ t, exec .setcfg s = .next t ∧
        t.lastErr = .ok ∧ t.live = s.staged ∧ t.modSel = ⟨s.staged.scheme, s.staged.depth⟩ ∧
        t.geoNsym.toNat = (8 * s.staged.payLen.toNat + s.staged.depth.toNat - 1) / s.staged.depth.toNat ∧
        t.geoFrameLen.toNat = s.staged.rampUp.toNat + s.staged.phasing.toNat + 64 + 256
          + (8 * s.staged.payLen.toNat + s.staged.depth.toNat - 1) / s.staged.depth.toNat
          + s.staged.rampDown.toNat ∧
        t.allocPay.toNat = s.staged.payLen.toNat ∧ t.allocSym = t.geoNsym ∧ t.allocSmp = t.geoNsym ∧
        t.resizeCnt.toNat = (s.resizeCnt.toNat + (if s.allocPay = t.allocPay then 0 else 1)
          + (if s.allocSym = t.allocSym then 0 else 1) + (if s.allocSmp = t.allocSmp then 0 else 1)) % 2 ^ 32 ∧
        t = { s with
          lastErr := .ok, live := t.live, modSel := t.modSel, geoNsym := t.geoNsym, geoFrameLen := t.geoFrameLen,
          allocPay := t.allocPay, allocSym := t.allocSym, allocSmp := t.allocSmp, resizeCnt := t.resizeCnt,
          payBuf := t.payBuf, paySym := t.paySym, paySmp := t.paySmp, draws := t.draws })

/-- R241, R243: a successful SETCFG reallocates a buffer exactly when its recorded size differs from the required one;
RESIZE_CNT counts the reallocations modulo 2^32, a reallocated buffer's contents are a new draw, and a buffer not
reallocated keeps its contents. How draws are numbered is the model's choice (log entries 3, 19). -/
def Obligations.BuffersAreReallocatedOnlyOnMismatch : Prop :=
  ∀ s : State, s.fault = false → s.created = true → 1 ≤ s.staged.depth.toNat →
    Config.params.modSupported s.staged.scheme s.staged.depth = true →
    ∃ t, exec .setcfg s = .next t ∧
      t.resizeCnt.toNat = (s.resizeCnt.toNat + (if s.allocPay = t.allocPay then 0 else 1)
        + (if s.allocSym = t.allocSym then 0 else 1) + (if s.allocSmp = t.allocSmp then 0 else 1)) % 2 ^ 32 ∧
      (s.allocPay = t.allocPay → t.payBuf = s.payBuf) ∧
      (s.allocSym = t.allocSym → t.paySym = s.paySym) ∧
      (s.allocSmp = t.allocSmp → t.paySmp = s.paySmp) ∧
      (s.allocPay ≠ t.allocPay → t.payBuf.cells = [] ∧ s.draws ≤ t.payBuf.draw ∧ t.payBuf.draw < t.draws) ∧
      (s.allocSym ≠ t.allocSym → t.paySym.cells = [] ∧ s.draws ≤ t.paySym.draw ∧ t.paySym.draw < t.draws) ∧
      (s.allocSmp ≠ t.allocSmp → t.paySmp.cells = [] ∧ s.draws ≤ t.paySmp.draw ∧ t.paySmp.draw < t.draws)

/-- R241, R243, R123: the ENSURE_CAPACITY of a successful CREATE compares each required size with MIN_ALLOC, to which
CREATE has set every recorded one; a reallocated buffer's contents are a new draw, and a buffer not reallocated keeps its
contents. How draws are numbered is the model's choice (log entries 3, 19). -/
def Obligations.CreateReallocatesBuffersOnlyOnMismatch : Prop :=
  ∀ (staged : Bool) (s : State) (cfg : Cfg),
    cfg = (if staged then s.staged else ⟨16#16, 16#16, 0#16, Config.params.schemeBpsk, 1#4, 16#16⟩) →
    s.fault = false → s.created = false → 1 ≤ cfg.depth.toNat →
    Config.params.modSupported cfg.scheme cfg.depth = true →
    ∃ t, exec (.create staged) s = .next t ∧
      (Config.params.minAlloc = t.allocPay → t.payBuf = s.payBuf) ∧
      (Config.params.minAlloc = t.allocSym → t.paySym = s.paySym) ∧
      (Config.params.minAlloc = t.allocSmp → t.paySmp = s.paySmp) ∧
      (Config.params.minAlloc ≠ t.allocPay →
        t.payBuf.cells = [] ∧ s.draws ≤ t.payBuf.draw ∧ t.payBuf.draw < t.draws) ∧
      (Config.params.minAlloc ≠ t.allocSym →
        t.paySym.cells = [] ∧ s.draws ≤ t.paySym.draw ∧ t.paySym.draw < t.draws) ∧
      (Config.params.minAlloc ≠ t.allocSmp →
        t.paySmp.cells = [] ∧ s.draws ≤ t.paySmp.draw ∧ t.paySmp.draw < t.draws)

/-- R244: a SETCFG of the live configuration changes LAST_ERR alone, so a following EXEC starts from the same state
but for it. -/
def Obligations.SetcfgOfTheLiveConfigurationChangesNothing : Prop :=
  ∀ s : State, s.fault = false → s.created = true → InstanceGood Config.params s → s.staged = s.live →
    exec .setcfg s = .next { s with lastErr := .ok }

/-- R137: DESTROY. The rule leaves the payload buffers' contents unspecified; that they hold no written entry afterwards
(`cells = []`) is the model's form of that (log entries 4, 19). -/
def Obligations.DestroyReleasesTheInstance : Prop :=
  ∀ s : State,
    (s.fault = true → exec .destroy s = .next { s with lastErr := .faulted }) ∧
    (s.fault = false → s.created = false → exec .destroy s = .next { s with lastErr := .notCreated }) ∧
    (s.fault = false → s.created = true →
      ∃ t, exec .destroy s = .next t ∧
        t.created = false ∧ t.lastErr = .ok ∧
        t.live = ⟨0#16, 0#16, 0#16, 0#4, 0#4, 0#16⟩ ∧ t.geoNsym = 0#32 ∧ t.geoFrameLen = 0#32 ∧
        t.allocPay = 0#32 ∧ t.allocSym = 0#32 ∧ t.allocSmp = 0#32 ∧
        t.payBuf.cells = [] ∧ t.paySym.cells = [] ∧ t.paySmp.cells = [] ∧
        t = { s with
          created := false, lastErr := .ok, live := t.live, geoNsym := 0#32, geoFrameLen := 0#32, allocPay := 0#32,
          allocSym := 0#32, allocSmp := 0#32, lfsr := t.lfsr, pnSeq := t.pnSeq, modSel := t.modSel,
          hdrRaw := t.hdrRaw, hdrEnc := t.hdrEnc, hdrSym := t.hdrSym, payBuf := t.payBuf, paySym := t.paySym,
          paySmp := t.paySmp, draws := t.draws })

/-! ### EXEC -/

/-- R127: EXEC's checks, in order; OUT_CAP = GEO_FRAMELEN passes. -/
def Obligations.ExecChecksInOrder : Prop :=
  ∀ s : State,
    (s.fault = true → exec .exec s = .next { s with lastErr := .faulted }) ∧
    (s.fault = false → s.created = false → exec .exec s = .next { s with lastErr := .notCreated }) ∧
    (s.fault = false → s.created = true → s.outCap.toNat < s.geoFrameLen.toNat →
      exec .exec s = .next { s with lastErr := .capacityError }) ∧
    (s.fault = false → s.created = true → s.geoFrameLen.toNat ≤ s.outCap.toNat →
      ∃ t, exec .exec s = .next t ∧ (t.lastErr = .ok ∨ t.lastErr = .internalFault))

/-- R136, R129, R295: an EXEC that passes its checks writes GEO_FRAMELEN samples and succeeds; apart from
OUT[0..GEO_FRAMELEN-1] and the working buffers it changes only LAST_ERR, OUT_COUNT, N and SEG. That a zero ramp-down
divisor uses up one draw is the model's choice (log entry 12). -/
def Obligations.ExecCompletesWithItsFrame : Prop :=
  ∀ s : State, ExecReady s →
    ∃ t, exec .exec s = .next t ∧
      t = { s with
        lastErr := .ok, outCount := s.geoFrameLen, n := s.geoFrameLen.toNat, seg := .idle, mem := t.mem,
        hdrRaw := t.hdrRaw, hdrEnc := t.hdrEnc, hdrSym := t.hdrSym, payBuf := t.payBuf, paySym := t.paySym,
        paySmp := t.paySmp,
        draws := if (if s.rdDivSel then s.live.rampDown else s.live.rampUp) = 0#16 then s.draws + 1 else s.draws } ∧
      ∀ a, a < Config.outBase ∨ Config.outBase + 8 * s.geoFrameLen.toNat ≤ a →
        t.byteAt Config.params a = s.byteAt Config.params a

/-- R136, R263: the end check, in every state that passes EXEC's first checks. The second case needs a geometry that
does not match, which no run reaches (`InternalFaultNeverFires`; log entry 16). That OUT_COUNT and FAULT_CNT hold the
count modulo 2^32 is the model's reading (log entry 28); in no reachable state is that another number. -/
def Obligations.ExecEndChecksTheCount : Prop :=
  ∀ (s : State) (count : Nat), s.fault = false → s.created = true → s.geoFrameLen.toNat ≤ s.outCap.toNat →
    count = s.live.rampUp.toNat + s.live.phasing.toNat + 64 + 256 + s.geoNsym.toNat + s.live.rampDown.toNat →
    ∃ t, exec .exec s = .next t ∧ t.outCount = BitVec.ofNat 32 count ∧
      (count = s.geoFrameLen.toNat →
        t.lastErr = .ok ∧ t.fault = false ∧ t.faultExp = s.faultExp ∧ t.faultCnt = s.faultCnt) ∧
      (count ≠ s.geoFrameLen.toNat →
        t.lastErr = .internalFault ∧ t.fault = true ∧ t.faultExp = s.geoFrameLen ∧ t.faultCnt = BitVec.ofNat 32 count)

/-- R130: the ramp-up segment. The product with a NaN is some NaN (log entry 11: the model's choice). -/
def Obligations.ExecWritesTheRampUp : Prop :=
  ∀ s : State, ExecReady s → MemCanonical Config.params s →
    ∃ t, exec .exec s = .next t ∧ ∀ i, i < s.live.rampUp.toNat →
      IsSignTimes Config.params i (Config.params.envUp i s.live.rampUp.toNat) (t.out Config.params i).re ∧
      (t.out Config.params i).im = 0x00000000#32

/-- R131: the phasing segment, its sign by the global index. -/
def Obligations.ExecWritesThePhasing : Prop :=
  ∀ s : State, ExecReady s → MemCanonical Config.params s →
    ∃ t, exec .exec s = .next t ∧ ∀ j, j < s.live.phasing.toNat →
      t.out Config.params (s.live.rampUp.toNat + j) =
        ⟨if decide ((s.live.rampUp.toNat + j) % 2 = 0) == Config.params.evenNegative
          then 0xBF800000#32 else 0x3F800000#32, 0x00000000#32⟩

/-- R173: the sync segment. -/
def Obligations.ExecWritesTheSyncSequence : Prop :=
  ∀ s : State, ExecReady s → MemCanonical Config.params s →
    ∃ t, exec .exec s = .next t ∧ ∀ k, k < 64 →
      t.out Config.params (s.live.rampUp.toNat + s.live.phasing.toNat + k) =
        ⟨if s.pnSeq.getD k false then 0x3F800000#32 else 0xBF800000#32, 0x00000000#32⟩

/-- R190-R195: the header block. -/
def Obligations.ExecEncodesTheHeader : Prop :=
  ∀ (s : State) (raw11 raw15 : List Byte) (c : Word), ExecReady s →
    raw11 = [s.hdrIn0.extractLsb' 24 8, s.hdrIn0.extractLsb' 16 8, s.hdrIn0.extractLsb' 8 8, s.hdrIn0.extractLsb' 0 8,
      s.hdrIn1.extractLsb' 24 8, s.hdrIn1.extractLsb' 16 8, s.hdrIn1.extractLsb' 8 8, s.hdrIn1.extractLsb' 0 8,
      s.live.payLen.extractLsb' 8 8, s.live.payLen.extractLsb' 0 8,
      (s.live.scheme.setWidth 8 <<< 4) ||| s.live.depth.setWidth 8] →
    c = Config.params.checksum32 raw11 →
    raw15 = raw11 ++ [c.extractLsb' 24 8, c.extractLsb' 16 8, c.extractLsb' 8 8, c.extractLsb' 0 8] →
    ∃ t, exec .exec s = .next t ∧
      t.hdrRaw = Config.params.scramble raw15 ∧ t.hdrEnc.length = 32 ∧
      ∀ j : Fin 32, t.hdrEnc.getD j.val 0#8 =
        if (Config.params.intlvPerm j).val < Config.params.fecN
          then (Config.params.fecEnc t.hdrRaw).getD (Config.params.intlvPerm j).val 0#8
          else Config.params.filler (Config.params.intlvPerm j).val

/-- R196, R197, R198: the header segment, one binary symbol a bit, most significant first. -/
def Obligations.ExecWritesTheHeaderSymbols : Prop :=
  ∀ s : State, ExecReady s → MemCanonical Config.params s →
    ∃ t, exec .exec s = .next t ∧ t.hdrSym.length = 256 ∧ ∀ p, p < 256 →
      t.hdrSym.getD p ⟨0#32, 0#32⟩ = Config.params.hdrMap ((t.hdrEnc.getD (p / 8) 0#8).getLsbD (7 - p % 8)) ∧
      t.out Config.params (s.live.rampUp.toNat + s.live.phasing.toNat + 64 + p) = t.hdrSym.getD p ⟨0#32, 0#32⟩

/-- R221, R223, R224: the payload segment. Symbol k holds bits k d to k d + d - 1 of the payload's bit stream, most
significant first, with zeros past the end of the stream. -/
def Obligations.ExecWritesThePayload : Prop :=
  ∀ s : State, ExecReady s → MemCanonical Config.params s →
    ∃ t, exec .exec s = .next t ∧ ∀ k, k < s.geoNsym.toNat →
      ∃ sym : BitVec 15,
        (∀ j, j < s.live.depth.toNat →
          sym.getLsbD (s.live.depth.toNat - 1 - j) =
            if k * s.live.depth.toNat + j < 8 * s.live.payLen.toNat
              then (s.pin Config.params ((k * s.live.depth.toNat + j) / 8)).getLsbD
                (7 - (k * s.live.depth.toNat + j) % 8)
              else false) ∧
        (∀ i, s.live.depth.toNat ≤ i → sym.getLsbD i = false) ∧
        t.paySym.get Config.params.drawSymbol k = sym ∧
        t.out Config.params (s.live.rampUp.toNat + s.live.phasing.toNat + 320 + k) =
          Config.params.modMap s.modSel.scheme s.modSel.depth sym

/-- R135: the ramp-down segment, its sign by the local index; with a zero divisor each amplitude is a free value. The
numbering of the free values, and the product with a NaN, are the model's choice (log entries 12, 11). -/
def Obligations.ExecWritesTheRampDown : Prop :=
  ∀ (s : State) (d : Nat), ExecReady s → MemCanonical Config.params s →
    d = (if s.rdDivSel then s.live.rampDown.toNat else s.live.rampUp.toNat) →
    ∃ t, exec .exec s = .next t ∧ ∀ i, i < s.live.rampDown.toNat →
      IsSignTimes Config.params i (if d = 0 then Config.params.drawF32 s.draws i else Config.params.envDn i d)
        (t.out Config.params (s.live.rampUp.toNat + s.live.phasing.toNat + 320 + s.geoNsym.toNat + i)).re ∧
      (t.out Config.params (s.live.rampUp.toNat + s.live.phasing.toNat + 320 + s.geoNsym.toNat + i)).im = 0x00000000#32

/-- R129, R295, R62: EXEC writes OUT[0..GEO_FRAMELEN-1]; every other byte of PIN and OUT keeps its value. -/
def Obligations.ExecLeavesEveryOtherByte : Prop :=
  ∀ s : State, ExecReady s → MemCanonical Config.params s →
    ∃ t, exec .exec s = .next t ∧
      ∀ a, a < 0x01000000 ∨ 0x01000000 + 8 * s.geoFrameLen.toNat ≤ a →
        t.byteAt Config.params a = s.byteAt Config.params a

/-- R139: what an EXEC writes depends on the live configuration, RD_DIV_SEL, HDR_IN, PIN[0..L-1], PN_SEQ, MOD_SEL (the
live scheme and depth, R49) and the draws alone. -/
def Obligations.ExecOutputIsAFunctionOfItsInputs : Prop :=
  ∀ s s' : State, ExecReady s → ExecReady s' → MemCanonical Config.params s → MemCanonical Config.params s' →
    s.live = s'.live → s.rdDivSel = s'.rdDivSel → s.hdrIn0 = s'.hdrIn0 → s.hdrIn1 = s'.hdrIn1 →
    s.pnSeq = s'.pnSeq → s.modSel = s'.modSel →
    (∀ j, j < s.live.payLen.toNat → s.pin Config.params j = s'.pin Config.params j) →
    ((if s.rdDivSel then s.live.rampDown else s.live.rampUp) = 0#16 → s.draws = s'.draws) →
    ∃ t t', exec .exec s = .next t ∧ exec .exec s' = .next t' ∧ t.outCount = t'.outCount ∧
      ∀ k, k < s.geoFrameLen.toNat → t.out Config.params k = t'.out Config.params k

/-- R138: with an empty payload EXEC succeeds and writes exactly the other five segments, the ramp-down straight after the
header, and no other byte. The products with a NaN, and the free amplitudes of a zero divisor, are in the model's form (log
entries 11, 12). -/
def Obligations.ExecWithEmptyPayload : Prop :=
  ∀ (s : State) (d count : Nat), ExecReady s → 1 ≤ s.live.depth.toNat → s.live.payLen = 0#16 →
    d = (if s.rdDivSel then s.live.rampDown.toNat else s.live.rampUp.toNat) →
    count = s.live.rampUp.toNat + s.live.phasing.toNat + 320 + s.live.rampDown.toNat →
    ∃ t, exec .exec s = .next t ∧ t.lastErr = .ok ∧ t.geoNsym = 0#32 ∧ t.outCount.toNat = count ∧
      (∀ a, a < Config.outBase ∨ Config.outBase + 8 * count ≤ a →
        t.byteAt Config.params a = s.byteAt Config.params a) ∧
      (MemCanonical Config.params s →
        (∀ i, i < s.live.rampUp.toNat →
          IsSignTimes Config.params i (Config.params.envUp i s.live.rampUp.toNat) (t.out Config.params i).re ∧
          (t.out Config.params i).im = 0x00000000#32) ∧
        (∀ j, j < s.live.phasing.toNat →
          t.out Config.params (s.live.rampUp.toNat + j) =
            ⟨if decide ((s.live.rampUp.toNat + j) % 2 = 0) == Config.params.evenNegative
              then 0xBF800000#32 else 0x3F800000#32, 0x00000000#32⟩) ∧
        (∀ k, k < 64 →
          t.out Config.params (s.live.rampUp.toNat + s.live.phasing.toNat + k) =
            ⟨if s.pnSeq.getD k false then 0x3F800000#32 else 0xBF800000#32, 0x00000000#32⟩) ∧
        (∀ p, p < 256 →
          t.out Config.params (s.live.rampUp.toNat + s.live.phasing.toNat + 64 + p) =
            t.hdrSym.getD p ⟨0#32, 0#32⟩) ∧
        ∀ i, i < s.live.rampDown.toNat →
          IsSignTimes Config.params i (if d = 0 then Config.params.drawF32 s.draws i else Config.params.envDn i d)
            (t.out Config.params (s.live.rampUp.toNat + s.live.phasing.toNat + 320 + i)).re ∧
          (t.out Config.params (s.live.rampUp.toNat + s.live.phasing.toNat + 320 + i)).im = 0x00000000#32)

/-- R225: with depth 8 the repack is the identity. -/
def Obligations.DepthEightRepackIsTheIdentity : Prop :=
  ∀ s : State, ExecReady s → s.live.depth = 8#4 →
    ∃ t, exec .exec s = .next t ∧ t.geoNsym.toNat = s.live.payLen.toNat ∧
      ∀ k, k < s.live.payLen.toNat →
        t.paySym.get Config.params.drawSymbol k = (t.payBuf.get Config.params.drawByte k).setWidth 15 ∧
        t.payBuf.get Config.params.drawByte k = s.pin Config.params k

/-! ### Queries and reserved words -/

/-- R125: GETCFG returns the live configuration in the order read, and changes nothing else. That it is one operation
is the model's choice (log entry 6). -/
def Obligations.GetcfgReturnsTheLiveConfiguration : Prop :=
  ∀ (order : List CfgReg) (s : State), order.length = 5 → order.Nodup →
    exec (.getcfg order) s = .next { s with responses := s.responses ++ order.map (fun
      | .rampup => s.live.rampUp.setWidth 32
      | .phasing => s.live.phasing.setWidth 32
      | .paylen => s.live.payLen.setWidth 32
      | .mod => (s.live.scheme.setWidth 32 <<< 4) ||| s.live.depth.setWidth 32
      | .rampdn => s.live.rampDown.setWidth 32) }

/-- R96: a GETCFG does what its reads do one at a time as data accesses, so taking it as one step loses nothing (log
entry 6). -/
def Obligations.GetcfgIsItsReadsOneByOne : Prop :=
  ∀ (order : List CfgReg) (s : State),
    order.foldl (fun o r => match o with
      | .next u => access Config.params (csrReadEvent r.csr) u
      | .fault e => .fault e
      | .refused e => .refused e) (.next s) = exec (.getcfg order) s

/-- R126: FRAMELEN returns GEO_FRAMELEN and changes nothing else. -/
def Obligations.FramelenReturnsTheFrameLength : Prop :=
  ∀ s : State, exec .framelen s = .next { s with responses := s.responses ++ [s.geoFrameLen] }

/-- R266: any of the other words written to CMD reports BAD_COMMAND, even while FAULT = 1, and changes nothing else. -/
def Obligations.ReservedWordReportsBadCommand : Prop :=
  ∀ (w : Word) (s : State),
    w ∉ [0x00000001#32, 0x00000101#32, 0x00000002#32, 0x00000003#32, 0x00000004#32] →
    exec (.reserved w) s = .next { s with lastErr := .badCommand } ∧
    ∀ rest, s.busy = false → s.pending = .write .b32 0x000#32 w :: rest →
      step s = .next { s with pending := rest, lastErr := .badCommand }

/-! ### Whole-machine rules -/

/-- R260, R269: a command that reports an error other than INTERNAL_FAULT changes only LAST_ERR. -/
def Obligations.ErrorsChangeOnlyLastErr : Prop :=
  ∀ (i : Instr) (s t : State), exec i s = .next t → (∀ order, i ≠ .getcfg order) → i ≠ .framelen →
    t.lastErr ≠ .ok → t.lastErr ≠ .internalFault → t = { s with lastErr := t.lastErr }

/-- R53: only CREATE sets CREATED, only DESTROY clears it, and only an EXEC that reports INTERNAL_FAULT sets FAULT. -/
def Obligations.CreatedAndFaultHaveTheirWriters : Prop :=
  ∀ (i : Instr) (s t : State), exec i s = .next t →
    (t.created ≠ s.created →
      ((∃ staged, i = .create staged) ∧ t.created = true ∧ t.lastErr = .ok) ∨
      (i = .destroy ∧ t.created = false ∧ t.lastErr = .ok)) ∧
    (t.fault ≠ s.fault → i = .exec ∧ t.fault = true ∧ t.lastErr = .internalFault)

/-- R20, R137: no operation changes what the host owns: the staged registers, CTRL, OUT_CAP, HDR_IN. -/
def Obligations.OperationsKeepTheHostsRegisters : Prop :=
  ∀ (i : Instr) (s t : State), exec i s = .next t →
    t.staged = s.staged ∧ t.rdDivSel = s.rdDivSel ∧ t.outCap = s.outCap ∧ t.hdrIn0 = s.hdrIn0 ∧
    t.hdrIn1 = s.hdrIn1 ∧ t.pending = s.pending ∧ t.busy = s.busy

/-- R62, R295: no operation changes a byte of PIN, and none but EXEC a byte of OUT. -/
def Obligations.OnlyExecWritesTheWindows : Prop :=
  ∀ (i : Instr) (s t : State), exec i s = .next t →
    (∀ j, j ≤ 65535 → t.pin Config.params j = s.pin Config.params j) ∧
    (i ≠ .exec → ∀ a, t.byteAt Config.params a = s.byteAt Config.params a)

/-- R45, R172: no operation but CREATE and DESTROY changes PN_SEQ or the LFSR. -/
def Obligations.SyncSequenceIsImmutable : Prop :=
  ∀ (i : Instr) (s t : State), exec i s = .next t → (∀ staged, i ≠ .create staged) → i ≠ .destroy →
    t.pnSeq = s.pnSeq ∧ t.lfsr = s.lfsr

/-! ### Invariants -/

/-- The reset state satisfies the invariant. -/
def Obligations.ResetSatisfiesTheInvariant : Prop := Inv Config.params State.reset

/-- Every step keeps the invariant: validity (R50), geometry (R51), capacities (R242), MOD_SEL (R49), no internal fault
(R263), BUSY and SEG (R22, R47; log entry 10), OUT_CAP (R40), and the windows' canonical bytes. -/
def Obligations.StepKeepsTheInvariant : Prop :=
  ∀ s t : State, Inv Config.params s → step s = .next t → Inv Config.params t

/-- R136, R263: in a state of the invariant, EXEC never reports INTERNAL_FAULT. -/
def Obligations.InternalFaultNeverFires : Prop :=
  ∀ s t : State, Inv Config.params s → exec .exec s = .next t → t.lastErr ≠ .internalFault ∧ t.fault = false

/-! ### Components -/

/-- R174: the sequence under the default parameters. -/
def Obligations.DefaultSequenceOfChips : Prop :=
  ((List.range 64).map (fun k => pnBit 0x21#6 (pnState 0x21#6 0x01#6 k))).foldl
      (fun (acc : Nat) chip => 2 * acc + chip.toNat) 0 = 0xFAB376938BCA3083 ∧
  (List.range 8).map (fun k => pnState 0x21#6 0x01#6 (k + 1))
    = [0b000011#6, 0b000111#6, 0b001111#6, 0b011111#6, 0b111111#6, 0b111110#6, 0b111101#6, 0b111010#6] ∧
  pnState 0x21#6 0x01#6 63 = 0b000001#6 ∧ pnState 0x21#6 0x01#6 64 = 0b000011#6

/-- R175: chip 63 equals chip 0, and chips 0..62 hold 32 ones and 31 zeros, for every admitted PN_TAPS and PN_SEED. Which
taps are admitted is the model's reading (log entry 14). -/
def Obligations.LastChipRepeatsTheFirst : Prop :=
  ∀ (P : Params) (chips : List Bool), chips = pnBits P.pnTaps P.pnSeed 64 →
    chips.length = 64 ∧ chips.getD 63 false = chips.getD 0 false ∧
    (chips.take 63).count true = 32 ∧ (chips.take 63).count false = 31

/-- R170: the admitted tap masks are exactly those under which the register has period 63 (log entry 14). -/
def Obligations.AdmittedTapsHavePeriodSixtyThree : Prop :=
  ∀ taps seed : BitVec 6, seed ≠ 0#6 →
    (taps ∈ maximalTaps ↔
      pnState taps seed 63 = seed ∧ ∀ k, 0 < k → k < 63 → pnState taps seed k ≠ seed)

/-- R194: the interleaver moves whole bytes by INTLV_PERM and preserves the multiset of bytes. -/
def Obligations.InterleaverPermutesTheBytes : Prop :=
  ∀ (P : Params) (s : State), s.hdrEnc.length = 32 →
    (hdrInterleave P s).hdrEnc.Perm s.hdrEnc ∧
    (∀ j : Fin 32, (hdrInterleave P s).hdrEnc.getD j.val 0#8 = s.hdrEnc.getD (P.intlvPerm j).val 0#8) ∧
    hdrInterleave P s = { s with hdrEnc := (hdrInterleave P s).hdrEnc }

/-- R122, R222: the geometry's ranges, and nsym is the smallest count of d-bit groups that covers the payload. -/
def Obligations.GeometryStaysInRange : Prop :=
  ∀ cfg : Cfg, 1 ≤ cfg.depth.toNat →
    nsymOf cfg ≤ 524280 ∧ 320 ≤ frameLenOf cfg ∧ frameLenOf cfg ≤ 721205 ∧
    8 * cfg.payLen.toNat ≤ nsymOf cfg * cfg.depth.toNat ∧
    ∀ m, 8 * cfg.payLen.toNat ≤ m * cfg.depth.toNat → nsymOf cfg ≤ m

/-- The default checksum and scrambler on the vectors H0, H1 and H4 of 95_test_vectors.md (R191, R192). -/
def Obligations.DefaultChecksumAndScramblerVectors : Prop :=
  crc32 [0x31#8, 0x32#8, 0x33#8, 0x34#8, 0x35#8, 0x36#8, 0x37#8, 0x38#8, 0x39#8] = 0xCBF43926#32 ∧
  crc32 [0x00#8, 0x00#8, 0x00#8, 0x00#8, 0x00#8, 0x00#8, 0x00#8, 0x00#8, 0x00#8, 0x00#8, 0x01#8] = 0x1C80817A#32 ∧
  defaultScramble [0x00#8, 0x00#8, 0x00#8, 0x00#8, 0x00#8, 0x00#8, 0x00#8, 0x00#8, 0x00#8, 0x00#8, 0x01#8,
      0x1C#8, 0x80#8, 0x81#8, 0x7A#8]
    = [0xB4#8, 0x6A#8, 0x8B#8, 0xE5#8, 0xB4#8, 0x6A#8, 0x8B#8, 0xE5#8, 0xB4#8, 0x6A#8, 0x8A#8, 0xF9#8, 0x34#8,
      0xEB#8, 0xF1#8] ∧
  defaultScramble [0xB4#8, 0x6A#8, 0x8B#8, 0xE5#8] = [0x00#8, 0x00#8, 0x00#8, 0x00#8]

/-- R199: under the default CRC-32, changing one byte changes the checksum. -/
def Obligations.DefaultChecksumSeesEverySingleByteChange : Prop :=
  ∀ (before after : List Byte) (b b' : Byte), b ≠ b' →
    crc32 (before ++ b :: after) ≠ crc32 (before ++ b' :: after)
end

