-- ==== Sys2Proof/Laws/State.lean ====
section
/-! SUPPORT. What each shared update does to each field of the state: one lemma a field, so that no later proof unfolds
a record update. A field with no lemma under an update is one the update computes; its laws stand in the other files. -/

namespace Sys2Proof.Machine

/-! ### raise -/

@[simp] theorem raise_created (e : ErrCode) (s : State) : (raise e s).created = s.created := rfl
@[simp] theorem raise_fault (e : ErrCode) (s : State) : (raise e s).fault = s.fault := rfl
@[simp] theorem raise_busy (e : ErrCode) (s : State) : (raise e s).busy = s.busy := rfl
@[simp] theorem raise_lastErr (e : ErrCode) (s : State) : (raise e s).lastErr = e := rfl
@[simp] theorem raise_rdDivSel (e : ErrCode) (s : State) : (raise e s).rdDivSel = s.rdDivSel := rfl
@[simp] theorem raise_staged (e : ErrCode) (s : State) : (raise e s).staged = s.staged := rfl
@[simp] theorem raise_live (e : ErrCode) (s : State) : (raise e s).live = s.live := rfl
@[simp] theorem raise_geoNsym (e : ErrCode) (s : State) : (raise e s).geoNsym = s.geoNsym := rfl
@[simp] theorem raise_geoFrameLen (e : ErrCode) (s : State) : (raise e s).geoFrameLen = s.geoFrameLen := rfl
@[simp] theorem raise_allocPay (e : ErrCode) (s : State) : (raise e s).allocPay = s.allocPay := rfl
@[simp] theorem raise_allocSym (e : ErrCode) (s : State) : (raise e s).allocSym = s.allocSym := rfl
@[simp] theorem raise_allocSmp (e : ErrCode) (s : State) : (raise e s).allocSmp = s.allocSmp := rfl
@[simp] theorem raise_resizeCnt (e : ErrCode) (s : State) : (raise e s).resizeCnt = s.resizeCnt := rfl
@[simp] theorem raise_outCap (e : ErrCode) (s : State) : (raise e s).outCap = s.outCap := rfl
@[simp] theorem raise_outCount (e : ErrCode) (s : State) : (raise e s).outCount = s.outCount := rfl
@[simp] theorem raise_faultExp (e : ErrCode) (s : State) : (raise e s).faultExp = s.faultExp := rfl
@[simp] theorem raise_faultCnt (e : ErrCode) (s : State) : (raise e s).faultCnt = s.faultCnt := rfl
@[simp] theorem raise_hdrIn0 (e : ErrCode) (s : State) : (raise e s).hdrIn0 = s.hdrIn0 := rfl
@[simp] theorem raise_hdrIn1 (e : ErrCode) (s : State) : (raise e s).hdrIn1 = s.hdrIn1 := rfl
@[simp] theorem raise_lfsr (e : ErrCode) (s : State) : (raise e s).lfsr = s.lfsr := rfl
@[simp] theorem raise_pnSeq (e : ErrCode) (s : State) : (raise e s).pnSeq = s.pnSeq := rfl
@[simp] theorem raise_hdrRaw (e : ErrCode) (s : State) : (raise e s).hdrRaw = s.hdrRaw := rfl
@[simp] theorem raise_hdrEnc (e : ErrCode) (s : State) : (raise e s).hdrEnc = s.hdrEnc := rfl
@[simp] theorem raise_hdrSym (e : ErrCode) (s : State) : (raise e s).hdrSym = s.hdrSym := rfl
@[simp] theorem raise_seg (e : ErrCode) (s : State) : (raise e s).seg = s.seg := rfl
@[simp] theorem raise_n (e : ErrCode) (s : State) : (raise e s).n = s.n := rfl
@[simp] theorem raise_payBuf (e : ErrCode) (s : State) : (raise e s).payBuf = s.payBuf := rfl
@[simp] theorem raise_paySym (e : ErrCode) (s : State) : (raise e s).paySym = s.paySym := rfl
@[simp] theorem raise_paySmp (e : ErrCode) (s : State) : (raise e s).paySmp = s.paySmp := rfl
@[simp] theorem raise_modSel (e : ErrCode) (s : State) : (raise e s).modSel = s.modSel := rfl
@[simp] theorem raise_mem (e : ErrCode) (s : State) : (raise e s).mem = s.mem := rfl
@[simp] theorem raise_memDraw (e : ErrCode) (s : State) : (raise e s).memDraw = s.memDraw := rfl
@[simp] theorem raise_draws (e : ErrCode) (s : State) : (raise e s).draws = s.draws := rfl
@[simp] theorem raise_pending (e : ErrCode) (s : State) : (raise e s).pending = s.pending := rfl
@[simp] theorem raise_responses (e : ErrCode) (s : State) : (raise e s).responses = s.responses := rfl

/-! ### respond -/

@[simp] theorem respond_created (vs : List Word) (s : State) : (s.respond vs).created = s.created := rfl
@[simp] theorem respond_fault (vs : List Word) (s : State) : (s.respond vs).fault = s.fault := rfl
@[simp] theorem respond_busy (vs : List Word) (s : State) : (s.respond vs).busy = s.busy := rfl
@[simp] theorem respond_lastErr (vs : List Word) (s : State) : (s.respond vs).lastErr = s.lastErr := rfl
@[simp] theorem respond_rdDivSel (vs : List Word) (s : State) : (s.respond vs).rdDivSel = s.rdDivSel := rfl
@[simp] theorem respond_staged (vs : List Word) (s : State) : (s.respond vs).staged = s.staged := rfl
@[simp] theorem respond_live (vs : List Word) (s : State) : (s.respond vs).live = s.live := rfl
@[simp] theorem respond_geoNsym (vs : List Word) (s : State) : (s.respond vs).geoNsym = s.geoNsym := rfl
@[simp] theorem respond_geoFrameLen (vs : List Word) (s : State) : (s.respond vs).geoFrameLen = s.geoFrameLen := rfl
@[simp] theorem respond_allocPay (vs : List Word) (s : State) : (s.respond vs).allocPay = s.allocPay := rfl
@[simp] theorem respond_allocSym (vs : List Word) (s : State) : (s.respond vs).allocSym = s.allocSym := rfl
@[simp] theorem respond_allocSmp (vs : List Word) (s : State) : (s.respond vs).allocSmp = s.allocSmp := rfl
@[simp] theorem respond_resizeCnt (vs : List Word) (s : State) : (s.respond vs).resizeCnt = s.resizeCnt := rfl
@[simp] theorem respond_outCap (vs : List Word) (s : State) : (s.respond vs).outCap = s.outCap := rfl
@[simp] theorem respond_outCount (vs : List Word) (s : State) : (s.respond vs).outCount = s.outCount := rfl
@[simp] theorem respond_faultExp (vs : List Word) (s : State) : (s.respond vs).faultExp = s.faultExp := rfl
@[simp] theorem respond_faultCnt (vs : List Word) (s : State) : (s.respond vs).faultCnt = s.faultCnt := rfl
@[simp] theorem respond_hdrIn0 (vs : List Word) (s : State) : (s.respond vs).hdrIn0 = s.hdrIn0 := rfl
@[simp] theorem respond_hdrIn1 (vs : List Word) (s : State) : (s.respond vs).hdrIn1 = s.hdrIn1 := rfl
@[simp] theorem respond_lfsr (vs : List Word) (s : State) : (s.respond vs).lfsr = s.lfsr := rfl
@[simp] theorem respond_pnSeq (vs : List Word) (s : State) : (s.respond vs).pnSeq = s.pnSeq := rfl
@[simp] theorem respond_hdrRaw (vs : List Word) (s : State) : (s.respond vs).hdrRaw = s.hdrRaw := rfl
@[simp] theorem respond_hdrEnc (vs : List Word) (s : State) : (s.respond vs).hdrEnc = s.hdrEnc := rfl
@[simp] theorem respond_hdrSym (vs : List Word) (s : State) : (s.respond vs).hdrSym = s.hdrSym := rfl
@[simp] theorem respond_seg (vs : List Word) (s : State) : (s.respond vs).seg = s.seg := rfl
@[simp] theorem respond_n (vs : List Word) (s : State) : (s.respond vs).n = s.n := rfl
@[simp] theorem respond_payBuf (vs : List Word) (s : State) : (s.respond vs).payBuf = s.payBuf := rfl
@[simp] theorem respond_paySym (vs : List Word) (s : State) : (s.respond vs).paySym = s.paySym := rfl
@[simp] theorem respond_paySmp (vs : List Word) (s : State) : (s.respond vs).paySmp = s.paySmp := rfl
@[simp] theorem respond_modSel (vs : List Word) (s : State) : (s.respond vs).modSel = s.modSel := rfl
@[simp] theorem respond_mem (vs : List Word) (s : State) : (s.respond vs).mem = s.mem := rfl
@[simp] theorem respond_memDraw (vs : List Word) (s : State) : (s.respond vs).memDraw = s.memDraw := rfl
@[simp] theorem respond_draws (vs : List Word) (s : State) : (s.respond vs).draws = s.draws := rfl
@[simp] theorem respond_pending (vs : List Word) (s : State) : (s.respond vs).pending = s.pending := rfl
@[simp] theorem respond_responses (vs : List Word) (s : State) : (s.respond vs).responses = s.responses ++ vs := rfl

/-! ### storeBytes -/

@[simp] theorem storeBytes_created (P : Params) (a : Nat) (vs : List Byte) (s : State) : (s.storeBytes P a vs).created = s.created := rfl
@[simp] theorem storeBytes_fault (P : Params) (a : Nat) (vs : List Byte) (s : State) : (s.storeBytes P a vs).fault = s.fault := rfl
@[simp] theorem storeBytes_busy (P : Params) (a : Nat) (vs : List Byte) (s : State) : (s.storeBytes P a vs).busy = s.busy := rfl
@[simp] theorem storeBytes_lastErr (P : Params) (a : Nat) (vs : List Byte) (s : State) : (s.storeBytes P a vs).lastErr = s.lastErr := rfl
@[simp] theorem storeBytes_rdDivSel (P : Params) (a : Nat) (vs : List Byte) (s : State) : (s.storeBytes P a vs).rdDivSel = s.rdDivSel := rfl
@[simp] theorem storeBytes_staged (P : Params) (a : Nat) (vs : List Byte) (s : State) : (s.storeBytes P a vs).staged = s.staged := rfl
@[simp] theorem storeBytes_live (P : Params) (a : Nat) (vs : List Byte) (s : State) : (s.storeBytes P a vs).live = s.live := rfl
@[simp] theorem storeBytes_geoNsym (P : Params) (a : Nat) (vs : List Byte) (s : State) : (s.storeBytes P a vs).geoNsym = s.geoNsym := rfl
@[simp] theorem storeBytes_geoFrameLen (P : Params) (a : Nat) (vs : List Byte) (s : State) : (s.storeBytes P a vs).geoFrameLen = s.geoFrameLen := rfl
@[simp] theorem storeBytes_allocPay (P : Params) (a : Nat) (vs : List Byte) (s : State) : (s.storeBytes P a vs).allocPay = s.allocPay := rfl
@[simp] theorem storeBytes_allocSym (P : Params) (a : Nat) (vs : List Byte) (s : State) : (s.storeBytes P a vs).allocSym = s.allocSym := rfl
@[simp] theorem storeBytes_allocSmp (P : Params) (a : Nat) (vs : List Byte) (s : State) : (s.storeBytes P a vs).allocSmp = s.allocSmp := rfl
@[simp] theorem storeBytes_resizeCnt (P : Params) (a : Nat) (vs : List Byte) (s : State) : (s.storeBytes P a vs).resizeCnt = s.resizeCnt := rfl
@[simp] theorem storeBytes_outCap (P : Params) (a : Nat) (vs : List Byte) (s : State) : (s.storeBytes P a vs).outCap = s.outCap := rfl
@[simp] theorem storeBytes_outCount (P : Params) (a : Nat) (vs : List Byte) (s : State) : (s.storeBytes P a vs).outCount = s.outCount := rfl
@[simp] theorem storeBytes_faultExp (P : Params) (a : Nat) (vs : List Byte) (s : State) : (s.storeBytes P a vs).faultExp = s.faultExp := rfl
@[simp] theorem storeBytes_faultCnt (P : Params) (a : Nat) (vs : List Byte) (s : State) : (s.storeBytes P a vs).faultCnt = s.faultCnt := rfl
@[simp] theorem storeBytes_hdrIn0 (P : Params) (a : Nat) (vs : List Byte) (s : State) : (s.storeBytes P a vs).hdrIn0 = s.hdrIn0 := rfl
@[simp] theorem storeBytes_hdrIn1 (P : Params) (a : Nat) (vs : List Byte) (s : State) : (s.storeBytes P a vs).hdrIn1 = s.hdrIn1 := rfl
@[simp] theorem storeBytes_lfsr (P : Params) (a : Nat) (vs : List Byte) (s : State) : (s.storeBytes P a vs).lfsr = s.lfsr := rfl
@[simp] theorem storeBytes_pnSeq (P : Params) (a : Nat) (vs : List Byte) (s : State) : (s.storeBytes P a vs).pnSeq = s.pnSeq := rfl
@[simp] theorem storeBytes_hdrRaw (P : Params) (a : Nat) (vs : List Byte) (s : State) : (s.storeBytes P a vs).hdrRaw = s.hdrRaw := rfl
@[simp] theorem storeBytes_hdrEnc (P : Params) (a : Nat) (vs : List Byte) (s : State) : (s.storeBytes P a vs).hdrEnc = s.hdrEnc := rfl
@[simp] theorem storeBytes_hdrSym (P : Params) (a : Nat) (vs : List Byte) (s : State) : (s.storeBytes P a vs).hdrSym = s.hdrSym := rfl
@[simp] theorem storeBytes_seg (P : Params) (a : Nat) (vs : List Byte) (s : State) : (s.storeBytes P a vs).seg = s.seg := rfl
@[simp] theorem storeBytes_n (P : Params) (a : Nat) (vs : List Byte) (s : State) : (s.storeBytes P a vs).n = s.n := rfl
@[simp] theorem storeBytes_payBuf (P : Params) (a : Nat) (vs : List Byte) (s : State) : (s.storeBytes P a vs).payBuf = s.payBuf := rfl
@[simp] theorem storeBytes_paySym (P : Params) (a : Nat) (vs : List Byte) (s : State) : (s.storeBytes P a vs).paySym = s.paySym := rfl
@[simp] theorem storeBytes_paySmp (P : Params) (a : Nat) (vs : List Byte) (s : State) : (s.storeBytes P a vs).paySmp = s.paySmp := rfl
@[simp] theorem storeBytes_modSel (P : Params) (a : Nat) (vs : List Byte) (s : State) : (s.storeBytes P a vs).modSel = s.modSel := rfl
@[simp] theorem storeBytes_mem (P : Params) (a : Nat) (vs : List Byte) (s : State) : (s.storeBytes P a vs).mem = Memory.writeBytes (s.unlisted P) a vs s.mem := rfl
@[simp] theorem storeBytes_memDraw (P : Params) (a : Nat) (vs : List Byte) (s : State) : (s.storeBytes P a vs).memDraw = s.memDraw := rfl
@[simp] theorem storeBytes_draws (P : Params) (a : Nat) (vs : List Byte) (s : State) : (s.storeBytes P a vs).draws = s.draws := rfl
@[simp] theorem storeBytes_pending (P : Params) (a : Nat) (vs : List Byte) (s : State) : (s.storeBytes P a vs).pending = s.pending := rfl
@[simp] theorem storeBytes_responses (P : Params) (a : Nat) (vs : List Byte) (s : State) : (s.storeBytes P a vs).responses = s.responses := rfl

/-! ### emitAll -/

@[simp] theorem emitAll_created (P : Params) (xs : List Sample) (s : State) : (emitAll P xs s).created = s.created := rfl
@[simp] theorem emitAll_fault (P : Params) (xs : List Sample) (s : State) : (emitAll P xs s).fault = s.fault := rfl
@[simp] theorem emitAll_busy (P : Params) (xs : List Sample) (s : State) : (emitAll P xs s).busy = s.busy := rfl
@[simp] theorem emitAll_lastErr (P : Params) (xs : List Sample) (s : State) : (emitAll P xs s).lastErr = s.lastErr := rfl
@[simp] theorem emitAll_rdDivSel (P : Params) (xs : List Sample) (s : State) : (emitAll P xs s).rdDivSel = s.rdDivSel := rfl
@[simp] theorem emitAll_staged (P : Params) (xs : List Sample) (s : State) : (emitAll P xs s).staged = s.staged := rfl
@[simp] theorem emitAll_live (P : Params) (xs : List Sample) (s : State) : (emitAll P xs s).live = s.live := rfl
@[simp] theorem emitAll_geoNsym (P : Params) (xs : List Sample) (s : State) : (emitAll P xs s).geoNsym = s.geoNsym := rfl
@[simp] theorem emitAll_geoFrameLen (P : Params) (xs : List Sample) (s : State) : (emitAll P xs s).geoFrameLen = s.geoFrameLen := rfl
@[simp] theorem emitAll_allocPay (P : Params) (xs : List Sample) (s : State) : (emitAll P xs s).allocPay = s.allocPay := rfl
@[simp] theorem emitAll_allocSym (P : Params) (xs : List Sample) (s : State) : (emitAll P xs s).allocSym = s.allocSym := rfl
@[simp] theorem emitAll_allocSmp (P : Params) (xs : List Sample) (s : State) : (emitAll P xs s).allocSmp = s.allocSmp := rfl
@[simp] theorem emitAll_resizeCnt (P : Params) (xs : List Sample) (s : State) : (emitAll P xs s).resizeCnt = s.resizeCnt := rfl
@[simp] theorem emitAll_outCap (P : Params) (xs : List Sample) (s : State) : (emitAll P xs s).outCap = s.outCap := rfl
@[simp] theorem emitAll_outCount (P : Params) (xs : List Sample) (s : State) : (emitAll P xs s).outCount = s.outCount := rfl
@[simp] theorem emitAll_faultExp (P : Params) (xs : List Sample) (s : State) : (emitAll P xs s).faultExp = s.faultExp := rfl
@[simp] theorem emitAll_faultCnt (P : Params) (xs : List Sample) (s : State) : (emitAll P xs s).faultCnt = s.faultCnt := rfl
@[simp] theorem emitAll_hdrIn0 (P : Params) (xs : List Sample) (s : State) : (emitAll P xs s).hdrIn0 = s.hdrIn0 := rfl
@[simp] theorem emitAll_hdrIn1 (P : Params) (xs : List Sample) (s : State) : (emitAll P xs s).hdrIn1 = s.hdrIn1 := rfl
@[simp] theorem emitAll_lfsr (P : Params) (xs : List Sample) (s : State) : (emitAll P xs s).lfsr = s.lfsr := rfl
@[simp] theorem emitAll_pnSeq (P : Params) (xs : List Sample) (s : State) : (emitAll P xs s).pnSeq = s.pnSeq := rfl
@[simp] theorem emitAll_hdrRaw (P : Params) (xs : List Sample) (s : State) : (emitAll P xs s).hdrRaw = s.hdrRaw := rfl
@[simp] theorem emitAll_hdrEnc (P : Params) (xs : List Sample) (s : State) : (emitAll P xs s).hdrEnc = s.hdrEnc := rfl
@[simp] theorem emitAll_hdrSym (P : Params) (xs : List Sample) (s : State) : (emitAll P xs s).hdrSym = s.hdrSym := rfl
@[simp] theorem emitAll_seg (P : Params) (xs : List Sample) (s : State) : (emitAll P xs s).seg = s.seg := rfl
@[simp] theorem emitAll_n (P : Params) (xs : List Sample) (s : State) : (emitAll P xs s).n = s.n + xs.length := rfl
@[simp] theorem emitAll_payBuf (P : Params) (xs : List Sample) (s : State) : (emitAll P xs s).payBuf = s.payBuf := rfl
@[simp] theorem emitAll_paySym (P : Params) (xs : List Sample) (s : State) : (emitAll P xs s).paySym = s.paySym := rfl
@[simp] theorem emitAll_paySmp (P : Params) (xs : List Sample) (s : State) : (emitAll P xs s).paySmp = s.paySmp := rfl
@[simp] theorem emitAll_modSel (P : Params) (xs : List Sample) (s : State) : (emitAll P xs s).modSel = s.modSel := rfl
@[simp] theorem emitAll_mem (P : Params) (xs : List Sample) (s : State) : (emitAll P xs s).mem = Memory.writeBytes (s.unlisted P) (Config.outBase + 8 * s.n) (xs.flatMap sampleBytes) s.mem := rfl
@[simp] theorem emitAll_memDraw (P : Params) (xs : List Sample) (s : State) : (emitAll P xs s).memDraw = s.memDraw := rfl
@[simp] theorem emitAll_draws (P : Params) (xs : List Sample) (s : State) : (emitAll P xs s).draws = s.draws := rfl
@[simp] theorem emitAll_pending (P : Params) (xs : List Sample) (s : State) : (emitAll P xs s).pending = s.pending := rfl
@[simp] theorem emitAll_responses (P : Params) (xs : List Sample) (s : State) : (emitAll P xs s).responses = s.responses := rfl

/-! ### applyCfg -/

@[simp] theorem applyCfg_created (cfg : Cfg) (s : State) : (applyCfg cfg s).created = s.created := rfl
@[simp] theorem applyCfg_fault (cfg : Cfg) (s : State) : (applyCfg cfg s).fault = s.fault := rfl
@[simp] theorem applyCfg_busy (cfg : Cfg) (s : State) : (applyCfg cfg s).busy = s.busy := rfl
@[simp] theorem applyCfg_lastErr (cfg : Cfg) (s : State) : (applyCfg cfg s).lastErr = s.lastErr := rfl
@[simp] theorem applyCfg_rdDivSel (cfg : Cfg) (s : State) : (applyCfg cfg s).rdDivSel = s.rdDivSel := rfl
@[simp] theorem applyCfg_staged (cfg : Cfg) (s : State) : (applyCfg cfg s).staged = s.staged := rfl
@[simp] theorem applyCfg_live (cfg : Cfg) (s : State) : (applyCfg cfg s).live = cfg := rfl
@[simp] theorem applyCfg_geoNsym (cfg : Cfg) (s : State) : (applyCfg cfg s).geoNsym = BitVec.ofNat 32 (nsymOf cfg) := rfl
@[simp] theorem applyCfg_geoFrameLen (cfg : Cfg) (s : State) : (applyCfg cfg s).geoFrameLen = BitVec.ofNat 32 (frameLenOf cfg) := rfl
@[simp] theorem applyCfg_allocPay (cfg : Cfg) (s : State) : (applyCfg cfg s).allocPay = s.allocPay := rfl
@[simp] theorem applyCfg_allocSym (cfg : Cfg) (s : State) : (applyCfg cfg s).allocSym = s.allocSym := rfl
@[simp] theorem applyCfg_allocSmp (cfg : Cfg) (s : State) : (applyCfg cfg s).allocSmp = s.allocSmp := rfl
@[simp] theorem applyCfg_resizeCnt (cfg : Cfg) (s : State) : (applyCfg cfg s).resizeCnt = s.resizeCnt := rfl
@[simp] theorem applyCfg_outCap (cfg : Cfg) (s : State) : (applyCfg cfg s).outCap = s.outCap := rfl
@[simp] theorem applyCfg_outCount (cfg : Cfg) (s : State) : (applyCfg cfg s).outCount = s.outCount := rfl
@[simp] theorem applyCfg_faultExp (cfg : Cfg) (s : State) : (applyCfg cfg s).faultExp = s.faultExp := rfl
@[simp] theorem applyCfg_faultCnt (cfg : Cfg) (s : State) : (applyCfg cfg s).faultCnt = s.faultCnt := rfl
@[simp] theorem applyCfg_hdrIn0 (cfg : Cfg) (s : State) : (applyCfg cfg s).hdrIn0 = s.hdrIn0 := rfl
@[simp] theorem applyCfg_hdrIn1 (cfg : Cfg) (s : State) : (applyCfg cfg s).hdrIn1 = s.hdrIn1 := rfl
@[simp] theorem applyCfg_lfsr (cfg : Cfg) (s : State) : (applyCfg cfg s).lfsr = s.lfsr := rfl
@[simp] theorem applyCfg_pnSeq (cfg : Cfg) (s : State) : (applyCfg cfg s).pnSeq = s.pnSeq := rfl
@[simp] theorem applyCfg_hdrRaw (cfg : Cfg) (s : State) : (applyCfg cfg s).hdrRaw = s.hdrRaw := rfl
@[simp] theorem applyCfg_hdrEnc (cfg : Cfg) (s : State) : (applyCfg cfg s).hdrEnc = s.hdrEnc := rfl
@[simp] theorem applyCfg_hdrSym (cfg : Cfg) (s : State) : (applyCfg cfg s).hdrSym = s.hdrSym := rfl
@[simp] theorem applyCfg_seg (cfg : Cfg) (s : State) : (applyCfg cfg s).seg = s.seg := rfl
@[simp] theorem applyCfg_n (cfg : Cfg) (s : State) : (applyCfg cfg s).n = s.n := rfl
@[simp] theorem applyCfg_payBuf (cfg : Cfg) (s : State) : (applyCfg cfg s).payBuf = s.payBuf := rfl
@[simp] theorem applyCfg_paySym (cfg : Cfg) (s : State) : (applyCfg cfg s).paySym = s.paySym := rfl
@[simp] theorem applyCfg_paySmp (cfg : Cfg) (s : State) : (applyCfg cfg s).paySmp = s.paySmp := rfl
@[simp] theorem applyCfg_modSel (cfg : Cfg) (s : State) : (applyCfg cfg s).modSel = ⟨cfg.scheme, cfg.depth⟩ := rfl
@[simp] theorem applyCfg_mem (cfg : Cfg) (s : State) : (applyCfg cfg s).mem = s.mem := rfl
@[simp] theorem applyCfg_memDraw (cfg : Cfg) (s : State) : (applyCfg cfg s).memDraw = s.memDraw := rfl
@[simp] theorem applyCfg_draws (cfg : Cfg) (s : State) : (applyCfg cfg s).draws = s.draws := rfl
@[simp] theorem applyCfg_pending (cfg : Cfg) (s : State) : (applyCfg cfg s).pending = s.pending := rfl
@[simp] theorem applyCfg_responses (cfg : Cfg) (s : State) : (applyCfg cfg s).responses = s.responses := rfl

/-! ### initBuffers -/

@[simp] theorem initBuffers_created (P : Params) (s : State) : (initBuffers P s).created = s.created := rfl
@[simp] theorem initBuffers_fault (P : Params) (s : State) : (initBuffers P s).fault = s.fault := rfl
@[simp] theorem initBuffers_busy (P : Params) (s : State) : (initBuffers P s).busy = s.busy := rfl
@[simp] theorem initBuffers_lastErr (P : Params) (s : State) : (initBuffers P s).lastErr = s.lastErr := rfl
@[simp] theorem initBuffers_rdDivSel (P : Params) (s : State) : (initBuffers P s).rdDivSel = s.rdDivSel := rfl
@[simp] theorem initBuffers_staged (P : Params) (s : State) : (initBuffers P s).staged = s.staged := rfl
@[simp] theorem initBuffers_live (P : Params) (s : State) : (initBuffers P s).live = s.live := rfl
@[simp] theorem initBuffers_geoNsym (P : Params) (s : State) : (initBuffers P s).geoNsym = s.geoNsym := rfl
@[simp] theorem initBuffers_geoFrameLen (P : Params) (s : State) : (initBuffers P s).geoFrameLen = s.geoFrameLen := rfl
@[simp] theorem initBuffers_allocPay (P : Params) (s : State) : (initBuffers P s).allocPay = P.minAlloc := rfl
@[simp] theorem initBuffers_allocSym (P : Params) (s : State) : (initBuffers P s).allocSym = P.minAlloc := rfl
@[simp] theorem initBuffers_allocSmp (P : Params) (s : State) : (initBuffers P s).allocSmp = P.minAlloc := rfl
@[simp] theorem initBuffers_resizeCnt (P : Params) (s : State) : (initBuffers P s).resizeCnt = 0#32 := rfl
@[simp] theorem initBuffers_outCap (P : Params) (s : State) : (initBuffers P s).outCap = s.outCap := rfl
@[simp] theorem initBuffers_outCount (P : Params) (s : State) : (initBuffers P s).outCount = s.outCount := rfl
@[simp] theorem initBuffers_faultExp (P : Params) (s : State) : (initBuffers P s).faultExp = s.faultExp := rfl
@[simp] theorem initBuffers_faultCnt (P : Params) (s : State) : (initBuffers P s).faultCnt = s.faultCnt := rfl
@[simp] theorem initBuffers_hdrIn0 (P : Params) (s : State) : (initBuffers P s).hdrIn0 = s.hdrIn0 := rfl
@[simp] theorem initBuffers_hdrIn1 (P : Params) (s : State) : (initBuffers P s).hdrIn1 = s.hdrIn1 := rfl
@[simp] theorem initBuffers_lfsr (P : Params) (s : State) : (initBuffers P s).lfsr = s.lfsr := rfl
@[simp] theorem initBuffers_pnSeq (P : Params) (s : State) : (initBuffers P s).pnSeq = s.pnSeq := rfl
@[simp] theorem initBuffers_hdrRaw (P : Params) (s : State) : (initBuffers P s).hdrRaw = s.hdrRaw := rfl
@[simp] theorem initBuffers_hdrEnc (P : Params) (s : State) : (initBuffers P s).hdrEnc = s.hdrEnc := rfl
@[simp] theorem initBuffers_hdrSym (P : Params) (s : State) : (initBuffers P s).hdrSym = s.hdrSym := rfl
@[simp] theorem initBuffers_seg (P : Params) (s : State) : (initBuffers P s).seg = s.seg := rfl
@[simp] theorem initBuffers_n (P : Params) (s : State) : (initBuffers P s).n = s.n := rfl
@[simp] theorem initBuffers_payBuf (P : Params) (s : State) : (initBuffers P s).payBuf = s.payBuf := rfl
@[simp] theorem initBuffers_paySym (P : Params) (s : State) : (initBuffers P s).paySym = s.paySym := rfl
@[simp] theorem initBuffers_paySmp (P : Params) (s : State) : (initBuffers P s).paySmp = s.paySmp := rfl
@[simp] theorem initBuffers_modSel (P : Params) (s : State) : (initBuffers P s).modSel = s.modSel := rfl
@[simp] theorem initBuffers_mem (P : Params) (s : State) : (initBuffers P s).mem = s.mem := rfl
@[simp] theorem initBuffers_memDraw (P : Params) (s : State) : (initBuffers P s).memDraw = s.memDraw := rfl
@[simp] theorem initBuffers_draws (P : Params) (s : State) : (initBuffers P s).draws = s.draws := rfl
@[simp] theorem initBuffers_pending (P : Params) (s : State) : (initBuffers P s).pending = s.pending := rfl
@[simp] theorem initBuffers_responses (P : Params) (s : State) : (initBuffers P s).responses = s.responses := rfl

/-! ### pnGenerate -/

@[simp] theorem pnGenerate_created (P : Params) (s : State) : (pnGenerate P s).created = s.created := rfl
@[simp] theorem pnGenerate_fault (P : Params) (s : State) : (pnGenerate P s).fault = s.fault := rfl
@[simp] theorem pnGenerate_busy (P : Params) (s : State) : (pnGenerate P s).busy = s.busy := rfl
@[simp] theorem pnGenerate_lastErr (P : Params) (s : State) : (pnGenerate P s).lastErr = s.lastErr := rfl
@[simp] theorem pnGenerate_rdDivSel (P : Params) (s : State) : (pnGenerate P s).rdDivSel = s.rdDivSel := rfl
@[simp] theorem pnGenerate_staged (P : Params) (s : State) : (pnGenerate P s).staged = s.staged := rfl
@[simp] theorem pnGenerate_live (P : Params) (s : State) : (pnGenerate P s).live = s.live := rfl
@[simp] theorem pnGenerate_geoNsym (P : Params) (s : State) : (pnGenerate P s).geoNsym = s.geoNsym := rfl
@[simp] theorem pnGenerate_geoFrameLen (P : Params) (s : State) : (pnGenerate P s).geoFrameLen = s.geoFrameLen := rfl
@[simp] theorem pnGenerate_allocPay (P : Params) (s : State) : (pnGenerate P s).allocPay = s.allocPay := rfl
@[simp] theorem pnGenerate_allocSym (P : Params) (s : State) : (pnGenerate P s).allocSym = s.allocSym := rfl
@[simp] theorem pnGenerate_allocSmp (P : Params) (s : State) : (pnGenerate P s).allocSmp = s.allocSmp := rfl
@[simp] theorem pnGenerate_resizeCnt (P : Params) (s : State) : (pnGenerate P s).resizeCnt = s.resizeCnt := rfl
@[simp] theorem pnGenerate_outCap (P : Params) (s : State) : (pnGenerate P s).outCap = s.outCap := rfl
@[simp] theorem pnGenerate_outCount (P : Params) (s : State) : (pnGenerate P s).outCount = s.outCount := rfl
@[simp] theorem pnGenerate_faultExp (P : Params) (s : State) : (pnGenerate P s).faultExp = s.faultExp := rfl
@[simp] theorem pnGenerate_faultCnt (P : Params) (s : State) : (pnGenerate P s).faultCnt = s.faultCnt := rfl
@[simp] theorem pnGenerate_hdrIn0 (P : Params) (s : State) : (pnGenerate P s).hdrIn0 = s.hdrIn0 := rfl
@[simp] theorem pnGenerate_hdrIn1 (P : Params) (s : State) : (pnGenerate P s).hdrIn1 = s.hdrIn1 := rfl
@[simp] theorem pnGenerate_lfsr (P : Params) (s : State) : (pnGenerate P s).lfsr = pnState P.pnTaps P.pnSeed 64 := rfl
@[simp] theorem pnGenerate_pnSeq (P : Params) (s : State) : (pnGenerate P s).pnSeq = pnBits P.pnTaps P.pnSeed 64 := rfl
@[simp] theorem pnGenerate_hdrRaw (P : Params) (s : State) : (pnGenerate P s).hdrRaw = s.hdrRaw := rfl
@[simp] theorem pnGenerate_hdrEnc (P : Params) (s : State) : (pnGenerate P s).hdrEnc = s.hdrEnc := rfl
@[simp] theorem pnGenerate_hdrSym (P : Params) (s : State) : (pnGenerate P s).hdrSym = s.hdrSym := rfl
@[simp] theorem pnGenerate_seg (P : Params) (s : State) : (pnGenerate P s).seg = s.seg := rfl
@[simp] theorem pnGenerate_n (P : Params) (s : State) : (pnGenerate P s).n = s.n := rfl
@[simp] theorem pnGenerate_payBuf (P : Params) (s : State) : (pnGenerate P s).payBuf = s.payBuf := rfl
@[simp] theorem pnGenerate_paySym (P : Params) (s : State) : (pnGenerate P s).paySym = s.paySym := rfl
@[simp] theorem pnGenerate_paySmp (P : Params) (s : State) : (pnGenerate P s).paySmp = s.paySmp := rfl
@[simp] theorem pnGenerate_modSel (P : Params) (s : State) : (pnGenerate P s).modSel = s.modSel := rfl
@[simp] theorem pnGenerate_mem (P : Params) (s : State) : (pnGenerate P s).mem = s.mem := rfl
@[simp] theorem pnGenerate_memDraw (P : Params) (s : State) : (pnGenerate P s).memDraw = s.memDraw := rfl
@[simp] theorem pnGenerate_draws (P : Params) (s : State) : (pnGenerate P s).draws = s.draws := rfl
@[simp] theorem pnGenerate_pending (P : Params) (s : State) : (pnGenerate P s).pending = s.pending := rfl
@[simp] theorem pnGenerate_responses (P : Params) (s : State) : (pnGenerate P s).responses = s.responses := rfl

/-! ### unspecifyInstance -/

@[simp] theorem unspecifyInstance_created (P : Params) (s : State) : (unspecifyInstance P s).created = s.created := rfl
@[simp] theorem unspecifyInstance_fault (P : Params) (s : State) : (unspecifyInstance P s).fault = s.fault := rfl
@[simp] theorem unspecifyInstance_busy (P : Params) (s : State) : (unspecifyInstance P s).busy = s.busy := rfl
@[simp] theorem unspecifyInstance_lastErr (P : Params) (s : State) : (unspecifyInstance P s).lastErr = s.lastErr := rfl
@[simp] theorem unspecifyInstance_rdDivSel (P : Params) (s : State) : (unspecifyInstance P s).rdDivSel = s.rdDivSel := rfl
@[simp] theorem unspecifyInstance_staged (P : Params) (s : State) : (unspecifyInstance P s).staged = s.staged := rfl
@[simp] theorem unspecifyInstance_live (P : Params) (s : State) : (unspecifyInstance P s).live = s.live := rfl
@[simp] theorem unspecifyInstance_geoNsym (P : Params) (s : State) : (unspecifyInstance P s).geoNsym = s.geoNsym := rfl
@[simp] theorem unspecifyInstance_geoFrameLen (P : Params) (s : State) : (unspecifyInstance P s).geoFrameLen = s.geoFrameLen := rfl
@[simp] theorem unspecifyInstance_allocPay (P : Params) (s : State) : (unspecifyInstance P s).allocPay = s.allocPay := rfl
@[simp] theorem unspecifyInstance_allocSym (P : Params) (s : State) : (unspecifyInstance P s).allocSym = s.allocSym := rfl
@[simp] theorem unspecifyInstance_allocSmp (P : Params) (s : State) : (unspecifyInstance P s).allocSmp = s.allocSmp := rfl
@[simp] theorem unspecifyInstance_resizeCnt (P : Params) (s : State) : (unspecifyInstance P s).resizeCnt = s.resizeCnt := rfl
@[simp] theorem unspecifyInstance_outCap (P : Params) (s : State) : (unspecifyInstance P s).outCap = s.outCap := rfl
@[simp] theorem unspecifyInstance_outCount (P : Params) (s : State) : (unspecifyInstance P s).outCount = s.outCount := rfl
@[simp] theorem unspecifyInstance_faultExp (P : Params) (s : State) : (unspecifyInstance P s).faultExp = s.faultExp := rfl
@[simp] theorem unspecifyInstance_faultCnt (P : Params) (s : State) : (unspecifyInstance P s).faultCnt = s.faultCnt := rfl
@[simp] theorem unspecifyInstance_hdrIn0 (P : Params) (s : State) : (unspecifyInstance P s).hdrIn0 = s.hdrIn0 := rfl
@[simp] theorem unspecifyInstance_hdrIn1 (P : Params) (s : State) : (unspecifyInstance P s).hdrIn1 = s.hdrIn1 := rfl
@[simp] theorem unspecifyInstance_seg (P : Params) (s : State) : (unspecifyInstance P s).seg = s.seg := rfl
@[simp] theorem unspecifyInstance_n (P : Params) (s : State) : (unspecifyInstance P s).n = s.n := rfl
@[simp] theorem unspecifyInstance_payBuf (P : Params) (s : State) : (unspecifyInstance P s).payBuf = ⟨s.draws + 6, []⟩ := rfl
@[simp] theorem unspecifyInstance_paySym (P : Params) (s : State) : (unspecifyInstance P s).paySym = ⟨s.draws + 7, []⟩ := rfl
@[simp] theorem unspecifyInstance_paySmp (P : Params) (s : State) : (unspecifyInstance P s).paySmp = ⟨s.draws + 8, []⟩ := rfl
@[simp] theorem unspecifyInstance_mem (P : Params) (s : State) : (unspecifyInstance P s).mem = s.mem := rfl
@[simp] theorem unspecifyInstance_memDraw (P : Params) (s : State) : (unspecifyInstance P s).memDraw = s.memDraw := rfl
@[simp] theorem unspecifyInstance_draws (P : Params) (s : State) : (unspecifyInstance P s).draws = s.draws + 9 := rfl
@[simp] theorem unspecifyInstance_pending (P : Params) (s : State) : (unspecifyInstance P s).pending = s.pending := rfl
@[simp] theorem unspecifyInstance_responses (P : Params) (s : State) : (unspecifyInstance P s).responses = s.responses := rfl

/-! ### execCapture -/

@[simp] theorem execCapture_created (P : Params) (s : State) : (execCapture P s).created = s.created := rfl
@[simp] theorem execCapture_fault (P : Params) (s : State) : (execCapture P s).fault = s.fault := rfl
@[simp] theorem execCapture_busy (P : Params) (s : State) : (execCapture P s).busy = s.busy := rfl
@[simp] theorem execCapture_lastErr (P : Params) (s : State) : (execCapture P s).lastErr = s.lastErr := rfl
@[simp] theorem execCapture_rdDivSel (P : Params) (s : State) : (execCapture P s).rdDivSel = s.rdDivSel := rfl
@[simp] theorem execCapture_staged (P : Params) (s : State) : (execCapture P s).staged = s.staged := rfl
@[simp] theorem execCapture_live (P : Params) (s : State) : (execCapture P s).live = s.live := rfl
@[simp] theorem execCapture_geoNsym (P : Params) (s : State) : (execCapture P s).geoNsym = s.geoNsym := rfl
@[simp] theorem execCapture_geoFrameLen (P : Params) (s : State) : (execCapture P s).geoFrameLen = s.geoFrameLen := rfl
@[simp] theorem execCapture_allocPay (P : Params) (s : State) : (execCapture P s).allocPay = s.allocPay := rfl
@[simp] theorem execCapture_allocSym (P : Params) (s : State) : (execCapture P s).allocSym = s.allocSym := rfl
@[simp] theorem execCapture_allocSmp (P : Params) (s : State) : (execCapture P s).allocSmp = s.allocSmp := rfl
@[simp] theorem execCapture_resizeCnt (P : Params) (s : State) : (execCapture P s).resizeCnt = s.resizeCnt := rfl
@[simp] theorem execCapture_outCap (P : Params) (s : State) : (execCapture P s).outCap = s.outCap := rfl
@[simp] theorem execCapture_outCount (P : Params) (s : State) : (execCapture P s).outCount = s.outCount := rfl
@[simp] theorem execCapture_faultExp (P : Params) (s : State) : (execCapture P s).faultExp = s.faultExp := rfl
@[simp] theorem execCapture_faultCnt (P : Params) (s : State) : (execCapture P s).faultCnt = s.faultCnt := rfl
@[simp] theorem execCapture_hdrIn0 (P : Params) (s : State) : (execCapture P s).hdrIn0 = s.hdrIn0 := rfl
@[simp] theorem execCapture_hdrIn1 (P : Params) (s : State) : (execCapture P s).hdrIn1 = s.hdrIn1 := rfl
@[simp] theorem execCapture_lfsr (P : Params) (s : State) : (execCapture P s).lfsr = s.lfsr := rfl
@[simp] theorem execCapture_pnSeq (P : Params) (s : State) : (execCapture P s).pnSeq = s.pnSeq := rfl
@[simp] theorem execCapture_hdrRaw (P : Params) (s : State) : (execCapture P s).hdrRaw = userBytes s ++ s.hdrRaw.drop 8 := rfl
@[simp] theorem execCapture_hdrEnc (P : Params) (s : State) : (execCapture P s).hdrEnc = s.hdrEnc := rfl
@[simp] theorem execCapture_hdrSym (P : Params) (s : State) : (execCapture P s).hdrSym = s.hdrSym := rfl
@[simp] theorem execCapture_seg (P : Params) (s : State) : (execCapture P s).seg = s.seg := rfl
@[simp] theorem execCapture_n (P : Params) (s : State) : (execCapture P s).n = s.n := rfl
@[simp] theorem execCapture_payBuf (P : Params) (s : State) : (execCapture P s).payBuf = s.payBuf.put ((List.range s.live.payLen.toNat).map (s.pin P)) := rfl
@[simp] theorem execCapture_paySym (P : Params) (s : State) : (execCapture P s).paySym = s.paySym := rfl
@[simp] theorem execCapture_paySmp (P : Params) (s : State) : (execCapture P s).paySmp = s.paySmp := rfl
@[simp] theorem execCapture_modSel (P : Params) (s : State) : (execCapture P s).modSel = s.modSel := rfl
@[simp] theorem execCapture_mem (P : Params) (s : State) : (execCapture P s).mem = s.mem := rfl
@[simp] theorem execCapture_memDraw (P : Params) (s : State) : (execCapture P s).memDraw = s.memDraw := rfl
@[simp] theorem execCapture_draws (P : Params) (s : State) : (execCapture P s).draws = s.draws := rfl
@[simp] theorem execCapture_pending (P : Params) (s : State) : (execCapture P s).pending = s.pending := rfl
@[simp] theorem execCapture_responses (P : Params) (s : State) : (execCapture P s).responses = s.responses := rfl

/-! ### hdrAssemble -/

@[simp] theorem hdrAssemble_created (s : State) : (hdrAssemble s).created = s.created := rfl
@[simp] theorem hdrAssemble_fault (s : State) : (hdrAssemble s).fault = s.fault := rfl
@[simp] theorem hdrAssemble_busy (s : State) : (hdrAssemble s).busy = s.busy := rfl
@[simp] theorem hdrAssemble_lastErr (s : State) : (hdrAssemble s).lastErr = s.lastErr := rfl
@[simp] theorem hdrAssemble_rdDivSel (s : State) : (hdrAssemble s).rdDivSel = s.rdDivSel := rfl
@[simp] theorem hdrAssemble_staged (s : State) : (hdrAssemble s).staged = s.staged := rfl
@[simp] theorem hdrAssemble_live (s : State) : (hdrAssemble s).live = s.live := rfl
@[simp] theorem hdrAssemble_geoNsym (s : State) : (hdrAssemble s).geoNsym = s.geoNsym := rfl
@[simp] theorem hdrAssemble_geoFrameLen (s : State) : (hdrAssemble s).geoFrameLen = s.geoFrameLen := rfl
@[simp] theorem hdrAssemble_allocPay (s : State) : (hdrAssemble s).allocPay = s.allocPay := rfl
@[simp] theorem hdrAssemble_allocSym (s : State) : (hdrAssemble s).allocSym = s.allocSym := rfl
@[simp] theorem hdrAssemble_allocSmp (s : State) : (hdrAssemble s).allocSmp = s.allocSmp := rfl
@[simp] theorem hdrAssemble_resizeCnt (s : State) : (hdrAssemble s).resizeCnt = s.resizeCnt := rfl
@[simp] theorem hdrAssemble_outCap (s : State) : (hdrAssemble s).outCap = s.outCap := rfl
@[simp] theorem hdrAssemble_outCount (s : State) : (hdrAssemble s).outCount = s.outCount := rfl
@[simp] theorem hdrAssemble_faultExp (s : State) : (hdrAssemble s).faultExp = s.faultExp := rfl
@[simp] theorem hdrAssemble_faultCnt (s : State) : (hdrAssemble s).faultCnt = s.faultCnt := rfl
@[simp] theorem hdrAssemble_hdrIn0 (s : State) : (hdrAssemble s).hdrIn0 = s.hdrIn0 := rfl
@[simp] theorem hdrAssemble_hdrIn1 (s : State) : (hdrAssemble s).hdrIn1 = s.hdrIn1 := rfl
@[simp] theorem hdrAssemble_lfsr (s : State) : (hdrAssemble s).lfsr = s.lfsr := rfl
@[simp] theorem hdrAssemble_pnSeq (s : State) : (hdrAssemble s).pnSeq = s.pnSeq := rfl
@[simp] theorem hdrAssemble_hdrEnc (s : State) : (hdrAssemble s).hdrEnc = s.hdrEnc := rfl
@[simp] theorem hdrAssemble_hdrSym (s : State) : (hdrAssemble s).hdrSym = s.hdrSym := rfl
@[simp] theorem hdrAssemble_seg (s : State) : (hdrAssemble s).seg = s.seg := rfl
@[simp] theorem hdrAssemble_n (s : State) : (hdrAssemble s).n = s.n := rfl
@[simp] theorem hdrAssemble_payBuf (s : State) : (hdrAssemble s).payBuf = s.payBuf := rfl
@[simp] theorem hdrAssemble_paySym (s : State) : (hdrAssemble s).paySym = s.paySym := rfl
@[simp] theorem hdrAssemble_paySmp (s : State) : (hdrAssemble s).paySmp = s.paySmp := rfl
@[simp] theorem hdrAssemble_modSel (s : State) : (hdrAssemble s).modSel = s.modSel := rfl
@[simp] theorem hdrAssemble_mem (s : State) : (hdrAssemble s).mem = s.mem := rfl
@[simp] theorem hdrAssemble_memDraw (s : State) : (hdrAssemble s).memDraw = s.memDraw := rfl
@[simp] theorem hdrAssemble_draws (s : State) : (hdrAssemble s).draws = s.draws := rfl
@[simp] theorem hdrAssemble_pending (s : State) : (hdrAssemble s).pending = s.pending := rfl
@[simp] theorem hdrAssemble_responses (s : State) : (hdrAssemble s).responses = s.responses := rfl

/-! ### hdrChecksum -/

@[simp] theorem hdrChecksum_created (P : Params) (s : State) : (hdrChecksum P s).created = s.created := rfl
@[simp] theorem hdrChecksum_fault (P : Params) (s : State) : (hdrChecksum P s).fault = s.fault := rfl
@[simp] theorem hdrChecksum_busy (P : Params) (s : State) : (hdrChecksum P s).busy = s.busy := rfl
@[simp] theorem hdrChecksum_lastErr (P : Params) (s : State) : (hdrChecksum P s).lastErr = s.lastErr := rfl
@[simp] theorem hdrChecksum_rdDivSel (P : Params) (s : State) : (hdrChecksum P s).rdDivSel = s.rdDivSel := rfl
@[simp] theorem hdrChecksum_staged (P : Params) (s : State) : (hdrChecksum P s).staged = s.staged := rfl
@[simp] theorem hdrChecksum_live (P : Params) (s : State) : (hdrChecksum P s).live = s.live := rfl
@[simp] theorem hdrChecksum_geoNsym (P : Params) (s : State) : (hdrChecksum P s).geoNsym = s.geoNsym := rfl
@[simp] theorem hdrChecksum_geoFrameLen (P : Params) (s : State) : (hdrChecksum P s).geoFrameLen = s.geoFrameLen := rfl
@[simp] theorem hdrChecksum_allocPay (P : Params) (s : State) : (hdrChecksum P s).allocPay = s.allocPay := rfl
@[simp] theorem hdrChecksum_allocSym (P : Params) (s : State) : (hdrChecksum P s).allocSym = s.allocSym := rfl
@[simp] theorem hdrChecksum_allocSmp (P : Params) (s : State) : (hdrChecksum P s).allocSmp = s.allocSmp := rfl
@[simp] theorem hdrChecksum_resizeCnt (P : Params) (s : State) : (hdrChecksum P s).resizeCnt = s.resizeCnt := rfl
@[simp] theorem hdrChecksum_outCap (P : Params) (s : State) : (hdrChecksum P s).outCap = s.outCap := rfl
@[simp] theorem hdrChecksum_outCount (P : Params) (s : State) : (hdrChecksum P s).outCount = s.outCount := rfl
@[simp] theorem hdrChecksum_faultExp (P : Params) (s : State) : (hdrChecksum P s).faultExp = s.faultExp := rfl
@[simp] theorem hdrChecksum_faultCnt (P : Params) (s : State) : (hdrChecksum P s).faultCnt = s.faultCnt := rfl
@[simp] theorem hdrChecksum_hdrIn0 (P : Params) (s : State) : (hdrChecksum P s).hdrIn0 = s.hdrIn0 := rfl
@[simp] theorem hdrChecksum_hdrIn1 (P : Params) (s : State) : (hdrChecksum P s).hdrIn1 = s.hdrIn1 := rfl
@[simp] theorem hdrChecksum_lfsr (P : Params) (s : State) : (hdrChecksum P s).lfsr = s.lfsr := rfl
@[simp] theorem hdrChecksum_pnSeq (P : Params) (s : State) : (hdrChecksum P s).pnSeq = s.pnSeq := rfl
@[simp] theorem hdrChecksum_hdrRaw (P : Params) (s : State) : (hdrChecksum P s).hdrRaw = s.hdrRaw.take 11 ++ wordBytesBE (P.checksum32 (s.hdrRaw.take 11)) := rfl
@[simp] theorem hdrChecksum_hdrEnc (P : Params) (s : State) : (hdrChecksum P s).hdrEnc = s.hdrEnc := rfl
@[simp] theorem hdrChecksum_hdrSym (P : Params) (s : State) : (hdrChecksum P s).hdrSym = s.hdrSym := rfl
@[simp] theorem hdrChecksum_seg (P : Params) (s : State) : (hdrChecksum P s).seg = s.seg := rfl
@[simp] theorem hdrChecksum_n (P : Params) (s : State) : (hdrChecksum P s).n = s.n := rfl
@[simp] theorem hdrChecksum_payBuf (P : Params) (s : State) : (hdrChecksum P s).payBuf = s.payBuf := rfl
@[simp] theorem hdrChecksum_paySym (P : Params) (s : State) : (hdrChecksum P s).paySym = s.paySym := rfl
@[simp] theorem hdrChecksum_paySmp (P : Params) (s : State) : (hdrChecksum P s).paySmp = s.paySmp := rfl
@[simp] theorem hdrChecksum_modSel (P : Params) (s : State) : (hdrChecksum P s).modSel = s.modSel := rfl
@[simp] theorem hdrChecksum_mem (P : Params) (s : State) : (hdrChecksum P s).mem = s.mem := rfl
@[simp] theorem hdrChecksum_memDraw (P : Params) (s : State) : (hdrChecksum P s).memDraw = s.memDraw := rfl
@[simp] theorem hdrChecksum_draws (P : Params) (s : State) : (hdrChecksum P s).draws = s.draws := rfl
@[simp] theorem hdrChecksum_pending (P : Params) (s : State) : (hdrChecksum P s).pending = s.pending := rfl
@[simp] theorem hdrChecksum_responses (P : Params) (s : State) : (hdrChecksum P s).responses = s.responses := rfl

/-! ### hdrScramble -/

@[simp] theorem hdrScramble_created (P : Params) (s : State) : (hdrScramble P s).created = s.created := rfl
@[simp] theorem hdrScramble_fault (P : Params) (s : State) : (hdrScramble P s).fault = s.fault := rfl
@[simp] theorem hdrScramble_busy (P : Params) (s : State) : (hdrScramble P s).busy = s.busy := rfl
@[simp] theorem hdrScramble_lastErr (P : Params) (s : State) : (hdrScramble P s).lastErr = s.lastErr := rfl
@[simp] theorem hdrScramble_rdDivSel (P : Params) (s : State) : (hdrScramble P s).rdDivSel = s.rdDivSel := rfl
@[simp] theorem hdrScramble_staged (P : Params) (s : State) : (hdrScramble P s).staged = s.staged := rfl
@[simp] theorem hdrScramble_live (P : Params) (s : State) : (hdrScramble P s).live = s.live := rfl
@[simp] theorem hdrScramble_geoNsym (P : Params) (s : State) : (hdrScramble P s).geoNsym = s.geoNsym := rfl
@[simp] theorem hdrScramble_geoFrameLen (P : Params) (s : State) : (hdrScramble P s).geoFrameLen = s.geoFrameLen := rfl
@[simp] theorem hdrScramble_allocPay (P : Params) (s : State) : (hdrScramble P s).allocPay = s.allocPay := rfl
@[simp] theorem hdrScramble_allocSym (P : Params) (s : State) : (hdrScramble P s).allocSym = s.allocSym := rfl
@[simp] theorem hdrScramble_allocSmp (P : Params) (s : State) : (hdrScramble P s).allocSmp = s.allocSmp := rfl
@[simp] theorem hdrScramble_resizeCnt (P : Params) (s : State) : (hdrScramble P s).resizeCnt = s.resizeCnt := rfl
@[simp] theorem hdrScramble_outCap (P : Params) (s : State) : (hdrScramble P s).outCap = s.outCap := rfl
@[simp] theorem hdrScramble_outCount (P : Params) (s : State) : (hdrScramble P s).outCount = s.outCount := rfl
@[simp] theorem hdrScramble_faultExp (P : Params) (s : State) : (hdrScramble P s).faultExp = s.faultExp := rfl
@[simp] theorem hdrScramble_faultCnt (P : Params) (s : State) : (hdrScramble P s).faultCnt = s.faultCnt := rfl
@[simp] theorem hdrScramble_hdrIn0 (P : Params) (s : State) : (hdrScramble P s).hdrIn0 = s.hdrIn0 := rfl
@[simp] theorem hdrScramble_hdrIn1 (P : Params) (s : State) : (hdrScramble P s).hdrIn1 = s.hdrIn1 := rfl
@[simp] theorem hdrScramble_lfsr (P : Params) (s : State) : (hdrScramble P s).lfsr = s.lfsr := rfl
@[simp] theorem hdrScramble_pnSeq (P : Params) (s : State) : (hdrScramble P s).pnSeq = s.pnSeq := rfl
@[simp] theorem hdrScramble_hdrRaw (P : Params) (s : State) : (hdrScramble P s).hdrRaw = P.scramble s.hdrRaw := rfl
@[simp] theorem hdrScramble_hdrEnc (P : Params) (s : State) : (hdrScramble P s).hdrEnc = s.hdrEnc := rfl
@[simp] theorem hdrScramble_hdrSym (P : Params) (s : State) : (hdrScramble P s).hdrSym = s.hdrSym := rfl
@[simp] theorem hdrScramble_seg (P : Params) (s : State) : (hdrScramble P s).seg = s.seg := rfl
@[simp] theorem hdrScramble_n (P : Params) (s : State) : (hdrScramble P s).n = s.n := rfl
@[simp] theorem hdrScramble_payBuf (P : Params) (s : State) : (hdrScramble P s).payBuf = s.payBuf := rfl
@[simp] theorem hdrScramble_paySym (P : Params) (s : State) : (hdrScramble P s).paySym = s.paySym := rfl
@[simp] theorem hdrScramble_paySmp (P : Params) (s : State) : (hdrScramble P s).paySmp = s.paySmp := rfl
@[simp] theorem hdrScramble_modSel (P : Params) (s : State) : (hdrScramble P s).modSel = s.modSel := rfl
@[simp] theorem hdrScramble_mem (P : Params) (s : State) : (hdrScramble P s).mem = s.mem := rfl
@[simp] theorem hdrScramble_memDraw (P : Params) (s : State) : (hdrScramble P s).memDraw = s.memDraw := rfl
@[simp] theorem hdrScramble_draws (P : Params) (s : State) : (hdrScramble P s).draws = s.draws := rfl
@[simp] theorem hdrScramble_pending (P : Params) (s : State) : (hdrScramble P s).pending = s.pending := rfl
@[simp] theorem hdrScramble_responses (P : Params) (s : State) : (hdrScramble P s).responses = s.responses := rfl

/-! ### hdrFec -/

@[simp] theorem hdrFec_created (P : Params) (s : State) : (hdrFec P s).created = s.created := rfl
@[simp] theorem hdrFec_fault (P : Params) (s : State) : (hdrFec P s).fault = s.fault := rfl
@[simp] theorem hdrFec_busy (P : Params) (s : State) : (hdrFec P s).busy = s.busy := rfl
@[simp] theorem hdrFec_lastErr (P : Params) (s : State) : (hdrFec P s).lastErr = s.lastErr := rfl
@[simp] theorem hdrFec_rdDivSel (P : Params) (s : State) : (hdrFec P s).rdDivSel = s.rdDivSel := rfl
@[simp] theorem hdrFec_staged (P : Params) (s : State) : (hdrFec P s).staged = s.staged := rfl
@[simp] theorem hdrFec_live (P : Params) (s : State) : (hdrFec P s).live = s.live := rfl
@[simp] theorem hdrFec_geoNsym (P : Params) (s : State) : (hdrFec P s).geoNsym = s.geoNsym := rfl
@[simp] theorem hdrFec_geoFrameLen (P : Params) (s : State) : (hdrFec P s).geoFrameLen = s.geoFrameLen := rfl
@[simp] theorem hdrFec_allocPay (P : Params) (s : State) : (hdrFec P s).allocPay = s.allocPay := rfl
@[simp] theorem hdrFec_allocSym (P : Params) (s : State) : (hdrFec P s).allocSym = s.allocSym := rfl
@[simp] theorem hdrFec_allocSmp (P : Params) (s : State) : (hdrFec P s).allocSmp = s.allocSmp := rfl
@[simp] theorem hdrFec_resizeCnt (P : Params) (s : State) : (hdrFec P s).resizeCnt = s.resizeCnt := rfl
@[simp] theorem hdrFec_outCap (P : Params) (s : State) : (hdrFec P s).outCap = s.outCap := rfl
@[simp] theorem hdrFec_outCount (P : Params) (s : State) : (hdrFec P s).outCount = s.outCount := rfl
@[simp] theorem hdrFec_faultExp (P : Params) (s : State) : (hdrFec P s).faultExp = s.faultExp := rfl
@[simp] theorem hdrFec_faultCnt (P : Params) (s : State) : (hdrFec P s).faultCnt = s.faultCnt := rfl
@[simp] theorem hdrFec_hdrIn0 (P : Params) (s : State) : (hdrFec P s).hdrIn0 = s.hdrIn0 := rfl
@[simp] theorem hdrFec_hdrIn1 (P : Params) (s : State) : (hdrFec P s).hdrIn1 = s.hdrIn1 := rfl
@[simp] theorem hdrFec_lfsr (P : Params) (s : State) : (hdrFec P s).lfsr = s.lfsr := rfl
@[simp] theorem hdrFec_pnSeq (P : Params) (s : State) : (hdrFec P s).pnSeq = s.pnSeq := rfl
@[simp] theorem hdrFec_hdrRaw (P : Params) (s : State) : (hdrFec P s).hdrRaw = s.hdrRaw := rfl
@[simp] theorem hdrFec_hdrSym (P : Params) (s : State) : (hdrFec P s).hdrSym = s.hdrSym := rfl
@[simp] theorem hdrFec_seg (P : Params) (s : State) : (hdrFec P s).seg = s.seg := rfl
@[simp] theorem hdrFec_n (P : Params) (s : State) : (hdrFec P s).n = s.n := rfl
@[simp] theorem hdrFec_payBuf (P : Params) (s : State) : (hdrFec P s).payBuf = s.payBuf := rfl
@[simp] theorem hdrFec_paySym (P : Params) (s : State) : (hdrFec P s).paySym = s.paySym := rfl
@[simp] theorem hdrFec_paySmp (P : Params) (s : State) : (hdrFec P s).paySmp = s.paySmp := rfl
@[simp] theorem hdrFec_modSel (P : Params) (s : State) : (hdrFec P s).modSel = s.modSel := rfl
@[simp] theorem hdrFec_mem (P : Params) (s : State) : (hdrFec P s).mem = s.mem := rfl
@[simp] theorem hdrFec_memDraw (P : Params) (s : State) : (hdrFec P s).memDraw = s.memDraw := rfl
@[simp] theorem hdrFec_draws (P : Params) (s : State) : (hdrFec P s).draws = s.draws := rfl
@[simp] theorem hdrFec_pending (P : Params) (s : State) : (hdrFec P s).pending = s.pending := rfl
@[simp] theorem hdrFec_responses (P : Params) (s : State) : (hdrFec P s).responses = s.responses := rfl

/-! ### hdrInterleave -/

@[simp] theorem hdrInterleave_created (P : Params) (s : State) : (hdrInterleave P s).created = s.created := rfl
@[simp] theorem hdrInterleave_fault (P : Params) (s : State) : (hdrInterleave P s).fault = s.fault := rfl
@[simp] theorem hdrInterleave_busy (P : Params) (s : State) : (hdrInterleave P s).busy = s.busy := rfl
@[simp] theorem hdrInterleave_lastErr (P : Params) (s : State) : (hdrInterleave P s).lastErr = s.lastErr := rfl
@[simp] theorem hdrInterleave_rdDivSel (P : Params) (s : State) : (hdrInterleave P s).rdDivSel = s.rdDivSel := rfl
@[simp] theorem hdrInterleave_staged (P : Params) (s : State) : (hdrInterleave P s).staged = s.staged := rfl
@[simp] theorem hdrInterleave_live (P : Params) (s : State) : (hdrInterleave P s).live = s.live := rfl
@[simp] theorem hdrInterleave_geoNsym (P : Params) (s : State) : (hdrInterleave P s).geoNsym = s.geoNsym := rfl
@[simp] theorem hdrInterleave_geoFrameLen (P : Params) (s : State) : (hdrInterleave P s).geoFrameLen = s.geoFrameLen := rfl
@[simp] theorem hdrInterleave_allocPay (P : Params) (s : State) : (hdrInterleave P s).allocPay = s.allocPay := rfl
@[simp] theorem hdrInterleave_allocSym (P : Params) (s : State) : (hdrInterleave P s).allocSym = s.allocSym := rfl
@[simp] theorem hdrInterleave_allocSmp (P : Params) (s : State) : (hdrInterleave P s).allocSmp = s.allocSmp := rfl
@[simp] theorem hdrInterleave_resizeCnt (P : Params) (s : State) : (hdrInterleave P s).resizeCnt = s.resizeCnt := rfl
@[simp] theorem hdrInterleave_outCap (P : Params) (s : State) : (hdrInterleave P s).outCap = s.outCap := rfl
@[simp] theorem hdrInterleave_outCount (P : Params) (s : State) : (hdrInterleave P s).outCount = s.outCount := rfl
@[simp] theorem hdrInterleave_faultExp (P : Params) (s : State) : (hdrInterleave P s).faultExp = s.faultExp := rfl
@[simp] theorem hdrInterleave_faultCnt (P : Params) (s : State) : (hdrInterleave P s).faultCnt = s.faultCnt := rfl
@[simp] theorem hdrInterleave_hdrIn0 (P : Params) (s : State) : (hdrInterleave P s).hdrIn0 = s.hdrIn0 := rfl
@[simp] theorem hdrInterleave_hdrIn1 (P : Params) (s : State) : (hdrInterleave P s).hdrIn1 = s.hdrIn1 := rfl
@[simp] theorem hdrInterleave_lfsr (P : Params) (s : State) : (hdrInterleave P s).lfsr = s.lfsr := rfl
@[simp] theorem hdrInterleave_pnSeq (P : Params) (s : State) : (hdrInterleave P s).pnSeq = s.pnSeq := rfl
@[simp] theorem hdrInterleave_hdrRaw (P : Params) (s : State) : (hdrInterleave P s).hdrRaw = s.hdrRaw := rfl
@[simp] theorem hdrInterleave_hdrSym (P : Params) (s : State) : (hdrInterleave P s).hdrSym = s.hdrSym := rfl
@[simp] theorem hdrInterleave_seg (P : Params) (s : State) : (hdrInterleave P s).seg = s.seg := rfl
@[simp] theorem hdrInterleave_n (P : Params) (s : State) : (hdrInterleave P s).n = s.n := rfl
@[simp] theorem hdrInterleave_payBuf (P : Params) (s : State) : (hdrInterleave P s).payBuf = s.payBuf := rfl
@[simp] theorem hdrInterleave_paySym (P : Params) (s : State) : (hdrInterleave P s).paySym = s.paySym := rfl
@[simp] theorem hdrInterleave_paySmp (P : Params) (s : State) : (hdrInterleave P s).paySmp = s.paySmp := rfl
@[simp] theorem hdrInterleave_modSel (P : Params) (s : State) : (hdrInterleave P s).modSel = s.modSel := rfl
@[simp] theorem hdrInterleave_mem (P : Params) (s : State) : (hdrInterleave P s).mem = s.mem := rfl
@[simp] theorem hdrInterleave_memDraw (P : Params) (s : State) : (hdrInterleave P s).memDraw = s.memDraw := rfl
@[simp] theorem hdrInterleave_draws (P : Params) (s : State) : (hdrInterleave P s).draws = s.draws := rfl
@[simp] theorem hdrInterleave_pending (P : Params) (s : State) : (hdrInterleave P s).pending = s.pending := rfl
@[simp] theorem hdrInterleave_responses (P : Params) (s : State) : (hdrInterleave P s).responses = s.responses := rfl

/-! ### hdrEncode -/

@[simp] theorem hdrEncode_created (P : Params) (s : State) : (hdrEncode P s).created = s.created := by simp [hdrEncode]
@[simp] theorem hdrEncode_fault (P : Params) (s : State) : (hdrEncode P s).fault = s.fault := by simp [hdrEncode]
@[simp] theorem hdrEncode_busy (P : Params) (s : State) : (hdrEncode P s).busy = s.busy := by simp [hdrEncode]
@[simp] theorem hdrEncode_lastErr (P : Params) (s : State) : (hdrEncode P s).lastErr = s.lastErr := by simp [hdrEncode]
@[simp] theorem hdrEncode_rdDivSel (P : Params) (s : State) : (hdrEncode P s).rdDivSel = s.rdDivSel := by simp [hdrEncode]
@[simp] theorem hdrEncode_staged (P : Params) (s : State) : (hdrEncode P s).staged = s.staged := by simp [hdrEncode]
@[simp] theorem hdrEncode_live (P : Params) (s : State) : (hdrEncode P s).live = s.live := by simp [hdrEncode]
@[simp] theorem hdrEncode_geoNsym (P : Params) (s : State) : (hdrEncode P s).geoNsym = s.geoNsym := by simp [hdrEncode]
@[simp] theorem hdrEncode_geoFrameLen (P : Params) (s : State) : (hdrEncode P s).geoFrameLen = s.geoFrameLen := by simp [hdrEncode]
@[simp] theorem hdrEncode_allocPay (P : Params) (s : State) : (hdrEncode P s).allocPay = s.allocPay := by simp [hdrEncode]
@[simp] theorem hdrEncode_allocSym (P : Params) (s : State) : (hdrEncode P s).allocSym = s.allocSym := by simp [hdrEncode]
@[simp] theorem hdrEncode_allocSmp (P : Params) (s : State) : (hdrEncode P s).allocSmp = s.allocSmp := by simp [hdrEncode]
@[simp] theorem hdrEncode_resizeCnt (P : Params) (s : State) : (hdrEncode P s).resizeCnt = s.resizeCnt := by simp [hdrEncode]
@[simp] theorem hdrEncode_outCap (P : Params) (s : State) : (hdrEncode P s).outCap = s.outCap := by simp [hdrEncode]
@[simp] theorem hdrEncode_outCount (P : Params) (s : State) : (hdrEncode P s).outCount = s.outCount := by simp [hdrEncode]
@[simp] theorem hdrEncode_faultExp (P : Params) (s : State) : (hdrEncode P s).faultExp = s.faultExp := by simp [hdrEncode]
@[simp] theorem hdrEncode_faultCnt (P : Params) (s : State) : (hdrEncode P s).faultCnt = s.faultCnt := by simp [hdrEncode]
@[simp] theorem hdrEncode_hdrIn0 (P : Params) (s : State) : (hdrEncode P s).hdrIn0 = s.hdrIn0 := by simp [hdrEncode]
@[simp] theorem hdrEncode_hdrIn1 (P : Params) (s : State) : (hdrEncode P s).hdrIn1 = s.hdrIn1 := by simp [hdrEncode]
@[simp] theorem hdrEncode_lfsr (P : Params) (s : State) : (hdrEncode P s).lfsr = s.lfsr := by simp [hdrEncode]
@[simp] theorem hdrEncode_pnSeq (P : Params) (s : State) : (hdrEncode P s).pnSeq = s.pnSeq := by simp [hdrEncode]
@[simp] theorem hdrEncode_hdrSym (P : Params) (s : State) : (hdrEncode P s).hdrSym = s.hdrSym := by simp [hdrEncode]
@[simp] theorem hdrEncode_seg (P : Params) (s : State) : (hdrEncode P s).seg = s.seg := by simp [hdrEncode]
@[simp] theorem hdrEncode_n (P : Params) (s : State) : (hdrEncode P s).n = s.n := by simp [hdrEncode]
@[simp] theorem hdrEncode_payBuf (P : Params) (s : State) : (hdrEncode P s).payBuf = s.payBuf := by simp [hdrEncode]
@[simp] theorem hdrEncode_paySym (P : Params) (s : State) : (hdrEncode P s).paySym = s.paySym := by simp [hdrEncode]
@[simp] theorem hdrEncode_paySmp (P : Params) (s : State) : (hdrEncode P s).paySmp = s.paySmp := by simp [hdrEncode]
@[simp] theorem hdrEncode_modSel (P : Params) (s : State) : (hdrEncode P s).modSel = s.modSel := by simp [hdrEncode]
@[simp] theorem hdrEncode_mem (P : Params) (s : State) : (hdrEncode P s).mem = s.mem := by simp [hdrEncode]
@[simp] theorem hdrEncode_memDraw (P : Params) (s : State) : (hdrEncode P s).memDraw = s.memDraw := by simp [hdrEncode]
@[simp] theorem hdrEncode_draws (P : Params) (s : State) : (hdrEncode P s).draws = s.draws := by simp [hdrEncode]
@[simp] theorem hdrEncode_pending (P : Params) (s : State) : (hdrEncode P s).pending = s.pending := by simp [hdrEncode]
@[simp] theorem hdrEncode_responses (P : Params) (s : State) : (hdrEncode P s).responses = s.responses := by simp [hdrEncode]

/-! ### hdrModulate -/

@[simp] theorem hdrModulate_created (P : Params) (s : State) : (hdrModulate P s).created = s.created := rfl
@[simp] theorem hdrModulate_fault (P : Params) (s : State) : (hdrModulate P s).fault = s.fault := rfl
@[simp] theorem hdrModulate_busy (P : Params) (s : State) : (hdrModulate P s).busy = s.busy := rfl
@[simp] theorem hdrModulate_lastErr (P : Params) (s : State) : (hdrModulate P s).lastErr = s.lastErr := rfl
@[simp] theorem hdrModulate_rdDivSel (P : Params) (s : State) : (hdrModulate P s).rdDivSel = s.rdDivSel := rfl
@[simp] theorem hdrModulate_staged (P : Params) (s : State) : (hdrModulate P s).staged = s.staged := rfl
@[simp] theorem hdrModulate_live (P : Params) (s : State) : (hdrModulate P s).live = s.live := rfl
@[simp] theorem hdrModulate_geoNsym (P : Params) (s : State) : (hdrModulate P s).geoNsym = s.geoNsym := rfl
@[simp] theorem hdrModulate_geoFrameLen (P : Params) (s : State) : (hdrModulate P s).geoFrameLen = s.geoFrameLen := rfl
@[simp] theorem hdrModulate_allocPay (P : Params) (s : State) : (hdrModulate P s).allocPay = s.allocPay := rfl
@[simp] theorem hdrModulate_allocSym (P : Params) (s : State) : (hdrModulate P s).allocSym = s.allocSym := rfl
@[simp] theorem hdrModulate_allocSmp (P : Params) (s : State) : (hdrModulate P s).allocSmp = s.allocSmp := rfl
@[simp] theorem hdrModulate_resizeCnt (P : Params) (s : State) : (hdrModulate P s).resizeCnt = s.resizeCnt := rfl
@[simp] theorem hdrModulate_outCap (P : Params) (s : State) : (hdrModulate P s).outCap = s.outCap := rfl
@[simp] theorem hdrModulate_outCount (P : Params) (s : State) : (hdrModulate P s).outCount = s.outCount := rfl
@[simp] theorem hdrModulate_faultExp (P : Params) (s : State) : (hdrModulate P s).faultExp = s.faultExp := rfl
@[simp] theorem hdrModulate_faultCnt (P : Params) (s : State) : (hdrModulate P s).faultCnt = s.faultCnt := rfl
@[simp] theorem hdrModulate_hdrIn0 (P : Params) (s : State) : (hdrModulate P s).hdrIn0 = s.hdrIn0 := rfl
@[simp] theorem hdrModulate_hdrIn1 (P : Params) (s : State) : (hdrModulate P s).hdrIn1 = s.hdrIn1 := rfl
@[simp] theorem hdrModulate_lfsr (P : Params) (s : State) : (hdrModulate P s).lfsr = s.lfsr := rfl
@[simp] theorem hdrModulate_pnSeq (P : Params) (s : State) : (hdrModulate P s).pnSeq = s.pnSeq := rfl
@[simp] theorem hdrModulate_hdrRaw (P : Params) (s : State) : (hdrModulate P s).hdrRaw = s.hdrRaw := rfl
@[simp] theorem hdrModulate_hdrEnc (P : Params) (s : State) : (hdrModulate P s).hdrEnc = s.hdrEnc := rfl
@[simp] theorem hdrModulate_seg (P : Params) (s : State) : (hdrModulate P s).seg = s.seg := rfl
@[simp] theorem hdrModulate_n (P : Params) (s : State) : (hdrModulate P s).n = s.n := rfl
@[simp] theorem hdrModulate_payBuf (P : Params) (s : State) : (hdrModulate P s).payBuf = s.payBuf := rfl
@[simp] theorem hdrModulate_paySym (P : Params) (s : State) : (hdrModulate P s).paySym = s.paySym := rfl
@[simp] theorem hdrModulate_paySmp (P : Params) (s : State) : (hdrModulate P s).paySmp = s.paySmp := rfl
@[simp] theorem hdrModulate_modSel (P : Params) (s : State) : (hdrModulate P s).modSel = s.modSel := rfl
@[simp] theorem hdrModulate_mem (P : Params) (s : State) : (hdrModulate P s).mem = s.mem := rfl
@[simp] theorem hdrModulate_memDraw (P : Params) (s : State) : (hdrModulate P s).memDraw = s.memDraw := rfl
@[simp] theorem hdrModulate_draws (P : Params) (s : State) : (hdrModulate P s).draws = s.draws := rfl
@[simp] theorem hdrModulate_pending (P : Params) (s : State) : (hdrModulate P s).pending = s.pending := rfl
@[simp] theorem hdrModulate_responses (P : Params) (s : State) : (hdrModulate P s).responses = s.responses := rfl

/-! ### payClear -/

@[simp] theorem payClear_created (s : State) : (payClear s).created = s.created := rfl
@[simp] theorem payClear_fault (s : State) : (payClear s).fault = s.fault := rfl
@[simp] theorem payClear_busy (s : State) : (payClear s).busy = s.busy := rfl
@[simp] theorem payClear_lastErr (s : State) : (payClear s).lastErr = s.lastErr := rfl
@[simp] theorem payClear_rdDivSel (s : State) : (payClear s).rdDivSel = s.rdDivSel := rfl
@[simp] theorem payClear_staged (s : State) : (payClear s).staged = s.staged := rfl
@[simp] theorem payClear_live (s : State) : (payClear s).live = s.live := rfl
@[simp] theorem payClear_geoNsym (s : State) : (payClear s).geoNsym = s.geoNsym := rfl
@[simp] theorem payClear_geoFrameLen (s : State) : (payClear s).geoFrameLen = s.geoFrameLen := rfl
@[simp] theorem payClear_allocPay (s : State) : (payClear s).allocPay = s.allocPay := rfl
@[simp] theorem payClear_allocSym (s : State) : (payClear s).allocSym = s.allocSym := rfl
@[simp] theorem payClear_allocSmp (s : State) : (payClear s).allocSmp = s.allocSmp := rfl
@[simp] theorem payClear_resizeCnt (s : State) : (payClear s).resizeCnt = s.resizeCnt := rfl
@[simp] theorem payClear_outCap (s : State) : (payClear s).outCap = s.outCap := rfl
@[simp] theorem payClear_outCount (s : State) : (payClear s).outCount = s.outCount := rfl
@[simp] theorem payClear_faultExp (s : State) : (payClear s).faultExp = s.faultExp := rfl
@[simp] theorem payClear_faultCnt (s : State) : (payClear s).faultCnt = s.faultCnt := rfl
@[simp] theorem payClear_hdrIn0 (s : State) : (payClear s).hdrIn0 = s.hdrIn0 := rfl
@[simp] theorem payClear_hdrIn1 (s : State) : (payClear s).hdrIn1 = s.hdrIn1 := rfl
@[simp] theorem payClear_lfsr (s : State) : (payClear s).lfsr = s.lfsr := rfl
@[simp] theorem payClear_pnSeq (s : State) : (payClear s).pnSeq = s.pnSeq := rfl
@[simp] theorem payClear_hdrRaw (s : State) : (payClear s).hdrRaw = s.hdrRaw := rfl
@[simp] theorem payClear_hdrEnc (s : State) : (payClear s).hdrEnc = s.hdrEnc := rfl
@[simp] theorem payClear_hdrSym (s : State) : (payClear s).hdrSym = s.hdrSym := rfl
@[simp] theorem payClear_seg (s : State) : (payClear s).seg = s.seg := rfl
@[simp] theorem payClear_n (s : State) : (payClear s).n = s.n := rfl
@[simp] theorem payClear_payBuf (s : State) : (payClear s).payBuf = s.payBuf := rfl
@[simp] theorem payClear_paySym (s : State) : (payClear s).paySym = s.paySym.put (List.replicate s.geoNsym.toNat 0#15) := rfl
@[simp] theorem payClear_paySmp (s : State) : (payClear s).paySmp = s.paySmp := rfl
@[simp] theorem payClear_modSel (s : State) : (payClear s).modSel = s.modSel := rfl
@[simp] theorem payClear_mem (s : State) : (payClear s).mem = s.mem := rfl
@[simp] theorem payClear_memDraw (s : State) : (payClear s).memDraw = s.memDraw := rfl
@[simp] theorem payClear_draws (s : State) : (payClear s).draws = s.draws := rfl
@[simp] theorem payClear_pending (s : State) : (payClear s).pending = s.pending := rfl
@[simp] theorem payClear_responses (s : State) : (payClear s).responses = s.responses := rfl

/-! ### repack -/

@[simp] theorem repack_created (P : Params) (s : State) : (repack P s).created = s.created := by simp [repack]
@[simp] theorem repack_fault (P : Params) (s : State) : (repack P s).fault = s.fault := by simp [repack]
@[simp] theorem repack_busy (P : Params) (s : State) : (repack P s).busy = s.busy := by simp [repack]
@[simp] theorem repack_lastErr (P : Params) (s : State) : (repack P s).lastErr = s.lastErr := by simp [repack]
@[simp] theorem repack_rdDivSel (P : Params) (s : State) : (repack P s).rdDivSel = s.rdDivSel := by simp [repack]
@[simp] theorem repack_staged (P : Params) (s : State) : (repack P s).staged = s.staged := by simp [repack]
@[simp] theorem repack_live (P : Params) (s : State) : (repack P s).live = s.live := by simp [repack]
@[simp] theorem repack_geoNsym (P : Params) (s : State) : (repack P s).geoNsym = s.geoNsym := by simp [repack]
@[simp] theorem repack_geoFrameLen (P : Params) (s : State) : (repack P s).geoFrameLen = s.geoFrameLen := by simp [repack]
@[simp] theorem repack_allocPay (P : Params) (s : State) : (repack P s).allocPay = s.allocPay := by simp [repack]
@[simp] theorem repack_allocSym (P : Params) (s : State) : (repack P s).allocSym = s.allocSym := by simp [repack]
@[simp] theorem repack_allocSmp (P : Params) (s : State) : (repack P s).allocSmp = s.allocSmp := by simp [repack]
@[simp] theorem repack_resizeCnt (P : Params) (s : State) : (repack P s).resizeCnt = s.resizeCnt := by simp [repack]
@[simp] theorem repack_outCap (P : Params) (s : State) : (repack P s).outCap = s.outCap := by simp [repack]
@[simp] theorem repack_outCount (P : Params) (s : State) : (repack P s).outCount = s.outCount := by simp [repack]
@[simp] theorem repack_faultExp (P : Params) (s : State) : (repack P s).faultExp = s.faultExp := by simp [repack]
@[simp] theorem repack_faultCnt (P : Params) (s : State) : (repack P s).faultCnt = s.faultCnt := by simp [repack]
@[simp] theorem repack_hdrIn0 (P : Params) (s : State) : (repack P s).hdrIn0 = s.hdrIn0 := by simp [repack]
@[simp] theorem repack_hdrIn1 (P : Params) (s : State) : (repack P s).hdrIn1 = s.hdrIn1 := by simp [repack]
@[simp] theorem repack_lfsr (P : Params) (s : State) : (repack P s).lfsr = s.lfsr := by simp [repack]
@[simp] theorem repack_pnSeq (P : Params) (s : State) : (repack P s).pnSeq = s.pnSeq := by simp [repack]
@[simp] theorem repack_hdrRaw (P : Params) (s : State) : (repack P s).hdrRaw = s.hdrRaw := by simp [repack]
@[simp] theorem repack_hdrEnc (P : Params) (s : State) : (repack P s).hdrEnc = s.hdrEnc := by simp [repack]
@[simp] theorem repack_hdrSym (P : Params) (s : State) : (repack P s).hdrSym = s.hdrSym := by simp [repack]
@[simp] theorem repack_seg (P : Params) (s : State) : (repack P s).seg = s.seg := by simp [repack]
@[simp] theorem repack_n (P : Params) (s : State) : (repack P s).n = s.n := by simp [repack]
@[simp] theorem repack_payBuf (P : Params) (s : State) : (repack P s).payBuf = s.payBuf := by simp [repack]
@[simp] theorem repack_paySmp (P : Params) (s : State) : (repack P s).paySmp = s.paySmp := by simp [repack]
@[simp] theorem repack_modSel (P : Params) (s : State) : (repack P s).modSel = s.modSel := by simp [repack]
@[simp] theorem repack_mem (P : Params) (s : State) : (repack P s).mem = s.mem := by simp [repack]
@[simp] theorem repack_memDraw (P : Params) (s : State) : (repack P s).memDraw = s.memDraw := by simp [repack]
@[simp] theorem repack_draws (P : Params) (s : State) : (repack P s).draws = s.draws := by simp [repack]
@[simp] theorem repack_pending (P : Params) (s : State) : (repack P s).pending = s.pending := by simp [repack]
@[simp] theorem repack_responses (P : Params) (s : State) : (repack P s).responses = s.responses := by simp [repack]

/-! ### payModulate -/

@[simp] theorem payModulate_created (P : Params) (s : State) : (payModulate P s).created = s.created := rfl
@[simp] theorem payModulate_fault (P : Params) (s : State) : (payModulate P s).fault = s.fault := rfl
@[simp] theorem payModulate_busy (P : Params) (s : State) : (payModulate P s).busy = s.busy := rfl
@[simp] theorem payModulate_lastErr (P : Params) (s : State) : (payModulate P s).lastErr = s.lastErr := rfl
@[simp] theorem payModulate_rdDivSel (P : Params) (s : State) : (payModulate P s).rdDivSel = s.rdDivSel := rfl
@[simp] theorem payModulate_staged (P : Params) (s : State) : (payModulate P s).staged = s.staged := rfl
@[simp] theorem payModulate_live (P : Params) (s : State) : (payModulate P s).live = s.live := rfl
@[simp] theorem payModulate_geoNsym (P : Params) (s : State) : (payModulate P s).geoNsym = s.geoNsym := rfl
@[simp] theorem payModulate_geoFrameLen (P : Params) (s : State) : (payModulate P s).geoFrameLen = s.geoFrameLen := rfl
@[simp] theorem payModulate_allocPay (P : Params) (s : State) : (payModulate P s).allocPay = s.allocPay := rfl
@[simp] theorem payModulate_allocSym (P : Params) (s : State) : (payModulate P s).allocSym = s.allocSym := rfl
@[simp] theorem payModulate_allocSmp (P : Params) (s : State) : (payModulate P s).allocSmp = s.allocSmp := rfl
@[simp] theorem payModulate_resizeCnt (P : Params) (s : State) : (payModulate P s).resizeCnt = s.resizeCnt := rfl
@[simp] theorem payModulate_outCap (P : Params) (s : State) : (payModulate P s).outCap = s.outCap := rfl
@[simp] theorem payModulate_outCount (P : Params) (s : State) : (payModulate P s).outCount = s.outCount := rfl
@[simp] theorem payModulate_faultExp (P : Params) (s : State) : (payModulate P s).faultExp = s.faultExp := rfl
@[simp] theorem payModulate_faultCnt (P : Params) (s : State) : (payModulate P s).faultCnt = s.faultCnt := rfl
@[simp] theorem payModulate_hdrIn0 (P : Params) (s : State) : (payModulate P s).hdrIn0 = s.hdrIn0 := rfl
@[simp] theorem payModulate_hdrIn1 (P : Params) (s : State) : (payModulate P s).hdrIn1 = s.hdrIn1 := rfl
@[simp] theorem payModulate_lfsr (P : Params) (s : State) : (payModulate P s).lfsr = s.lfsr := rfl
@[simp] theorem payModulate_pnSeq (P : Params) (s : State) : (payModulate P s).pnSeq = s.pnSeq := rfl
@[simp] theorem payModulate_hdrRaw (P : Params) (s : State) : (payModulate P s).hdrRaw = s.hdrRaw := rfl
@[simp] theorem payModulate_hdrEnc (P : Params) (s : State) : (payModulate P s).hdrEnc = s.hdrEnc := rfl
@[simp] theorem payModulate_hdrSym (P : Params) (s : State) : (payModulate P s).hdrSym = s.hdrSym := rfl
@[simp] theorem payModulate_seg (P : Params) (s : State) : (payModulate P s).seg = s.seg := rfl
@[simp] theorem payModulate_n (P : Params) (s : State) : (payModulate P s).n = s.n := rfl
@[simp] theorem payModulate_payBuf (P : Params) (s : State) : (payModulate P s).payBuf = s.payBuf := rfl
@[simp] theorem payModulate_paySym (P : Params) (s : State) : (payModulate P s).paySym = s.paySym := rfl
@[simp] theorem payModulate_modSel (P : Params) (s : State) : (payModulate P s).modSel = s.modSel := rfl
@[simp] theorem payModulate_mem (P : Params) (s : State) : (payModulate P s).mem = s.mem := rfl
@[simp] theorem payModulate_memDraw (P : Params) (s : State) : (payModulate P s).memDraw = s.memDraw := rfl
@[simp] theorem payModulate_draws (P : Params) (s : State) : (payModulate P s).draws = s.draws := rfl
@[simp] theorem payModulate_pending (P : Params) (s : State) : (payModulate P s).pending = s.pending := rfl
@[simp] theorem payModulate_responses (P : Params) (s : State) : (payModulate P s).responses = s.responses := rfl

/-! ### rampDown -/

@[simp] theorem rampDown_created (P : Params) (s : State) : (rampDown P s).created = s.created := by simp [rampDown]
@[simp] theorem rampDown_fault (P : Params) (s : State) : (rampDown P s).fault = s.fault := by simp [rampDown]
@[simp] theorem rampDown_busy (P : Params) (s : State) : (rampDown P s).busy = s.busy := by simp [rampDown]
@[simp] theorem rampDown_lastErr (P : Params) (s : State) : (rampDown P s).lastErr = s.lastErr := by simp [rampDown]
@[simp] theorem rampDown_rdDivSel (P : Params) (s : State) : (rampDown P s).rdDivSel = s.rdDivSel := by simp [rampDown]
@[simp] theorem rampDown_staged (P : Params) (s : State) : (rampDown P s).staged = s.staged := by simp [rampDown]
@[simp] theorem rampDown_live (P : Params) (s : State) : (rampDown P s).live = s.live := by simp [rampDown]
@[simp] theorem rampDown_geoNsym (P : Params) (s : State) : (rampDown P s).geoNsym = s.geoNsym := by simp [rampDown]
@[simp] theorem rampDown_geoFrameLen (P : Params) (s : State) : (rampDown P s).geoFrameLen = s.geoFrameLen := by simp [rampDown]
@[simp] theorem rampDown_allocPay (P : Params) (s : State) : (rampDown P s).allocPay = s.allocPay := by simp [rampDown]
@[simp] theorem rampDown_allocSym (P : Params) (s : State) : (rampDown P s).allocSym = s.allocSym := by simp [rampDown]
@[simp] theorem rampDown_allocSmp (P : Params) (s : State) : (rampDown P s).allocSmp = s.allocSmp := by simp [rampDown]
@[simp] theorem rampDown_resizeCnt (P : Params) (s : State) : (rampDown P s).resizeCnt = s.resizeCnt := by simp [rampDown]
@[simp] theorem rampDown_outCap (P : Params) (s : State) : (rampDown P s).outCap = s.outCap := by simp [rampDown]
@[simp] theorem rampDown_outCount (P : Params) (s : State) : (rampDown P s).outCount = s.outCount := by simp [rampDown]
@[simp] theorem rampDown_faultExp (P : Params) (s : State) : (rampDown P s).faultExp = s.faultExp := by simp [rampDown]
@[simp] theorem rampDown_faultCnt (P : Params) (s : State) : (rampDown P s).faultCnt = s.faultCnt := by simp [rampDown]
@[simp] theorem rampDown_hdrIn0 (P : Params) (s : State) : (rampDown P s).hdrIn0 = s.hdrIn0 := by simp [rampDown]
@[simp] theorem rampDown_hdrIn1 (P : Params) (s : State) : (rampDown P s).hdrIn1 = s.hdrIn1 := by simp [rampDown]
@[simp] theorem rampDown_lfsr (P : Params) (s : State) : (rampDown P s).lfsr = s.lfsr := by simp [rampDown]
@[simp] theorem rampDown_pnSeq (P : Params) (s : State) : (rampDown P s).pnSeq = s.pnSeq := by simp [rampDown]
@[simp] theorem rampDown_hdrRaw (P : Params) (s : State) : (rampDown P s).hdrRaw = s.hdrRaw := by simp [rampDown]
@[simp] theorem rampDown_hdrEnc (P : Params) (s : State) : (rampDown P s).hdrEnc = s.hdrEnc := by simp [rampDown]
@[simp] theorem rampDown_hdrSym (P : Params) (s : State) : (rampDown P s).hdrSym = s.hdrSym := by simp [rampDown]
@[simp] theorem rampDown_seg (P : Params) (s : State) : (rampDown P s).seg = s.seg := by simp [rampDown]
@[simp] theorem rampDown_n (P : Params) (s : State) : (rampDown P s).n = s.n + s.live.rampDown.toNat := by simp [rampDown, rampDownSamples, emitAll]
@[simp] theorem rampDown_payBuf (P : Params) (s : State) : (rampDown P s).payBuf = s.payBuf := by simp [rampDown]
@[simp] theorem rampDown_paySym (P : Params) (s : State) : (rampDown P s).paySym = s.paySym := by simp [rampDown]
@[simp] theorem rampDown_paySmp (P : Params) (s : State) : (rampDown P s).paySmp = s.paySmp := by simp [rampDown]
@[simp] theorem rampDown_modSel (P : Params) (s : State) : (rampDown P s).modSel = s.modSel := by simp [rampDown]
@[simp] theorem rampDown_memDraw (P : Params) (s : State) : (rampDown P s).memDraw = s.memDraw := by simp [rampDown]
@[simp] theorem rampDown_draws (P : Params) (s : State) : (rampDown P s).draws = if rampDownDivisor s = 0 then s.draws + 1 else s.draws := by simp [rampDown]
@[simp] theorem rampDown_pending (P : Params) (s : State) : (rampDown P s).pending = s.pending := by simp [rampDown]
@[simp] theorem rampDown_responses (P : Params) (s : State) : (rampDown P s).responses = s.responses := by simp [rampDown]

end Sys2Proof.Machine
end

