-- ==== Sys2Proof/Laws/Memory.lean ====
section
/-! SUPPORT. The bytes of the PIN and OUT windows: what a write leaves, and that every operation keeps the canonical
form. -/

namespace Sys2Proof.Machine

namespace Memory

variable {u : Nat → Byte}

theorem read_of_all_lt {m : List Host.Cell} {a : Nat} (h : m.all (fun c => decide (a < c.1)) = true) :
    read u m a = u a := by
  induction m with
  | nil => rfl
  | cons c m ih =>
    simp only [List.all_cons, Bool.and_eq_true, decide_eq_true_eq] at h
    rw [read, if_neg (by omega)]
    exact ih h.2

theorem wf_cons {a : Nat} {v : Byte} {m : List Host.Cell} :
    wf u ((a, v) :: m) = true ↔ v ≠ u a ∧ (∀ c ∈ m, a < c.1) ∧ wf u m = true := by
  simp [wf, and_assoc]

theorem mem_consCell {a : Nat} {v : Byte} {m : List Host.Cell} {c : Host.Cell} (h : c ∈ consCell u a v m) :
    c = (a, v) ∨ c ∈ m := by
  unfold consCell at h
  split at h
  · exact .inr h
  · simpa using h

/-- A write lists no cell but its own and those listed before. -/
theorem mem_write {a : Nat} {v : Byte} {m : List Host.Cell} {c : Host.Cell} (h : c ∈ write u a v m) :
    c = (a, v) ∨ c ∈ m := by
  induction m with
  | nil => exact mem_consCell h
  | cons d m ih =>
    simp only [write] at h
    split at h
    · exact mem_consCell h
    · split at h
      · rcases mem_consCell h with h | h
        · exact .inl h
        · exact .inr (List.mem_cons_of_mem _ h)
      · rcases List.mem_cons.mp h with h | h
        · exact .inr (h ▸ List.mem_cons_self)
        · exact (ih h).imp id (List.mem_cons_of_mem _)

theorem wf_consCell {a : Nat} {v : Byte} {m : List Host.Cell} (hm : wf u m = true) (ha : ∀ c ∈ m, a < c.1) :
    wf u (consCell u a v m) = true := by
  unfold consCell
  split
  · exact hm
  · next h => exact wf_cons.mpr ⟨h, ha, hm⟩

/-- A write keeps the canonical form. -/
theorem wf_write {a : Nat} {v : Byte} {m : List Host.Cell} (hm : wf u m = true) : wf u (write u a v m) = true := by
  induction m with
  | nil => exact wf_consCell hm (by simp)
  | cons d m ih =>
    obtain ⟨b, w⟩ := d
    obtain ⟨hb, hlt, hm'⟩ := wf_cons.mp hm
    simp only [write]
    split
    · next hab =>
      refine wf_consCell hm fun c hc => ?_
      rcases List.mem_cons.mp hc with rfl | hc
      · exact hab
      · exact lt_trans hab (hlt c hc)
    · split
      · next hab => subst hab; exact wf_consCell hm' hlt
      · next h1 h2 =>
        refine wf_cons.mpr ⟨hb, fun c hc => ?_, ih hm'⟩
        rcases mem_write hc with rfl | hc
        · show b < a; omega
        · exact hlt c hc

theorem read_consCell {a x : Nat} {v : Byte} {m : List Host.Cell} (ha : ∀ c ∈ m, a < c.1) :
    read u (consCell u a v m) x = if x = a then v else read u m x := by
  unfold consCell
  split
  · next h =>
    split
    · next hx => rw [hx, read_of_all_lt (by simpa using ha), h]
    · rfl
  · simp [read]

/-- A read after a write: the value written at its address, and what was there at every other. -/
theorem read_write {a x : Nat} {v : Byte} {m : List Host.Cell} (hm : wf u m = true) :
    read u (write u a v m) x = if x = a then v else read u m x := by
  induction m with
  | nil => exact read_consCell (by simp)
  | cons d m ih =>
    obtain ⟨b, w⟩ := d
    obtain ⟨-, hlt, hm'⟩ := wf_cons.mp hm
    simp only [write]
    split
    · next hab =>
      refine read_consCell fun c hc => ?_
      rcases List.mem_cons.mp hc with rfl | hc
      · exact hab
      · exact lt_trans hab (hlt c hc)
    · split
      · next hab =>
        subst hab
        rw [read_consCell hlt]
        simp only [read]
        split <;> simp_all
      · next h1 h2 =>
        simp only [read, ih hm']
        split <;> split <;> simp_all

/-- A write leaves every other address alone, canonical form or not. -/
theorem read_write_of_ne {a x : Nat} {v : Byte} {m : List Host.Cell} (hx : x ≠ a) :
    read u (write u a v m) x = read u m x := by
  have hc : ∀ m : List Host.Cell, read u (consCell u a v m) x = read u m x := by
    intro m
    unfold consCell
    split
    · rfl
    · simp [read, hx]
  induction m with
  | nil => exact hc []
  | cons d m ih =>
    simp only [write]
    split
    · exact hc _
    · split
      · next hab => rw [hc]; simp [read, ← hab, hx]
      · simp only [read, ih]

theorem wf_writeBytes {a : Nat} {vs : List Byte} {m : List Host.Cell} (hm : wf u m = true) :
    wf u (writeBytes u a vs m) = true := by
  induction vs generalizing a with
  | nil => exact hm
  | cons v vs ih => exact wf_write ih

theorem read_writeBytes_of_outside {a x : Nat} {vs : List Byte} {m : List Host.Cell}
    (hx : x < a ∨ a + vs.length ≤ x) : read u (writeBytes u a vs m) x = read u m x := by
  induction vs generalizing a with
  | nil => rfl
  | cons v vs ih =>
    simp only [List.length_cons] at hx
    rw [writeBytes, read_write_of_ne (by omega), ih (by omega)]

theorem read_writeBytes_inside {a i : Nat} {vs : List Byte} {m : List Host.Cell} (hm : wf u m = true)
    (hi : i < vs.length) : read u (writeBytes u a vs m) (a + i) = vs[i] := by
  induction vs generalizing a i with
  | nil => simp at hi
  | cons v vs ih =>
    rw [writeBytes, read_write (wf_writeBytes hm)]
    cases i with
    | zero => simp
    | succ i =>
      rw [if_neg (by omega), show a + (i + 1) = a + 1 + i by omega, ih (by simpa using hi)]
      simp

/-- A block write lists no cell but its own and those listed before. -/
theorem mem_writeBytes {a : Nat} {vs : List Byte} {m : List Host.Cell} {c : Host.Cell}
    (h : c ∈ writeBytes u a vs m) : (a ≤ c.1 ∧ c.1 < a + vs.length) ∨ c ∈ m := by
  induction vs generalizing a with
  | nil => exact .inr h
  | cons v vs ih =>
    rcases mem_write h with rfl | h
    · exact .inl ⟨le_refl _, by simp⟩
    · rcases ih h with h | h
      · refine .inl ⟨by omega, ?_⟩
        simp only [List.length_cons]; omega
      · exact .inr h

end Memory

/-! ### Words and samples in bytes -/

@[simp] theorem wordBytes_length (w : Word) : (wordBytes w).length = 4 := rfl

@[simp] theorem sampleBytes_length (x : Sample) : (sampleBytes x).length = 8 := rfl

/-- A word is the word of its bytes. -/
@[simp] theorem wordOfBytes_wordBytes (w : Word) :
    wordOfBytes (w.extractLsb' 0 8) (w.extractLsb' 8 8) (w.extractLsb' 16 8) (w.extractLsb' 24 8) = w := by
  apply BitVec.eq_of_getLsbD_eq
  intro i hi
  simp only [wordOfBytes, BitVec.getLsbD_append, BitVec.getLsbD_extractLsb']
  interval_cases i <;> simp

theorem flatMap_sampleBytes_length (xs : List Sample) : (xs.flatMap sampleBytes).length = 8 * xs.length := by
  induction xs with
  | nil => rfl
  | cons x xs ih => simp only [List.flatMap_cons, List.length_append, sampleBytes_length, ih, List.length_cons]; omega

theorem getElem_flatMap_sampleBytes (xs : List Sample) (i j : Nat) (hi : i < xs.length) (hj : j < 8)
    (h : 8 * i + j < (xs.flatMap sampleBytes).length) :
    (xs.flatMap sampleBytes)[8 * i + j] = (sampleBytes xs[i])[j]'(by simpa using hj) := by
  induction xs generalizing i with
  | nil => simp at hi
  | cons x xs ih =>
    simp only [List.flatMap_cons]
    cases i with
    | zero =>
      rw [List.getElem_append_left (by simp; omega)]
      simp
    | succ i =>
      rw [List.getElem_append_right (by simp; omega)]
      have hi' : i < xs.length := by simpa using hi
      have h' : 8 * i + j < (xs.flatMap sampleBytes).length := by rw [flatMap_sampleBytes_length]; omega
      have := ih i hi' h'
      simp only [sampleBytes_length, List.getElem_cons_succ]
      simp only [show 8 * (i + 1) + j - 8 = 8 * i + j by omega]
      exact this

end Sys2Proof.Machine
end

