-- ==== Sys2Proof/Laws/Emit.lean ====
section
/-! SUPPORT. What emitting samples does to the OUT window, and what a store does to the bytes of the windows. -/

namespace Sys2Proof.Machine

variable {P : Params}

theorem unlisted_congr {s t : State} (hd : s.memDraw = t.memDraw) : s.unlisted P = t.unlisted P := by
  unfold State.unlisted
  rw [hd]

theorem byteAt_congr {s t : State} (hm : s.mem = t.mem) (hd : s.memDraw = t.memDraw) (a : Nat) :
    s.byteAt P a = t.byteAt P a := by
  unfold State.byteAt State.unlisted
  rw [hm, hd]

theorem out_congr {s t : State} (hm : s.mem = t.mem) (hd : s.memDraw = t.memDraw) (k : Nat) :
    s.out P k = t.out P k := by
  simp only [State.out, State.wordAt, byteAt_congr hm hd]

theorem memCanonical_congr {s t : State} (hm : s.mem = t.mem) (hd : s.memDraw = t.memDraw)
    (h : MemCanonical P s) : MemCanonical P t := by
  unfold MemCanonical State.unlisted at *
  rw [← hm, ← hd]
  exact h

theorem memCanonical_storeBytes {s : State} {a : Nat} {vs : List Byte} (h : MemCanonical P s) :
    MemCanonical P (s.storeBytes P a vs) := Memory.wf_writeBytes h

theorem byteAt_storeBytes_outside {s : State} {a x : Nat} {vs : List Byte} (hx : x < a ∨ a + vs.length ≤ x) :
    (s.storeBytes P a vs).byteAt P x = s.byteAt P x := Memory.read_writeBytes_of_outside hx

theorem byteAt_storeBytes_inside {s : State} {a i : Nat} {vs : List Byte} (h : MemCanonical P s)
    (hi : i < vs.length) : (s.storeBytes P a vs).byteAt P (a + i) = vs[i] := Memory.read_writeBytes_inside h hi

/-- A word stored at an address reads back there. -/
theorem wordAt_storeBytes {s : State} {a : Nat} {w : Word} (h : MemCanonical P s) :
    (s.storeBytes P a (wordBytes w)).wordAt P a = w := by
  have e := fun i (hi : i < 4) => byteAt_storeBytes_inside (a := a) (vs := wordBytes w) (i := i) h hi
  have e0 := e 0 (by omega)
  have e1 := e 1 (by omega)
  have e2 := e 2 (by omega)
  have e3 := e 3 (by omega)
  simp only [Nat.add_zero] at e0
  simp only [State.wordAt, e0, e1, e2, e3]
  exact wordOfBytes_wordBytes w

theorem memCanonical_emitAll {s : State} {xs : List Sample} (h : MemCanonical P s) :
    MemCanonical P (emitAll P xs s) := Memory.wf_writeBytes h

/-- Emitting leaves every byte outside the emitted samples. -/
theorem byteAt_emitAll_outside {s : State} {xs : List Sample} {x : Nat}
    (hx : x < Config.outBase + 8 * s.n ∨ Config.outBase + 8 * (s.n + xs.length) ≤ x) :
    (emitAll P xs s).byteAt P x = s.byteAt P x := by
  refine Memory.read_writeBytes_of_outside (hx.imp id fun h => ?_)
  rw [flatMap_sampleBytes_length]; omega

/-- Emitting writes the samples at consecutive indices from N up. -/
theorem out_emitAll_inside {s : State} {xs : List Sample} {i : Nat} (h : MemCanonical P s) (hi : i < xs.length) :
    (emitAll P xs s).out P (s.n + i) = xs[i] := by
  have len := flatMap_sampleBytes_length xs
  have e : ∀ j (hj : j < 8), (emitAll P xs s).byteAt P (Config.outBase + 8 * s.n + (8 * i + j))
      = (sampleBytes xs[i])[j]'(by simpa using hj) := by
    intro j hj
    rw [← getElem_flatMap_sampleBytes xs i j hi hj (by omega)]
    exact Memory.read_writeBytes_inside h (by omega)
  have a : ∀ j, Config.outBase + 8 * (s.n + i) + j = Config.outBase + 8 * s.n + (8 * i + j) := by intro j; omega
  have a0 : Config.outBase + 8 * (s.n + i) = Config.outBase + 8 * s.n + (8 * i + 0) := by omega
  simp only [State.out, State.wordAt, Nat.add_assoc (Config.outBase + 8 * (s.n + i)), Nat.reduceAdd]
  rw [a 1, a 2, a 3, a 4, a 5, a 6, a 7, a0, e 0 (by omega), e 1 (by omega), e 2 (by omega), e 3 (by omega),
    e 4 (by omega), e 5 (by omega), e 6 (by omega), e 7 (by omega)]
  exact congrArg₂ Sample.mk (wordOfBytes_wordBytes xs[i].re) (wordOfBytes_wordBytes xs[i].im)

/-- Emitting leaves every sample outside the emitted ones. -/
theorem out_emitAll_outside {s : State} {xs : List Sample} {k : Nat} (hk : k < s.n ∨ s.n + xs.length ≤ k) :
    (emitAll P xs s).out P k = s.out P k := by
  simp only [State.out, State.wordAt]
  iterate 8 rw [byteAt_emitAll_outside (by omega)]

/-- Emitting two lists in turn reads as emitting them joined. -/
theorem out_emitAll {s : State} {xs : List Sample} (h : MemCanonical P s) (k : Nat) :
    (emitAll P xs s).out P k
      = if hk : s.n ≤ k ∧ k < s.n + xs.length then xs[k - s.n]'(by omega) else s.out P k := by
  split
  · next hk =>
    have := out_emitAll_inside h (show k - s.n < xs.length by omega)
    rwa [show s.n + (k - s.n) = k by omega] at this
  · next hk => exact out_emitAll_outside (by omega)

end Sys2Proof.Machine
end

