-- ==== Sys2Proof/Laws/Access.lean ====
section
/-! SUPPORT. Which accesses the windows take (R60, R64, R68), which register an offset names, and what a data write can
change. -/

namespace Sys2Proof.Machine

variable {P : Params}

/-! ### Admission -/

theorem admitWord_b32 {addr : Word} {t : Target} (h : addr.toNat % 4 = 0) : admitWord .b32 addr t = .ok t := by
  simp [admitWord, h]

theorem admitWord_width {w : Width} {addr : Word} {t : Target} (h : w ≠ .b32) :
    admitWord w addr t = .error (.accessWidth w addr) := by simp [admitWord, h]

theorem admitWord_misaligned {addr : Word} {t : Target} (h : addr.toNat % 4 ≠ 0) :
    admitWord .b32 addr t = .error (.misaligned addr) := by simp [admitWord, h]

/-- The CSR window. -/
theorem admit_csr {w : Width} {addr : Word} (h : addr.toNat ≤ 0xFFF) :
    admitAccess w addr = admitWord w addr (.csr addr.toNat) := by
  have : addr.toNat < 4096 := by omega
  simp [admitAccess, Config.csrBase, Config.csrSize, this]

/-- The PIN window. -/
theorem admit_pin {w : Width} {addr : Word} (h : 0x10000 ≤ addr.toNat ∧ addr.toNat ≤ 0x1FFFF) :
    admitAccess w addr = if w ≠ .b8 then .error (.accessWidth w addr) else .ok (.pin (addr.toNat - 0x10000)) := by
  unfold admitAccess Config.csrBase Config.csrSize Config.pinBase Config.pinSize
  rw [if_neg (by omega), if_pos (by omega)]

/-- The OUT window. -/
theorem admit_out {w : Width} {addr : Word} (h : 0x1000000 ≤ addr.toNat ∧ addr.toNat < 0x1800000) :
    admitAccess w addr = admitWord w addr (.out addr.toNat) := by
  unfold admitAccess Config.csrBase Config.csrSize Config.pinBase Config.pinSize Config.outBase Config.outMax
  rw [if_neg (by omega), if_neg (by omega), if_pos (by omega)]

/-- Every other address. -/
theorem admit_outside {w : Width} {addr : Word} (h : (0x1000 ≤ addr.toNat ∧ addr.toNat ≤ 0xFFFF) ∨
    (0x20000 ≤ addr.toNat ∧ addr.toNat ≤ 0xFFFFFF) ∨ 0x1800000 ≤ addr.toNat) :
    admitAccess w addr = .error (.outsideEveryWindow addr) := by
  unfold admitAccess Config.csrBase Config.csrSize Config.pinBase Config.pinSize Config.outBase Config.outMax
  rw [if_neg (by omega), if_neg (by omega), if_neg (by omega)]

/-- Everything an admitted access can reach. -/
theorem admit_ok {w : Width} {addr : Word} {t : Target} (h : admitAccess w addr = .ok t) :
    (t = .csr addr.toNat ∧ addr.toNat ≤ 0xFFF ∧ w = .b32 ∧ addr.toNat % 4 = 0) ∨
    (t = .pin (addr.toNat - 0x10000) ∧ 0x10000 ≤ addr.toNat ∧ addr.toNat ≤ 0x1FFFF ∧ w = .b8) ∨
    (t = .out addr.toNat ∧ 0x1000000 ≤ addr.toNat ∧ addr.toNat < 0x1800000 ∧ w = .b32 ∧ addr.toNat % 4 = 0) := by
  have word : ∀ {u : Target}, admitWord w addr u = .ok t → t = u ∧ w = .b32 ∧ addr.toNat % 4 = 0 := by
    intro u hu
    by_cases hw : w = .b32
    · subst hw
      by_cases ha : addr.toNat % 4 = 0
      · rw [admitWord_b32 ha] at hu; exact ⟨(Except.ok.inj hu).symm, rfl, ha⟩
      · rw [admitWord_misaligned ha] at hu; cases hu
    · rw [admitWord_width hw] at hu; cases hu
  by_cases h1 : addr.toNat ≤ 0xFFF
  · rw [admit_csr h1] at h
    obtain ⟨a, b, c⟩ := word h
    exact .inl ⟨a, h1, b, c⟩
  by_cases h2 : 0x10000 ≤ addr.toNat ∧ addr.toNat ≤ 0x1FFFF
  · rw [admit_pin h2] at h
    split at h
    · cases h
    · next hw => exact .inr (.inl ⟨(Except.ok.inj h).symm, h2.1, h2.2, not_not.mp hw⟩)
  by_cases h3 : 0x1000000 ≤ addr.toNat ∧ addr.toNat < 0x1800000
  · rw [admit_out h3] at h
    obtain ⟨a, b, c⟩ := word h
    exact .inr (.inr ⟨a, h3.1, h3.2, b, c⟩)
  · rw [admit_outside (by omega)] at h
    cases h

/-! ### Registers by offset -/

theorem Csr.offset_mod (c : Csr) : c.offset % 4 = 0 := by cases c <;> rfl

theorem Csr.atOffset_offset (c : Csr) : Csr.atOffset c.offset = some c := by cases c <;> rfl

/-- An offset outside the map is reserved (R52). -/
theorem Csr.atOffset_none {off : Nat} (h : ∀ c : Csr, c.offset ≠ off) : Csr.atOffset off = none := by
  rw [Csr.atOffset, List.find?_eq_none]
  intro c _
  simpa using h c

/-! ### Data writes -/

theorem outCapStored_eq (v : Word) : outCapStored v = BitVec.ofNat 32 (min v.toNat 1048576) := by
  have := v.isLt
  unfold outCapStored Config.outMax
  split
  · next h => rw [Nat.min_eq_left (by omega), BitVec.ofNat_toNat, BitVec.setWidth_eq]
  · next h => rw [Nat.min_eq_right (by omega)]

theorem outCapStored_le (v : Word) : (outCapStored v).toNat ≤ 1048576 := by
  rw [outCapStored_eq, BitVec.toNat_ofNat]; omega

/-- Everything a register write as a data access can change: the host's own registers (R20, R52, R69). -/
theorem csrWriteAt_frame (off : Nat) (v : Word) (s : State) :
    csrWriteAt off v s = { s with
      rdDivSel := (csrWriteAt off v s).rdDivSel, staged := (csrWriteAt off v s).staged,
      outCap := (csrWriteAt off v s).outCap, hdrIn0 := (csrWriteAt off v s).hdrIn0,
      hdrIn1 := (csrWriteAt off v s).hdrIn1 } := by
  unfold csrWriteAt
  cases Csr.atOffset off with
  | none => rfl
  | some c => cases c <;> rfl

theorem csrWriteAt_outCap_le (off : Nat) (v : Word) (s : State) (h : s.outCap.toNat ≤ 1048576) :
    (csrWriteAt off v s).outCap.toNat ≤ 1048576 := by
  unfold csrWriteAt
  cases Csr.atOffset off with
  | none => exact h
  | some c => cases c <;> first | exact h | exact outCapStored_le v

theorem inDataWindow_pin {a : Nat} (h : 0x10000 ≤ a ∧ a ≤ 0x1FFFF) : InDataWindow a := .inl h

theorem inDataWindow_out {a : Nat} (h : 0x1000000 ≤ a ∧ a < 0x1800000) : InDataWindow a := by
  right; omega

/-- Everything an admitted data write can change (R69): the host's own registers, or the bytes it stores. -/
theorem writeTarget_frame {w : Width} {addr v : Word} {t : Target} (s : State) (h : admitAccess w addr = .ok t) :
    writeTarget P v s t = { s with
      rdDivSel := (writeTarget P v s t).rdDivSel, staged := (writeTarget P v s t).staged,
      outCap := (writeTarget P v s t).outCap, hdrIn0 := (writeTarget P v s t).hdrIn0,
      hdrIn1 := (writeTarget P v s t).hdrIn1, mem := (writeTarget P v s t).mem } := by
  rcases admit_ok h with ⟨rfl, -⟩ | ⟨rfl, -⟩ | ⟨rfl, -⟩
  · exact (csrWriteAt_frame _ v s).trans (by simp only [writeTarget]; rw [csrWriteAt_frame])
  · rfl
  · rfl

end Sys2Proof.Machine
end

