-- ==== Sys2Proof/Laws/Buffers.lean ====
section
/-! SUPPORT. What ENSURE_CAPACITY does (R241-R243), and the laws of the working buffers. -/

namespace Sys2Proof.Machine

variable {P : Params}

/-! ### One buffer -/

theorem fitPay_eq (s : State) :
    fitPay s = { s with
      allocPay := s.live.payLen.setWidth 32
      payBuf := if s.allocPay = s.live.payLen.setWidth 32 then s.payBuf else ⟨s.draws, []⟩
      draws := if s.allocPay = s.live.payLen.setWidth 32 then s.draws else s.draws + 1
      resizeCnt := s.resizeCnt + if s.allocPay = s.live.payLen.setWidth 32 then 0#32 else 1#32 } := by
  unfold fitPay requiredPay
  split
  · next h => rw [← h]; simp
  · rfl

theorem fitSym_eq (s : State) :
    fitSym s = { s with
      allocSym := s.geoNsym
      paySym := if s.allocSym = s.geoNsym then s.paySym else ⟨s.draws, []⟩
      draws := if s.allocSym = s.geoNsym then s.draws else s.draws + 1
      resizeCnt := s.resizeCnt + if s.allocSym = s.geoNsym then 0#32 else 1#32 } := by
  unfold fitSym requiredSym
  split
  · next h => apply State.ext <;> simp [h]
  · rfl

theorem fitSmp_eq (s : State) :
    fitSmp s = { s with
      allocSmp := s.geoNsym
      paySmp := if s.allocSmp = s.geoNsym then s.paySmp else ⟨s.draws, []⟩
      draws := if s.allocSmp = s.geoNsym then s.draws else s.draws + 1
      resizeCnt := s.resizeCnt + if s.allocSmp = s.geoNsym then 0#32 else 1#32 } := by
  unfold fitSmp requiredSmp
  split
  · next h => apply State.ext <;> simp [h]
  · rfl

/-! ### The three buffers -/

/-- Everything ENSURE_CAPACITY can do: each recorded size becomes the required one; a buffer whose size was another is
reallocated, which draws its contents anew and counts (R241-R243). -/
theorem ensureCapacity_eq (s : State) :
    ensureCapacity s = { s with
      allocPay := s.live.payLen.setWidth 32
      allocSym := s.geoNsym
      allocSmp := s.geoNsym
      payBuf := if s.allocPay = s.live.payLen.setWidth 32 then s.payBuf else ⟨s.draws, []⟩
      paySym := if s.allocSym = s.geoNsym then s.paySym else
        ⟨s.draws + if s.allocPay = s.live.payLen.setWidth 32 then 0 else 1, []⟩
      paySmp := if s.allocSmp = s.geoNsym then s.paySmp else
        ⟨s.draws + (if s.allocPay = s.live.payLen.setWidth 32 then 0 else 1)
          + if s.allocSym = s.geoNsym then 0 else 1, []⟩
      draws := s.draws + (if s.allocPay = s.live.payLen.setWidth 32 then 0 else 1)
        + (if s.allocSym = s.geoNsym then 0 else 1) + if s.allocSmp = s.geoNsym then 0 else 1
      resizeCnt := s.resizeCnt + (if s.allocPay = s.live.payLen.setWidth 32 then 0#32 else 1#32)
        + (if s.allocSym = s.geoNsym then 0#32 else 1#32) + if s.allocSmp = s.geoNsym then 0#32 else 1#32 } := by
  rw [ensureCapacity, fitPay_eq, fitSym_eq, fitSmp_eq]
  apply State.ext <;> try rfl
  all_goals
    dsimp only
    by_cases h1 : s.allocPay = s.live.payLen.setWidth 32 <;> by_cases h2 : s.allocSym = s.geoNsym <;>
      by_cases h3 : s.allocSmp = s.geoNsym <;> simp only [h1, h2, h3, if_true, if_false, Nat.add_zero]

/-- Where every recorded size is the required one, nothing changes (R241, R244). -/
theorem ensureCapacity_of_fit {s : State} (hp : s.allocPay = s.live.payLen.setWidth 32) (hy : s.allocSym = s.geoNsym)
    (hm : s.allocSmp = s.geoNsym) : ensureCapacity s = s := by
  simp [ensureCapacity, fitPay, fitSym, fitSmp, requiredPay, requiredSym, requiredSmp, hp, hy, hm]

/-- RESIZE_CNT counts the reallocations (R241). -/
theorem ensureCapacity_resizeCnt_toNat (s : State) :
    (ensureCapacity s).resizeCnt.toNat = (s.resizeCnt.toNat
      + (if s.allocPay = s.live.payLen.setWidth 32 then 0 else 1) + (if s.allocSym = s.geoNsym then 0 else 1)
      + (if s.allocSmp = s.geoNsym then 0 else 1)) % 2 ^ 32 := by
  rw [ensureCapacity_eq]
  have := s.resizeCnt.isLt
  by_cases h1 : s.allocPay = s.live.payLen.setWidth 32 <;> by_cases h2 : s.allocSym = s.geoNsym <;>
    by_cases h3 : s.allocSmp = s.geoNsym <;> simp only [h1, h2, h3, if_true, if_false, BitVec.toNat_add] <;> simp

/-- A buffer whose size fits keeps its contents; another gets a new draw and loses them (R241, R243). -/
theorem ensureCapacity_payBuf (s : State) :
    (s.allocPay = s.live.payLen.setWidth 32 → (ensureCapacity s).payBuf = s.payBuf) ∧
    (s.allocPay ≠ s.live.payLen.setWidth 32 → (ensureCapacity s).payBuf.cells = [] ∧
      s.draws ≤ (ensureCapacity s).payBuf.draw ∧ (ensureCapacity s).payBuf.draw < (ensureCapacity s).draws) := by
  rw [ensureCapacity_eq]
  refine ⟨fun h => if_pos h, fun h => ?_⟩
  dsimp only
  rw [if_neg h, if_neg h]
  exact ⟨rfl, by dsimp only; omega, by dsimp only; omega⟩

theorem ensureCapacity_paySym (s : State) :
    (s.allocSym = s.geoNsym → (ensureCapacity s).paySym = s.paySym) ∧
    (s.allocSym ≠ s.geoNsym → (ensureCapacity s).paySym.cells = [] ∧
      s.draws ≤ (ensureCapacity s).paySym.draw ∧ (ensureCapacity s).paySym.draw < (ensureCapacity s).draws) := by
  rw [ensureCapacity_eq]
  refine ⟨fun h => if_pos h, fun h => ?_⟩
  dsimp only
  rw [if_neg h, if_neg h]
  exact ⟨rfl, by dsimp only; omega, by dsimp only; omega⟩

theorem ensureCapacity_paySmp (s : State) :
    (s.allocSmp = s.geoNsym → (ensureCapacity s).paySmp = s.paySmp) ∧
    (s.allocSmp ≠ s.geoNsym → (ensureCapacity s).paySmp.cells = [] ∧
      s.draws ≤ (ensureCapacity s).paySmp.draw ∧ (ensureCapacity s).paySmp.draw < (ensureCapacity s).draws) := by
  rw [ensureCapacity_eq]
  refine ⟨fun h => if_pos h, fun h => ?_⟩
  dsimp only
  rw [if_neg h, if_neg h]
  exact ⟨rfl, by dsimp only; omega, by dsimp only; omega⟩

/-! ### Buffer contents -/

namespace Buffer

variable {α : Type} {free : Nat → Nat → α}

@[simp] theorem put_draw (vs : List α) (b : Buffer α) : (b.put vs).draw = b.draw := rfl

theorem put_length (vs : List α) (b : Buffer α) : (b.put vs).cells.length = max vs.length b.cells.length := by
  simp only [put, List.length_append, List.length_drop]; omega

/-- An entry just written reads what was written. -/
theorem get_put_of_lt {vs : List α} {b : Buffer α} {j : Nat} (h : j < vs.length) : (b.put vs).get free j = vs[j] := by
  simp [get, put, List.getD_eq_getElem?_getD, List.getElem?_append_left h, h]

/-- An entry past those written keeps its value. -/
theorem get_put_of_ge {vs : List α} {b : Buffer α} {j : Nat} (h : vs.length ≤ j) :
    (b.put vs).get free j = b.get free j := by
  simp only [get, put, List.getD_eq_getElem?_getD, List.getElem?_append_right h, List.getElem?_drop]
  rw [show vs.length + (j - vs.length) = j by omega]

end Buffer

end Sys2Proof.Machine
end

