-- ==== Sys2Proof/Laws/Frame.lean ====
section
/-! SUPPORT. What EXEC_RUN does (R129): which fields it leaves, what the others become, and that it writes the six
segments one after the other and nothing else. -/

namespace Sys2Proof.Machine

variable {P : Params}

/-! ### Lengths of the segments -/

@[simp] theorem rampUpSamples_length (n ru : Nat) : (rampUpSamples P n ru).length = ru := by simp [rampUpSamples]
@[simp] theorem phasingSamples_length (n ph : Nat) : (phasingSamples P n ph).length = ph := by simp [phasingSamples]
@[simp] theorem syncSamples_length (s : State) : (syncSamples s).length = 64 := by simp [syncSamples]
@[simp] theorem headerSamples_length (s : State) : (headerSamples s).length = 256 := by simp [headerSamples]
@[simp] theorem payloadSamples_length (s : State) : (payloadSamples P s).length = s.geoNsym.toNat := by
  simp [payloadSamples]
@[simp] theorem rampDownSamples_length (s : State) : (rampDownSamples P s).length = s.live.rampDown.toNat := by
  simp [rampDownSamples]

/-! ### What an operation reads -/

theorem hdrEncode_congr {s t : State} (hr : s.hdrRaw = t.hdrRaw) (hl : s.live = t.live) :
    (hdrEncode P s).hdrRaw = (hdrEncode P t).hdrRaw ∧ (hdrEncode P s).hdrEnc = (hdrEncode P t).hdrEnc := by
  simp only [hdrEncode, hdrInterleave, hdrFec, hdrScramble, hdrChecksum, hdrAssemble, hr, hl, and_self]

theorem hdrModulate_congr {s t : State} (he : s.hdrEnc = t.hdrEnc) :
    (hdrModulate P s).hdrSym = (hdrModulate P t).hdrSym := by simp only [hdrModulate, he]

theorem repack_congr {s t : State} (hb : s.payBuf = t.payBuf) (hs : s.paySym = t.paySym)
    (hl : s.live = t.live) (hg : s.geoNsym = t.geoNsym) : (repack P s).paySym = (repack P t).paySym := by
  simp only [repack, payClear, repackSymbols, hb, hs, hl, hg]

theorem payModulate_congr {s t : State} (hs : s.paySym = t.paySym) (hm : s.paySmp = t.paySmp)
    (hsel : s.modSel = t.modSel) (hg : s.geoNsym = t.geoNsym) :
    (payModulate P s).paySmp = (payModulate P t).paySmp := by simp only [payModulate, hs, hm, hsel, hg]

theorem syncSamples_congr {s t : State} (h : s.pnSeq = t.pnSeq) : syncSamples s = syncSamples t := by
  simp only [syncSamples, h]

theorem headerSamples_congr {s t : State} (h : s.hdrSym = t.hdrSym) : headerSamples s = headerSamples t := by
  simp only [headerSamples, h]

theorem payloadSamples_congr {s t : State} (h : s.paySmp = t.paySmp) (hg : s.geoNsym = t.geoNsym) :
    payloadSamples P s = payloadSamples P t := by simp only [payloadSamples, h, hg]

theorem rampDownSamples_congr {s t : State} (hl : s.live = t.live) (hc : s.rdDivSel = t.rdDivSel)
    (hd : s.draws = t.draws) : rampDownSamples P s = rampDownSamples P t := by
  unfold rampDownSamples rampDownAmplitude rampDownDivisor
  rw [hl, hc, hd]

/-! ### The samples of a frame -/

/-- The samples EXEC_RUN writes, in order (R129). -/
def frameSamples (P : Params) (s : State) : List Sample :=
  rampUpSamples P 0 s.live.rampUp.toNat ++ phasingSamples P s.live.rampUp.toNat s.live.phasing.toNat
    ++ syncSamples s ++ headerSamples (hdrModulate P (hdrEncode P s))
    ++ payloadSamples P (payModulate P (repack P s)) ++ rampDownSamples P s

theorem frameSamples_length (s : State) : (frameSamples P s).length
    = s.live.rampUp.toNat + s.live.phasing.toNat + 64 + 256 + s.geoNsym.toNat + s.live.rampDown.toNat := by
  simp [frameSamples]; omega

/-- `t` is `s` after writing `xs` to OUT from index 0, with N at their end. -/
structure Wrote (P : Params) (s : State) (xs : List Sample) (t : State) : Prop where
  count : t.n = xs.length
  canonical : MemCanonical P s → MemCanonical P t
  memDraw : t.memDraw = s.memDraw
  inside : MemCanonical P s → ∀ k (hk : k < xs.length), t.out P k = xs[k]
  outside : ∀ a, a < Config.outBase ∨ Config.outBase + 8 * xs.length ≤ a → t.byteAt P a = s.byteAt P a
  cells : ∀ c ∈ t.mem, (Config.outBase ≤ c.1 ∧ c.1 < Config.outBase + 8 * xs.length) ∨ c ∈ s.mem

theorem Wrote.congr {s t t' : State} {xs : List Sample} (h : Wrote P s xs t) (hm : t'.mem = t.mem)
    (hd : t'.memDraw = t.memDraw) (hn : t'.n = t.n) : Wrote P s xs t' where
  count := hn.trans h.count
  canonical hs := memCanonical_congr hm.symm hd.symm (h.canonical hs)
  memDraw := hd.trans h.memDraw
  inside hs k hk := (out_congr hm hd k).trans (h.inside hs k hk)
  outside a ha := (byteAt_congr hm hd a).trans (h.outside a ha)
  cells := by rw [hm]; exact h.cells

theorem Wrote.start {s t : State} (hm : t.mem = s.mem) (hd : t.memDraw = s.memDraw)
    (hn : t.n = 0) : Wrote P s [] t where
  count := hn
  canonical hs := memCanonical_congr hm.symm hd.symm hs
  memDraw := hd
  inside _ k hk := by simp at hk
  outside a _ := byteAt_congr hm hd a
  cells := by rw [hm]; exact fun c hc => .inr hc

theorem Wrote.emit {s t : State} {xs : List Sample} (h : Wrote P s xs t) (ys : List Sample) :
    Wrote P s (xs ++ ys) (emitAll P ys t) where
  count := by simp [h.count]
  canonical hs := memCanonical_emitAll (h.canonical hs)
  memDraw := h.memDraw
  inside hs k hk := by
    rw [out_emitAll (h.canonical hs)]
    split
    · next hk' => rw [List.getElem_append_right (by have := h.count; omega)]; simp only [h.count]
    · next hk' =>
      have hlt : k < xs.length := by simp only [List.length_append] at hk; have := h.count; omega
      rw [h.inside hs k hlt, List.getElem_append_left hlt]
  outside a ha := by
    have := h.count
    simp only [List.length_append] at ha
    rw [byteAt_emitAll_outside (by omega), h.outside a (by omega)]
  cells c hc := by
    have := h.count
    rcases Memory.mem_writeBytes hc with hc | hc
    · rw [flatMap_sampleBytes_length] at hc
      simp only [List.length_append]
      exact .inl (by omega)
    · rcases h.cells c hc with hc | hc
      · simp only [List.length_append]
        exact .inl (by omega)
      · exact .inr hc

/-! ### EXEC_RUN -/

theorem execRun_frame (s : State) :
    execRun P s = { s with
      n := (execRun P s).n, seg := .idle, mem := (execRun P s).mem, draws := (execRun P s).draws,
      hdrRaw := (execRun P s).hdrRaw, hdrEnc := (execRun P s).hdrEnc, hdrSym := (execRun P s).hdrSym,
      paySym := (execRun P s).paySym, paySmp := (execRun P s).paySmp } := by
  apply State.ext <;> simp [execRun, rampUp, phasing, syncOut, hdrOut, payOut]

theorem execRun_n (s : State) : (execRun P s).n = (frameSamples P s).length := by
  simp [execRun, rampUp, phasing, syncOut, hdrOut, payOut, frameSamples_length]

theorem execRun_draws (s : State) :
    (execRun P s).draws = if rampDownDivisor s = 0 then s.draws + 1 else s.draws := by
  simp [execRun, rampUp, phasing, syncOut, hdrOut, payOut, rampDownDivisor]
  rfl

theorem execRun_hdrRaw (s : State) : (execRun P s).hdrRaw = (hdrEncode P s).hdrRaw := by
  simp only [execRun, rampUp, phasing, syncOut, hdrOut, payOut, rampDown_hdrRaw, emitAll_hdrRaw, payModulate_hdrRaw,
    repack_hdrRaw, hdrModulate_hdrRaw]
  exact (hdrEncode_congr (by simp) (by simp)).1

theorem execRun_hdrEnc (s : State) : (execRun P s).hdrEnc = (hdrEncode P s).hdrEnc := by
  simp only [execRun, rampUp, phasing, syncOut, hdrOut, payOut, rampDown_hdrEnc, emitAll_hdrEnc, payModulate_hdrEnc,
    repack_hdrEnc, hdrModulate_hdrEnc]
  exact (hdrEncode_congr (by simp) (by simp)).2

theorem execRun_hdrSym (s : State) : (execRun P s).hdrSym = (hdrModulate P (hdrEncode P s)).hdrSym := by
  simp only [execRun, rampUp, phasing, syncOut, hdrOut, payOut, rampDown_hdrSym, emitAll_hdrSym, payModulate_hdrSym,
    repack_hdrSym]
  exact hdrModulate_congr (hdrEncode_congr (by simp) (by simp)).2

theorem execRun_paySym (s : State) : (execRun P s).paySym = (repack P s).paySym := by
  simp only [execRun, rampUp, phasing, syncOut, hdrOut, payOut, rampDown_paySym, emitAll_paySym, payModulate_paySym]
  exact repack_congr (by simp) (by simp) (by simp) (by simp)

theorem execRun_paySmp (s : State) : (execRun P s).paySmp = (payModulate P (repack P s)).paySmp := by
  simp only [execRun, rampUp, phasing, syncOut, hdrOut, payOut, rampDown_paySmp, emitAll_paySmp]
  exact payModulate_congr (repack_congr (by simp) (by simp) (by simp) (by simp)) (by simp) (by simp) (by simp)

/-- EXEC_RUN writes the frame's samples to OUT from index 0, and no other byte (R129). -/
theorem execRun_wrote (s : State) : Wrote P s (frameSamples P s) (execRun P s) := by
  have h0 : Wrote P s [] { s with n := 0, seg := .rampUp } := Wrote.start rfl rfl rfl
  have h1 := (h0.emit (rampUpSamples P 0 s.live.rampUp.toNat)).congr
    (t' := { rampUp P { s with n := 0, seg := .rampUp } with seg := .phasing }) rfl rfl rfl
  generalize hs1 : { rampUp P { s with n := 0, seg := .rampUp } with seg := Segment.phasing } = s1 at h1
  have h2 := (h1.emit (phasingSamples P s.live.rampUp.toNat s.live.phasing.toNat)).congr
    (t' := { phasing P s1 with seg := .sync })
    (by rw [← hs1]; simp [phasing, rampUp]) (by rw [← hs1]; simp [phasing, rampUp]) (by rw [← hs1]; simp [phasing, rampUp])
  generalize hs2 : { phasing P s1 with seg := Segment.sync } = s2 at h2
  have h3 := (h2.emit (syncSamples s)).congr (t' := { syncOut P s2 with seg := .header })
    (by rw [← hs2, ← hs1]; simp [syncOut, syncSamples, phasing, rampUp])
    (by simp [syncOut]) (by simp [syncOut])
  generalize hs3 : { syncOut P s2 with seg := Segment.header } = s3 at h3
  have e3 : s3.hdrRaw = s.hdrRaw ∧ s3.live = s.live := by
    rw [← hs3, ← hs2, ← hs1]; simp [syncOut, phasing, rampUp]
  have h4 := (h3.emit (headerSamples (hdrModulate P (hdrEncode P s)))).congr
    (t' := { hdrOut P (hdrModulate P (hdrEncode P s3)) with seg := .payload })
    (by
      have : (hdrModulate P (hdrEncode P s3)).hdrSym = (hdrModulate P (hdrEncode P s)).hdrSym :=
        hdrModulate_congr (hdrEncode_congr e3.1 e3.2).2
      simp only [hdrOut, emitAll_mem, headerSamples_congr this]
      rw [unlisted_congr (t := s3) (by simp)]
      simp)
    (by simp [hdrOut]) (by simp [hdrOut])
  generalize hs4 : { hdrOut P (hdrModulate P (hdrEncode P s3)) with seg := Segment.payload } = s4 at h4
  have e4 : s4.payBuf = s.payBuf ∧ s4.paySym = s.paySym ∧ s4.paySmp = s.paySmp ∧ s4.live = s.live ∧
      s4.geoNsym = s.geoNsym ∧ s4.modSel = s.modSel := by
    rw [← hs4, ← hs3, ← hs2, ← hs1]; simp [hdrOut, syncOut, phasing, rampUp]
  have h5 := (h4.emit (payloadSamples P (payModulate P (repack P s)))).congr
    (t' := { payOut P (payModulate P (repack P s4)) with seg := .rampDown })
    (by
      obtain ⟨hb, hy, hp, hl, hg, hm⟩ := e4
      have : payloadSamples P (payModulate P (repack P s4)) = payloadSamples P (payModulate P (repack P s)) :=
        payloadSamples_congr
          (payModulate_congr (repack_congr hb hy hl hg) (by simp [hp]) (by simp [hm]) (by simp [hg])) (by simp [hg])
      simp only [payOut, emitAll_mem, this]
      rw [unlisted_congr (t := s4) (by simp)]
      simp)
    (by simp [payOut]) (by simp [payOut, e4.2.2.2.2.1])
  generalize hs5 : { payOut P (payModulate P (repack P s4)) with seg := Segment.rampDown } = s5 at h5
  have e5 : s5.live = s.live ∧ s5.rdDivSel = s.rdDivSel ∧ s5.draws = s.draws := by
    rw [← hs5, ← hs4, ← hs3, ← hs2, ← hs1]; simp [payOut, hdrOut, syncOut, phasing, rampUp]
  have h6 := (h5.emit (rampDownSamples P s)).congr (t' := { rampDown P s5 with seg := .idle })
    (by simp [rampDown, rampDownSamples_congr e5.1 e5.2.1 e5.2.2]) (by simp [rampDown]) (by simp [rampDown, e5.1])
  have hrun : execRun P s = { rampDown P s5 with seg := .idle } := by
    rw [← hs5, ← hs4, ← hs3, ← hs2, ← hs1]; rfl
  rw [hrun]
  simpa [frameSamples] using h6

end Sys2Proof.Machine
end

