-- ==== Sys2Proof/Laws/Geometry.lean ====
section
/-! SUPPORT. Validity and geometry of a configuration (R121, R122): what VALID says, and that the counts fit a register. -/

namespace Sys2Proof.Machine

variable {P : Params}

theorem valid_iff (cfg : Cfg) :
    valid P cfg = true ↔ 1 ≤ cfg.depth.toNat ∧ P.modSupported cfg.scheme cfg.depth = true := by simp [valid]

/-- DEFAULT_CFG is valid (R120, R121). -/
theorem valid_default : valid P (Cfg.default P) = true := by simp [valid_iff, Cfg.default, P.modSupported_default]

theorem nsymOf_le (cfg : Cfg) (h : 1 ≤ cfg.depth.toNat) : nsymOf cfg ≤ 8 * cfg.payLen.toNat := by
  unfold nsymOf
  generalize 8 * cfg.payLen.toNat = m
  have := Nat.le_mul_of_pos_right m h
  refine Nat.le_of_lt_succ ((Nat.div_lt_iff_lt_mul (by omega)).mpr ?_)
  rw [Nat.succ_mul]
  omega

theorem nsymOf_lt (cfg : Cfg) (h : 1 ≤ cfg.depth.toNat) : nsymOf cfg ≤ 524280 := by
  have := nsymOf_le cfg h
  have := cfg.payLen.isLt
  omega

theorem frameLenOf_le (cfg : Cfg) (h : 1 ≤ cfg.depth.toNat) : frameLenOf cfg ≤ 721205 := by
  have := nsymOf_lt cfg h
  have := cfg.rampUp.isLt
  have := cfg.phasing.isLt
  have := cfg.rampDown.isLt
  unfold frameLenOf
  omega

/-- The registers hold the geometry whole. -/
theorem geoNsym_toNat (cfg : Cfg) (h : 1 ≤ cfg.depth.toNat) : (BitVec.ofNat 32 (nsymOf cfg)).toNat = nsymOf cfg := by
  have := nsymOf_lt cfg h
  rw [BitVec.toNat_ofNat]; omega

theorem geoFrameLen_toNat (cfg : Cfg) (h : 1 ≤ cfg.depth.toNat) :
    (BitVec.ofNat 32 (frameLenOf cfg)).toNat = frameLenOf cfg := by
  have := frameLenOf_le cfg h
  rw [BitVec.toNat_ofNat]; omega

/-- An empty payload has no symbols (R138). -/
theorem nsymOf_empty (cfg : Cfg) (h : 1 ≤ cfg.depth.toNat) (hl : cfg.payLen = 0#16) : nsymOf cfg = 0 := by
  have := nsymOf_le cfg h
  simpa [hl] using this

end Sys2Proof.Machine
end

