-- ==== Sys2Proof/Laws/Sequence.lean ====
section
/-! SUPPORT. The PN-sequence generator: its bits by index (R171, R172). -/

namespace Sys2Proof.Machine

theorem pnState_succ (taps v : BitVec 6) (k : Nat) : pnState taps v (k + 1) = pnState taps (pnNext taps v) k := by
  induction k with
  | zero => rfl
  | succ k ih => exact congrArg (pnNext taps) ih

@[simp] theorem pnBits_length (taps v : BitVec 6) (k : Nat) : (pnBits taps v k).length = k := by
  induction k generalizing v with
  | zero => rfl
  | succ k ih => simp [pnBits, ih]

/-- Bit k is the bit returned in the state after k advances. -/
theorem pnBits_eq_map (taps v : BitVec 6) (n : Nat) :
    pnBits taps v n = (List.range n).map fun k => pnBit taps (pnState taps v k) := by
  induction n generalizing v with
  | zero => rfl
  | succ n ih =>
    rw [pnBits, ih, List.range_succ_eq_map, List.map_cons, List.map_map]
    simp only [Function.comp_def, pnState_succ]; rfl

end Sys2Proof.Machine
end

