-- ==== Sys2Proof/Laws/Assembler.lean ====
section
/-! SUPPORT. Everything each command can do (R123-R137), said once: which error it reports, or what it makes of the
state. -/

namespace Sys2Proof.Machine

variable {P : Params}

/-! ### CREATE -/

/-- What a successful CREATE leaves (R123). -/
def created (P : Params) (cfg : Cfg) (s : State) : State :=
  raise .ok { ensureCapacity (applyCfg cfg (initBuffers P (pnGenerate P s))) with created := true }

theorem create_cases (staged : Bool) (s : State) :
    (s.fault = true ∧ create P staged s = raise .faulted s) ∨
    (s.fault = false ∧ s.created = true ∧ create P staged s = raise .alreadyCreated s) ∨
    (s.fault = false ∧ s.created = false ∧ valid P (createOperand P staged s) = false ∧
      create P staged s = raise .configError s) ∨
    (s.fault = false ∧ s.created = false ∧ valid P (createOperand P staged s) = true ∧
      create P staged s = created P (createOperand P staged s) s) := by
  cases h : s.fault <;> cases h' : s.created <;> cases hv : valid P (createOperand P staged s) <;>
    simp [create, created, h, h', hv]

theorem created_eq (cfg : Cfg) (s : State) :
    created P cfg s = { s with
      created := true, lastErr := .ok, live := cfg, modSel := ⟨cfg.scheme, cfg.depth⟩,
      geoNsym := BitVec.ofNat 32 (nsymOf cfg), geoFrameLen := BitVec.ofNat 32 (frameLenOf cfg),
      allocPay := cfg.payLen.setWidth 32, allocSym := BitVec.ofNat 32 (nsymOf cfg),
      allocSmp := BitVec.ofNat 32 (nsymOf cfg), resizeCnt := (created P cfg s).resizeCnt,
      lfsr := pnState P.pnTaps P.pnSeed 64, pnSeq := pnBits P.pnTaps P.pnSeed 64,
      payBuf := (created P cfg s).payBuf, paySym := (created P cfg s).paySym, paySmp := (created P cfg s).paySmp,
      draws := (created P cfg s).draws } := by
  unfold created
  rw [ensureCapacity_eq]
  rfl

theorem created_resizeCnt_toNat (cfg : Cfg) (s : State) :
    (created P cfg s).resizeCnt.toNat = ((if P.minAlloc = cfg.payLen.setWidth 32 then 0 else 1)
      + (if P.minAlloc = BitVec.ofNat 32 (nsymOf cfg) then 0 else 1)
      + (if P.minAlloc = BitVec.ofNat 32 (nsymOf cfg) then 0 else 1)) % 2 ^ 32 := by
  exact ensureCapacity_resizeCnt_toNat (applyCfg cfg (initBuffers P (pnGenerate P s))) |>.trans (by simp; rfl)

/-! ### SETCFG -/

theorem setcfg_cases (s : State) :
    (s.fault = true ∧ setcfg P s = raise .faulted s) ∨
    (s.fault = false ∧ s.created = false ∧ setcfg P s = raise .notCreated s) ∨
    (s.fault = false ∧ s.created = true ∧ valid P s.staged = false ∧ setcfg P s = raise .configError s) ∨
    (s.fault = false ∧ s.created = true ∧ valid P s.staged = true ∧
      setcfg P s = raise .ok (ensureCapacity (applyCfg s.staged s))) := by
  unfold setcfg
  cases s.fault <;> cases s.created <;> cases valid P s.staged <;> simp

theorem reconfigured_eq (cfg : Cfg) (s : State) :
    ensureCapacity (applyCfg cfg s) = { s with
      live := cfg, modSel := ⟨cfg.scheme, cfg.depth⟩, geoNsym := BitVec.ofNat 32 (nsymOf cfg),
      geoFrameLen := BitVec.ofNat 32 (frameLenOf cfg), allocPay := cfg.payLen.setWidth 32,
      allocSym := BitVec.ofNat 32 (nsymOf cfg), allocSmp := BitVec.ofNat 32 (nsymOf cfg),
      resizeCnt := (ensureCapacity (applyCfg cfg s)).resizeCnt, payBuf := (ensureCapacity (applyCfg cfg s)).payBuf,
      paySym := (ensureCapacity (applyCfg cfg s)).paySym, paySmp := (ensureCapacity (applyCfg cfg s)).paySmp,
      draws := (ensureCapacity (applyCfg cfg s)).draws } := by
  rw [ensureCapacity_eq]
  rfl

/-! ### DESTROY -/

/-- What a successful DESTROY leaves (R137). -/
def destroyed (P : Params) (s : State) : State :=
  raise .ok
    { unspecifyInstance P s with
      live := Cfg.zero
      geoNsym := 0#32
      geoFrameLen := 0#32
      allocPay := 0#32
      allocSym := 0#32
      allocSmp := 0#32
      created := false }

theorem destroy_cases (s : State) :
    (s.fault = true ∧ destroy P s = raise .faulted s) ∨
    (s.fault = false ∧ s.created = false ∧ destroy P s = raise .notCreated s) ∨
    (s.fault = false ∧ s.created = true ∧ destroy P s = destroyed P s) := by
  unfold destroy destroyed
  cases s.fault <;> cases s.created <;> simp

/-! ### EXEC -/

/-- The state EXEC_RUN leaves, given the state EXEC starts from (R128, R129). -/
def ran (P : Params) (s : State) : State := execRun P (execCapture P s)

theorem runFrame_cases (s : State) :
    (s.fault = true ∧ runFrame P s = raise .faulted s) ∨
    (s.fault = false ∧ s.created = false ∧ runFrame P s = raise .notCreated s) ∨
    (s.fault = false ∧ s.created = true ∧ s.outCap.toNat < s.geoFrameLen.toNat ∧
      runFrame P s = raise .capacityError s) ∨
    (s.fault = false ∧ s.created = true ∧ s.geoFrameLen.toNat ≤ s.outCap.toNat ∧
      runFrame P s = execEnd (ran P s)) := by
  unfold runFrame ran
  rcases Nat.lt_or_ge s.outCap.toNat s.geoFrameLen.toNat with h | h <;> cases s.fault <;> cases s.created <;>
    simp [h, Nat.not_lt.mpr]

/-- The samples an EXEC writes, given the state it starts from (R128, R129). -/
def framed (P : Params) (s : State) : List Sample := frameSamples P (execCapture P s)

theorem framed_length (s : State) :
    (framed P s).length = s.live.rampUp.toNat + s.live.phasing.toNat + 64 + 256 + s.geoNsym.toNat
      + s.live.rampDown.toNat := by
  rw [framed, frameSamples_length]; rfl

theorem ran_n (s : State) : (ran P s).n = (framed P s).length := execRun_n _

theorem ran_frame (s : State) :
    ran P s = { s with
      n := (ran P s).n, seg := .idle, mem := (ran P s).mem,
      draws := if rampDownDivisor s = 0 then s.draws + 1 else s.draws,
      hdrRaw := (ran P s).hdrRaw, hdrEnc := (ran P s).hdrEnc, hdrSym := (ran P s).hdrSym,
      payBuf := (execCapture P s).payBuf, paySym := (ran P s).paySym, paySmp := (ran P s).paySmp } := by
  conv_lhs => rw [ran, execRun_frame, execRun_draws]
  rfl

/-- EXEC writes its frame to OUT from index 0, and no other byte (R129). -/
theorem ran_wrote (s : State) : Wrote P s (framed P s) (ran P s) :=
  have w := execRun_wrote (P := P) (execCapture P s)
  ⟨w.count, w.canonical, w.memDraw, w.inside, w.outside, w.cells⟩

theorem ran_fields (s : State) :
    (ran P s).created = s.created ∧ (ran P s).fault = s.fault ∧ (ran P s).busy = s.busy ∧ (ran P s).seg = .idle ∧
    (ran P s).live = s.live ∧ (ran P s).geoNsym = s.geoNsym ∧ (ran P s).geoFrameLen = s.geoFrameLen ∧
    (ran P s).faultExp = s.faultExp ∧ (ran P s).faultCnt = s.faultCnt ∧ (ran P s).memDraw = s.memDraw := by
  rw [ran, execRun_frame]
  exact ⟨rfl, rfl, rfl, rfl, rfl, rfl, rfl, rfl, rfl, rfl⟩

/-- EXEC_END writes the result registers and no other state (R136). -/
theorem execEnd_frame (s : State) :
    execEnd s = { s with
      outCount := BitVec.ofNat 32 s.n, lastErr := (execEnd s).lastErr, fault := (execEnd s).fault,
      faultExp := (execEnd s).faultExp, faultCnt := (execEnd s).faultCnt } := by
  unfold execEnd
  dsimp only
  split <;> rfl

/-- Where the count is GEO_FRAMELEN, EXEC_END succeeds (R136). -/
theorem execEnd_of_eq {s : State} (h : s.n = s.geoFrameLen.toNat) :
    execEnd s = { s with outCount := s.geoFrameLen, lastErr := .ok } := by
  simp [execEnd, h, raise]

/-- Where it is not, EXEC_END reports INTERNAL_FAULT (R136, R263). -/
theorem execEnd_of_ne {s : State} (h : s.n ≠ s.geoFrameLen.toNat) :
    execEnd s = { s with
      outCount := BitVec.ofNat 32 s.n, lastErr := .internalFault, fault := true, faultExp := s.geoFrameLen,
      faultCnt := BitVec.ofNat 32 s.n } := by
  simp [execEnd, h, raise]

/-- The count matches the geometry of the live configuration. -/
theorem ran_n_of_geometry {s : State} (h : GeometryMatches s) : (ran P s).n = s.geoFrameLen.toNat := by
  rw [ran_n, framed_length, h.1, h.2]; rfl

/-- Where EXEC executes normally, everything it does (R127-R136). -/
theorem runFrame_of_ready {s : State} (h : ExecReady s) :
    runFrame P s = { ran P s with outCount := s.geoFrameLen, lastErr := .ok } := by
  have hg : (ran P s).geoFrameLen = s.geoFrameLen := by rw [ran, execRun_frame]; rfl
  have hc := h.capacity
  rcases runFrame_cases (P := P) s with ⟨hf, -⟩ | ⟨-, hf, -⟩ | ⟨-, -, hf, -⟩ | ⟨-, -, -, e⟩
  · simp [h.noFault] at hf
  · simp [h.created] at hf
  · omega
  · refine e.trans ((execEnd_of_eq ?_).trans ?_)
    · rw [hg]; exact ran_n_of_geometry h.geometry
    · rw [← hg]

end Sys2Proof.Machine
end

