-- ==== Sys2Proof/Laws/Decode.lean ====
section
/-! SUPPORT. The decoder and the encoder: a command word by its fields (R94), and the reads of a GETCFG (R96). -/

namespace Sys2Proof

/-! ### Command words -/

/-- A word whose reserved bits are 0 is its S bit and its OP field. -/
theorem eq_fields_of_reserved_zero {w : Word} (h : w &&& 0xFFFFFEF0#32 = 0#32) :
    w = (0#23 ++ BitVec.ofBool (w.getLsbD 8) ++ 0#4 ++ w.extractLsb' 0 4 : BitVec 32) := by
  apply BitVec.eq_of_getLsbD_eq
  intro i hi
  have hb := congrArg (fun v : Word => v.getLsbD i) h
  simp only [BitVec.getLsbD_and, BitVec.getLsbD_zero] at hb
  simp only [BitVec.getLsbD_append, BitVec.getLsbD_extractLsb', BitVec.getLsbD_ofBool, BitVec.getLsbD_zero]
  interval_cases i <;> simp_all

/-- The command words by constructor (R94). -/
theorem decodeCommand_of_mem {w : Word} (h : w ∈ commandWords) :
    (w = 0x1#32 ∧ decodeCommand w = .create false) ∨ (w = 0x101#32 ∧ decodeCommand w = .create true) ∨
    (w = 0x2#32 ∧ decodeCommand w = .setcfg) ∨ (w = 0x3#32 ∧ decodeCommand w = .exec) ∨
    (w = 0x4#32 ∧ decodeCommand w = .destroy) := by
  simp only [commandWords, List.mem_cons, List.not_mem_nil, or_false] at h
  rcases h with rfl | rfl | rfl | rfl | rfl <;> decide

/-- Every other word is reserved (R94, R95). -/
theorem decodeCommand_of_not_mem {w : Word} (h : w ∉ commandWords) : decodeCommand w = .reserved w := by
  unfold decodeCommand
  split
  · rfl
  · next hm =>
    rw [ne_eq, not_not] at hm
    have e := eq_fields_of_reserved_zero hm
    dsimp only
    generalize hop : w.extractLsb' 0 4 = op at e ⊢
    generalize hs : w.getLsbD 8 = s at e ⊢
    simp only [commandWords, List.mem_cons, List.not_mem_nil, or_false, not_or] at h
    obtain ⟨h1, h101, h2, h3, h4⟩ := h
    split
    · next ho => subst ho; cases s <;> simp_all
    split
    · next ho => subst ho; cases s <;> simp_all
    split
    · next ho => subst ho; cases s <;> simp_all
    split
    · next ho => subst ho; cases s <;> simp_all
    · rfl

/-- What a word decodes to encodes as that word. -/
theorem encode_decodeCommand (w : Word) :
    encode (decodeCommand w) = [commandWrite w] ∧ (decodeCommand w).wellFormed = true := by
  by_cases h : w ∈ commandWords
  · rcases decodeCommand_of_mem h with ⟨rfl, e⟩ | ⟨rfl, e⟩ | ⟨rfl, e⟩ | ⟨rfl, e⟩ | ⟨rfl, e⟩ <;> rw [e] <;> exact ⟨rfl, rfl⟩
  · rw [decodeCommand_of_not_mem h]
    exact ⟨rfl, by simpa [Instr.wellFormed] using h⟩

/-! ### Queries -/

/-- The address of a register names it. -/
theorem CfgReg.addr_injective {r r' : CfgReg} (h : r.csr.addr = r'.csr.addr) : r = r' := by
  revert h; cases r <;> cases r' <;> decide

theorem CfgReg.addr_ne_framelen (r : CfgReg) : r.csr.addr ≠ Csr.geoFramelen.addr := by cases r <;> decide

@[simp] theorem cfgRead?_csrReadEvent (r : CfgReg) : cfgRead? (csrReadEvent r.csr) = some r := by cases r <;> decide

/-- Only a read of a configuration register is one. -/
theorem cfgRead?_eq_some {ev : HostEvent} {r : CfgReg} (h : cfgRead? ev = some r) : ev = csrReadEvent r.csr := by
  unfold cfgRead? at h
  split at h <;> try cases h
  have := List.find?_some h
  simp only [beq_iff_eq] at this
  rw [csrReadEvent, this]

@[simp] theorem cfgReads?_map (order : List CfgReg) :
    cfgReads? (order.map fun r => csrReadEvent r.csr) = some order := by
  induction order with
  | nil => rfl
  | cons r rs ih => simp [cfgReads?, ih]

theorem cfgReads?_eq_some {evs : List HostEvent} {order : List CfgReg} (h : cfgReads? evs = some order) :
    evs = order.map fun r => csrReadEvent r.csr := by
  induction evs generalizing order with
  | nil => cases h; rfl
  | cons ev evs ih =>
    unfold cfgReads? at h
    split at h
    · next r rs h1 h2 =>
      cases h
      rw [List.map_cons, ← ih h2, cfgRead?_eq_some h1]
    · cases h

theorem isGetcfgOrder_iff {order : List CfgReg} : isGetcfgOrder order = true ↔ order.length = 5 ∧ order.Nodup := by
  simp [isGetcfgOrder]

/-- A GETCFG decodes from its own five reads and from no other accesses (R96). -/
theorem decodeGetcfg_eq_some {evs : List HostEvent} {order : List CfgReg} :
    decodeGetcfg evs = some order ↔
      isGetcfgOrder order = true ∧ evs = (order.map fun r => csrReadEvent r.csr) ++ evs.drop 5 := by
  constructor
  · intro h
    unfold decodeGetcfg at h
    split at h
    · next o ho =>
      split at h
      · next hg =>
        cases h
        refine ⟨hg, ?_⟩
        rw [← cfgReads?_eq_some ho, List.take_append_drop]
      · cases h
    · cases h
  · rintro ⟨hg, he⟩
    have hl : (order.map fun r => csrReadEvent r.csr).length = 5 := by simpa using (isGetcfgOrder_iff.mp hg).1
    have : evs.take 5 = order.map fun r => csrReadEvent r.csr := by
      rw [he, List.take_append_of_le_length (by omega), List.take_of_length_le (by omega)]
    simp [decodeGetcfg, this, hg]

end Sys2Proof
end

