-- ==== Sys2Proof/Laws/Defaults.lean ====
section
/-! SUPPORT. The default functions of R5 meet the constraints of R5. -/

namespace Sys2Proof.Machine

@[simp] theorem defaultScramble_length (x : List Byte) : (defaultScramble x).length = x.length := by
  simp [defaultScramble]

/-- The default scrambler is self-inverse (R192). -/
theorem defaultScramble_defaultScramble (x : List Byte) : defaultScramble (defaultScramble x) = x := by
  apply List.ext_getElem
  · simp
  · intro i h1 h2
    simp [defaultScramble]

end Sys2Proof.Machine
end

