-- ==== Sys2Proof/Laws/Output.lean ====
section
/-! SUPPORT. Which sample an EXEC leaves at each index of OUT, segment by segment (R129-R135, R173, R197, R224). -/

namespace Sys2Proof.Machine

variable {P : Params}

/-! ### Samples by index -/

theorem ran_out {s : State} (hs : MemCanonical P s) {k : Nat} {x : Sample} (h : (framed P s)[k]? = some x) :
    (ran P s).out P k = x := by
  obtain ⟨hk, hx⟩ := List.getElem?_eq_some_iff.mp h
  exact ((ran_wrote s).inside hs k hk).trans hx

/-- The state the header and the payload segments are computed from (R128). -/
theorem framed_eq (s : State) :
    framed P s = rampUpSamples P 0 s.live.rampUp.toNat
      ++ (phasingSamples P s.live.rampUp.toNat s.live.phasing.toNat
      ++ (syncSamples s ++ (headerSamples (ran P s) ++ (payloadSamples P (ran P s) ++ rampDownSamples P s)))) := by
  have h1 : headerSamples (ran P s) = headerSamples (hdrModulate P (hdrEncode P (execCapture P s))) :=
    headerSamples_congr (execRun_hdrSym (execCapture P s))
  have h2 : payloadSamples P (ran P s) = payloadSamples P (payModulate P (repack P (execCapture P s))) :=
    payloadSamples_congr (execRun_paySmp (execCapture P s)) (by rw [(ran_fields s).2.2.2.2.2.1]; simp)
  rw [h1, h2]
  simp only [framed, frameSamples, List.append_assoc]
  rfl

theorem ran_out_rampUp {s : State} (hs : MemCanonical P s) {i : Nat} (hi : i < s.live.rampUp.toNat) :
    (ran P s).out P i = ⟨signTimes P (sgnNegative P i) (P.envUp i s.live.rampUp.toNat), f32Zero⟩ := by
  refine ran_out hs ?_
  rw [framed_eq, List.getElem?_append_left (by simpa using hi)]
  simp [rampUpSamples, hi]

theorem ran_out_phasing {s : State} (hs : MemCanonical P s) {j : Nat} (hj : j < s.live.phasing.toNat) :
    (ran P s).out P (s.live.rampUp.toNat + j)
      = ⟨signTimes P (sgnNegative P (s.live.rampUp.toNat + j)) f32One, f32Zero⟩ := by
  refine ran_out hs ?_
  rw [framed_eq, List.getElem?_append_right (by simp), List.getElem?_append_left (by simpa using hj)]
  simp [phasingSamples, hj]

theorem ran_out_sync {s : State} (hs : MemCanonical P s) {k : Nat} (hk : k < 64) :
    (ran P s).out P (s.live.rampUp.toNat + s.live.phasing.toNat + k) = chipSample (s.pnSeq.getD k false) := by
  refine ran_out hs ?_
  rw [framed_eq, List.getElem?_append_right (by simp; omega), List.getElem?_append_right (by simp; omega),
    List.getElem?_append_left (by simp; omega)]
  simp only [rampUpSamples_length, phasingSamples_length]
  rw [show s.live.rampUp.toNat + s.live.phasing.toNat + k - s.live.rampUp.toNat - s.live.phasing.toNat = k by omega]
  simp [syncSamples, hk]

theorem ran_out_header {s : State} (hs : MemCanonical P s) {p : Nat} (hp : p < 256) :
    (ran P s).out P (s.live.rampUp.toNat + s.live.phasing.toNat + 64 + p)
      = (ran P s).hdrSym.getD p ⟨f32Zero, f32Zero⟩ := by
  refine ran_out hs ?_
  rw [framed_eq, List.getElem?_append_right (by simp; omega), List.getElem?_append_right (by simp; omega),
    List.getElem?_append_right (by simp; omega), List.getElem?_append_left (by simp; omega)]
  simp only [rampUpSamples_length, phasingSamples_length, syncSamples_length]
  rw [show s.live.rampUp.toNat + s.live.phasing.toNat + 64 + p - s.live.rampUp.toNat - s.live.phasing.toNat - 64 = p by
    omega]
  simp [headerSamples, hp]

theorem ran_out_payload {s : State} (hs : MemCanonical P s) {k : Nat} (hk : k < s.geoNsym.toNat) :
    (ran P s).out P (s.live.rampUp.toNat + s.live.phasing.toNat + 320 + k)
      = (ran P s).paySmp.get P.drawSample k := by
  have hg : (ran P s).geoNsym = s.geoNsym := (ran_fields s).2.2.2.2.2.1
  refine ran_out hs ?_
  rw [framed_eq, List.getElem?_append_right (by simp; omega), List.getElem?_append_right (by simp; omega),
    List.getElem?_append_right (by simp; omega), List.getElem?_append_right (by simp; omega),
    List.getElem?_append_left (by simp [hg]; omega)]
  simp only [rampUpSamples_length, phasingSamples_length, syncSamples_length, headerSamples_length]
  rw [show s.live.rampUp.toNat + s.live.phasing.toNat + 320 + k - s.live.rampUp.toNat - s.live.phasing.toNat - 64 - 256
    = k by omega]
  simp [payloadSamples, hg, hk]

theorem ran_out_rampDown {s : State} (hs : MemCanonical P s) {i : Nat} (hi : i < s.live.rampDown.toNat) :
    (ran P s).out P (s.live.rampUp.toNat + s.live.phasing.toNat + 320 + s.geoNsym.toNat + i)
      = ⟨signTimes P (sgnNegative P i) (rampDownAmplitude P s i), f32Zero⟩ := by
  have hg : (ran P s).geoNsym = s.geoNsym := (ran_fields s).2.2.2.2.2.1
  refine ran_out hs ?_
  rw [framed_eq, List.getElem?_append_right (by simp; omega), List.getElem?_append_right (by simp; omega),
    List.getElem?_append_right (by simp; omega), List.getElem?_append_right (by simp; omega),
    List.getElem?_append_right (by simp [hg]; omega)]
  simp only [rampUpSamples_length, phasingSamples_length, syncSamples_length, headerSamples_length,
    payloadSamples_length, hg]
  rw [show s.live.rampUp.toNat + s.live.phasing.toNat + 320 + s.geoNsym.toNat + i - s.live.rampUp.toNat
    - s.live.phasing.toNat - 64 - 256 - s.geoNsym.toNat = i by omega]
  simp [rampDownSamples, hi]

/-! ### The sign rule -/

theorem sgnNegative_eq (k : Nat) : sgnNegative P k = (decide (k % 2 = 0) == P.evenNegative) := by
  unfold sgnNegative
  rcases Nat.mod_two_eq_zero_or_one k with h | h <;> cases P.evenNegative <;> simp [h]

/-- The product of a sign and an amplitude is what R10 and R11 say. -/
theorem isSignTimes_signTimes (k : Nat) (a : F32) : IsSignTimes P k a (signTimes P (sgnNegative P k) a) := by
  rw [sgnNegative_eq]
  unfold signTimes
  refine ⟨fun h => ?_, fun h => ?_⟩
  · rw [h]; rfl
  · rw [h]; exact P.nanProduct_isNaN _ _

/-- The product of a sign and 1.0 is 1.0 or -1.0. -/
theorem signTimes_one (neg : Bool) : signTimes P neg f32One = if neg then f32NegOne else f32One := by
  cases neg <;> rfl

end Sys2Proof.Machine
end

