-- ==== Sys2Proof/Laws/Payload.lean ====
section
/-! SUPPORT. What the payload codec leaves (R220-R225): the bits of a symbol, the symbols, the samples. -/

namespace Sys2Proof.Machine

variable {P : Params}

/-! ### Symbols -/

/-- Shifting in d bits, first bit first, leaves bit j at position d - 1 - j. -/
theorem getLsbD_foldl_shift (f : Nat → Bool) (d : Nat) (hd : d ≤ 15) (i : Nat) :
    ((List.range d).foldl (fun (sym : BitVec 15) j => (sym <<< 1) ||| (BitVec.ofBool (f j)).setWidth 15) 0#15).getLsbD i
      = (decide (i < d) && f (d - 1 - i)) := by
  induction d generalizing i with
  | zero => simp
  | succ d ih =>
    rw [List.range_succ, List.foldl_append, List.foldl_cons, List.foldl_nil, BitVec.getLsbD_or, BitVec.getLsbD_shiftLeft,
      ih (by omega), BitVec.getLsbD_setWidth, BitVec.getLsbD_ofBool]
    cases i with
    | zero => simp
    | succ i =>
      by_cases h : i < d
      · have h15 : i + 1 < 15 := by omega
        simp [h, h15, show d - 1 - i = d - (i + 1) by omega]
      · simp [h]

/-- Symbol k holds bits k d to k d + d - 1 of the stream, the first at its top (R221). -/
theorem symbolAt_getLsbD (B : Nat → Byte) (len d k : Nat) (hd : d ≤ 15) (i : Nat) :
    (symbolAt B len d k).getLsbD i = (decide (i < d) && payloadBit B len (k * d + (d - 1 - i))) :=
  getLsbD_foldl_shift (fun j => payloadBit B len (k * d + j)) d hd i

theorem payloadBit_congr {B B' : Nat → Byte} {len : Nat} (h : ∀ j, j < len → B j = B' j) (p : Nat) :
    payloadBit B len p = payloadBit B' len p := by
  unfold payloadBit bitMSB
  split
  · rw [h _ (by omega)]
  · rfl

theorem symbolAt_congr {B B' : Nat → Byte} {len : Nat} (h : ∀ j, j < len → B j = B' j) (d k : Nat) :
    symbolAt B len d k = symbolAt B' len d k := by
  unfold symbolAt
  simp only [payloadBit_congr h]

/-- With depth 8 a symbol is a byte (R225). -/
theorem symbolAt_eight (B : Nat → Byte) {len k : Nat} (hk : k < len) :
    symbolAt B len 8 k = (B k).setWidth 15 := by
  apply BitVec.eq_of_getLsbD_eq
  intro i _
  rw [symbolAt_getLsbD _ _ _ _ (by omega), BitVec.getLsbD_setWidth]
  by_cases h : i < 8
  · have h1 : k * 8 + (8 - 1 - i) < 8 * len := by omega
    simp only [payloadBit, bitMSB, if_pos h1]
    rw [show (k * 8 + (8 - 1 - i)) / 8 = k by omega, show 7 - (k * 8 + (8 - 1 - i)) % 8 = i by omega]
    simp [h, show i < 15 by omega]
  · simp [h, BitVec.getLsbD_of_ge _ _ (Nat.not_lt.mp h)]

/-! ### The buffers after an EXEC -/

theorem ran_payBuf (s : State) : (ran P s).payBuf = (execCapture P s).payBuf := by rw [ran, execRun_frame]

/-- PAY_BUF holds the captured payload (R128). -/
theorem ran_payBuf_get (s : State) {j : Nat} (hj : j < s.live.payLen.toNat) :
    (ran P s).payBuf.get P.drawByte j = s.pin P j := by
  rw [ran_payBuf]
  refine (Buffer.get_put_of_lt (by simpa using hj)).trans ?_
  simp

/-- PAY_SYM holds the repacked payload (R221). -/
theorem ran_paySym_get (s : State) {k : Nat} (hk : k < s.geoNsym.toNat) :
    (ran P s).paySym.get P.drawSymbol k = symbolAt (s.pin P) s.live.payLen.toNat s.live.depth.toNat k := by
  rw [ran, execRun_paySym]
  refine (Buffer.get_put_of_lt (by simpa [repackSymbols] using hk)).trans ?_
  simp only [repackSymbols, List.getElem_map, List.getElem_range]
  refine symbolAt_congr (fun j hj => ?_) _ _
  refine (Buffer.get_put_of_lt (by simpa using hj)).trans ?_
  simp

/-- PAY_SMP holds the modulated payload (R223). -/
theorem ran_paySmp_get (s : State) {k : Nat} (hk : k < s.geoNsym.toNat) :
    (ran P s).paySmp.get P.drawSample k
      = P.modMap s.modSel.scheme s.modSel.depth (symbolAt (s.pin P) s.live.payLen.toNat s.live.depth.toNat k) := by
  rw [← ran_paySym_get s hk, ran, execRun_paySmp, execRun_paySym]
  refine (Buffer.get_put_of_lt (by simpa using hk)).trans ?_
  simp

end Sys2Proof.Machine
end

