-- ==== Sys2Proof/Laws/PerInstr.lean ====
section
/-! SUPPORT. Statements made per operation. Encoding: the accesses of a well-formed operation are 32-bit, aligned and in
the CSR window (R68, R90, R96), one for a command or a FRAMELEN and five for a GETCFG, and a command is a write of its
word to CMD. -/

namespace Sys2Proof.Laws.Encoding

/-- A 32-bit aligned access to the CSR window. -/
def IsCsrAccess : HostEvent → Prop
  | .read width addr => width = .b32 ∧ addr.toNat ≤ 0xFFF ∧ addr.toNat % 4 = 0
  | .write width addr _ => width = .b32 ∧ addr.toNat ≤ 0xFFF ∧ addr.toNat % 4 = 0
  | .reset => False

/-- How many accesses an operation is (R90, R96). -/
def accessCount : Instr → Nat
  | .create _ => 1
  | .setcfg => 1
  | .exec => 1
  | .destroy => 1
  | .getcfg _ => 5
  | .framelen => 1
  | .reserved _ => 1

/-- What every operation's encoding is like. -/
def Statement (i : Instr) : Prop :=
  i.wellFormed = true → (encode i).length = accessCount i ∧ ∀ ev ∈ encode i, IsCsrAccess ev

theorem isCsrAccess_csrReadEvent (c : Csr) : IsCsrAccess (csrReadEvent c) := by
  cases c <;> exact ⟨rfl, by decide, by decide⟩

theorem isCsrAccess_commandWrite (w : Word) : IsCsrAccess (commandWrite w) := ⟨rfl, by decide, by decide⟩

/-- An encoding of one access is like that when its access is. -/
theorem statement_of_single {i : Instr} {ev : HostEvent} (he : encode i = [ev]) (hc : accessCount i = 1)
    (h : IsCsrAccess ev) : Statement i := by
  intro _
  rw [he, hc]
  exact ⟨rfl, fun ev' h' => List.mem_singleton.mp h' ▸ h⟩

theorem create (staged : Bool) : Statement (.create staged) := by
  cases staged <;> exact statement_of_single rfl rfl (isCsrAccess_commandWrite _)

theorem setcfg : Statement .setcfg := statement_of_single rfl rfl (isCsrAccess_commandWrite _)

theorem exec : Statement .exec := statement_of_single rfl rfl (isCsrAccess_commandWrite _)

theorem destroy : Statement .destroy := statement_of_single rfl rfl (isCsrAccess_commandWrite _)

theorem getcfg (order : List CfgReg) : Statement (.getcfg order) := by
  intro h
  refine ⟨by simpa [encode, accessCount] using (isGetcfgOrder_iff.mp h).1, fun ev he => ?_⟩
  obtain ⟨r, -, rfl⟩ := List.mem_map.mp he
  exact isCsrAccess_csrReadEvent r.csr

theorem framelen : Statement .framelen := statement_of_single rfl rfl (isCsrAccess_csrReadEvent _)

theorem reserved (w : Word) : Statement (.reserved w) := statement_of_single rfl rfl (isCsrAccess_commandWrite _)

end Sys2Proof.Laws.Encoding
end

