-- ==== Sys2Proof/Laws/Step.lean ====
section
/-! SUPPORT. Steps that are data accesses (R69, R90): what a step does when the access at the front is no operation. -/

namespace Sys2Proof.Machine

variable {P : Params}

theorem access_read_ok {w : Width} {a : Word} {t : Target} {s : State} (h : admitAccess w a = .ok t) :
    access P (.read w a) s = .next (s.respond [readTarget P s t]) := by simp [access, h]

theorem access_read_error {w : Width} {a : Word} {r : Refusal} {s : State} (h : admitAccess w a = .error r) :
    access P (.read w a) s = .refused r := by simp [access, h]

theorem access_write_ok {w : Width} {a v : Word} {t : Target} {s : State} (h : admitAccess w a = .ok t) :
    access P (.write w a v) s = .next (writeTarget P v s t) := by simp [access, h]

theorem access_write_error {w : Width} {a v : Word} {r : Refusal} {s : State} (h : admitAccess w a = .error r) :
    access P (.write w a v) s = .refused r := by simp [access, h]

/-- A write anywhere but CMD is a data access (R90, R91). -/
theorem decode_write_data {w : Width} {a v : Word} {rest : List HostEvent} (h : a ≠ Csr.cmd.addr) :
    decode (.write w a v :: rest) = .error .dataAccess := by simp [decode, h]

/-- A read that is no FRAMELEN and begins no GETCFG is a data access (R90, R96). -/
theorem decode_read_of_no_getcfg {w : Width} {a : Word} {rest : List HostEvent} (h : a ≠ Csr.geoFramelen.addr)
    (hg : decodeGetcfg (.read w a :: rest) = none) : decode (.read w a :: rest) = .error .dataAccess := by
  simp [decode, h, hg]

/-- A read of an address that no query reads is a data access (R90, R96). -/
theorem decode_read_data {w : Width} {a : Word} {rest : List HostEvent} (h : a ≠ Csr.geoFramelen.addr)
    (h' : ∀ r : CfgReg, a ≠ r.csr.addr) : decode (.read w a :: rest) = .error .dataAccess := by
  refine decode_read_of_no_getcfg h ?_
  cases hg : decodeGetcfg (.read w a :: rest) with
  | none => rfl
  | some order =>
    exfalso
    obtain ⟨ho, he⟩ := decodeGetcfg_eq_some.mp hg
    cases order with
    | nil => simp [isGetcfgOrder] at ho
    | cons r rs =>
      simp only [List.map_cons, List.cons_append, List.cons.injEq, csrReadEvent, HostEvent.read.injEq] at he
      exact h' r he.1.2

/-- A step takes an access that is no operation as a data access. -/
theorem step_access {s : State} {ev : HostEvent} {rest : List HostEvent} {e : NotAnOperation}
    (hb : s.busy = false ∨ allowedWhileBusy ev = true) (hp : s.pending = ev :: rest)
    (hd : decode (ev :: rest) = .error e) : step s = access Config.params ev { s with pending := rest } := by
  rcases hb with hb | hb <;> simp [step, hp, hb, hd]

/-- A step that writes data. -/
theorem step_write {s : State} {w : Width} {a v : Word} {rest : List HostEvent} {t : Target} (hb : s.busy = false)
    (hp : s.pending = .write w a v :: rest) (ha : a ≠ Csr.cmd.addr) (ht : admitAccess w a = .ok t) :
    step s = .next (writeTarget Config.params v { s with pending := rest } t) :=
  (step_access (.inl hb) hp (decode_write_data ha)).trans (access_write_ok ht)

/-- A step that reads data, whatever accesses follow. -/
theorem step_read_of_no_getcfg {s : State} {w : Width} {a : Word} {rest : List HostEvent} {t : Target}
    (hb : s.busy = false) (hp : s.pending = .read w a :: rest) (ha : a ≠ Csr.geoFramelen.addr)
    (hg : decodeGetcfg s.pending = none) (ht : admitAccess w a = .ok t) :
    step s = .next ({ s with pending := rest }.respond [readTarget Config.params { s with pending := rest } t]) :=
  (step_access (.inl hb) hp (decode_read_of_no_getcfg ha (hp ▸ hg))).trans (access_read_ok ht)

/-- A step that reads data at an address that no query reads. -/
theorem step_read {s : State} {w : Width} {a : Word} {rest : List HostEvent} {t : Target} (hb : s.busy = false)
    (hp : s.pending = .read w a :: rest) (ha : a ≠ Csr.geoFramelen.addr) (ha' : ∀ r : CfgReg, a ≠ r.csr.addr)
    (ht : admitAccess w a = .ok t) :
    step s = .next ({ s with pending := rest }.respond [readTarget Config.params { s with pending := rest } t]) :=
  (step_access (.inl hb) hp (decode_read_data ha ha')).trans (access_read_ok ht)

end Sys2Proof.Machine
end

