-- ==== Sys2Proof/Machine/HostProgram.lean ====
section
/-! DEFINITION. The host-program notation (30_encoding.md R100, R101) as lists of host accesses. Labels and BNZ are the
host's own control flow and reach the block as nothing (R100). -/

namespace Sys2Proof.HostProgram

/-- `WR <csr>, <v>` (R100). -/
def wr (c : Csr) (v : Word) : List HostEvent := [.write .b32 c.addr v]

/-- `RD <csr>` (R100). -/
def rd (c : Csr) : List HostEvent := [.read .b32 c.addr]

/-- `WB <j>, <b>` (R100). -/
def wb (j : Nat) (b : Byte) : List HostEvent := [.write .b8 (BitVec.ofNat 32 (Config.pinBase + j)) (b.setWidth 32)]

/-- `RB <j>` (R100). -/
def rb (j : Nat) : List HostEvent := [.read .b8 (BitVec.ofNat 32 (Config.pinBase + j))]

/-- The address of OUT[k]'s real word (R63). -/
def outRe (k : Nat) : Word := BitVec.ofNat 32 (Config.outBase + 8 * k)

/-- The address of OUT[k]'s imaginary word (R63). -/
def outIm (k : Nat) : Word := BitVec.ofNat 32 (Config.outBase + 8 * k + 4)

/-- `WO <k>.re, <v>` (R100). -/
def woRe (k : Nat) (v : Word) : List HostEvent := [.write .b32 (outRe k) v]

/-- `WO <k>.im, <v>` (R100). -/
def woIm (k : Nat) (v : Word) : List HostEvent := [.write .b32 (outIm k) v]

/-- `RO <k>` (R100). -/
def ro (k : Nat) : List HostEvent := [.read .b32 (outRe k), .read .b32 (outIm k)]

/-- `CFG ru, ph, L, sc, d, rd` (R101). -/
def cfg (ru ph len : Word) (sc d : BitVec 4) (rdn : Word) : List HostEvent :=
  wr .stgRampup ru ++ wr .stgPhasing ph ++ wr .stgPaylen len
    ++ wr .stgMod ((sc.setWidth 32 <<< 4) ||| d.setWidth 32) ++ wr .stgRampdn rdn

/-- `GETCFG` (R101). -/
def getcfg : List HostEvent :=
  rd .cfgRampup ++ rd .cfgPhasing ++ rd .cfgPaylen ++ rd .cfgMod ++ rd .cfgRampdn

/-- `FRAMELEN` (R101). -/
def framelen : List HostEvent := rd .geoFramelen

/-- `HDR u0, …, u7` (R101). -/
def hdr (u0 u1 u2 u3 u4 u5 u6 u7 : Byte) : List HostEvent :=
  wr .hdrIn0 (u0 ++ u1 ++ u2 ++ u3 : BitVec 32) ++ wr .hdrIn1 (u4 ++ u5 ++ u6 ++ u7 : BitVec 32)

/-- `PAY j: b0, b1, …` (R101). -/
def pay (j : Nat) : List Byte → List HostEvent
  | [] => []
  | b :: bs => wb j b ++ pay (j + 1) bs

/-- `WAIT` (R101): one read of STATUS, because BUSY always reads 0. -/
def wait : List HostEvent := rd .status

/-- `CAP n` (R101). -/
def cap (n : Word) : List HostEvent := wr .outCap n

end Sys2Proof.HostProgram
end

