-- ==== Sys2Proof/Tests/Slice0.lean ====
section
/-! SUPPORT. The model's own tests. Expected values come from 95_test_vectors.md (named with each test) or from the rules
by hand. The last part gives, for each statement with hypotheses, states and operands that meet them. -/

namespace Sys2Proof.Tests

open Sys2Proof.Machine

/-! ### Well-formedness: each check refuses a term -/

theorem test_wellFormed_getcfg_needs_five : (Instr.getcfg [.rampup, .phasing, .paylen, .mod]).wellFormed = false := by decide

theorem test_wellFormed_getcfg_needs_each_once :
    (Instr.getcfg [.rampup, .phasing, .paylen, .mod, .mod]).wellFormed = false := by decide

theorem test_wellFormed_reserved_is_no_command :
    (Instr.reserved 0x00000101#32).wellFormed = false ∧ (Instr.reserved 0x00000004#32).wellFormed = false := by decide

theorem test_wellFormed_accepts :
    (Instr.getcfg [.rampdn, .mod, .paylen, .phasing, .rampup]).wellFormed = true ∧
    (Instr.reserved 0x00000103#32).wellFormed = true ∧ (Instr.create true).wellFormed = true := by decide

/-! ### Decoding: words written out from R92 and R94, bit fields [31:9], S [8], [7:4], OP [3:0] -/

theorem test_decode_create :
    decodeCommand (0b00000000000000000000000#23 ++ 0b0#1 ++ 0b0000#4 ++ 0b0001#4) = .create false ∧
    decodeCommand (0b00000000000000000000000#23 ++ 0b1#1 ++ 0b0000#4 ++ 0b0001#4) = .create true := by decide

theorem test_decode_setcfg :
    decodeCommand (0b00000000000000000000000#23 ++ 0b0#1 ++ 0b0000#4 ++ 0b0010#4) = .setcfg := by decide

theorem test_decode_exec :
    decodeCommand (0b00000000000000000000000#23 ++ 0b0#1 ++ 0b0000#4 ++ 0b0011#4) = .exec := by decide

theorem test_decode_destroy :
    decodeCommand (0b00000000000000000000000#23 ++ 0b0#1 ++ 0b0000#4 ++ 0b0100#4) = .destroy := by decide

/-- Table 2.1: a reserved OP, a reserved bit, and S with another command. -/
theorem test_decode_reserved :
    decodeCommand (0b00000000000000000000000#23 ++ 0b0#1 ++ 0b0000#4 ++ 0b0101#4) = .reserved 0x00000005#32 ∧
    decodeCommand (0b00000000000000000000001#23 ++ 0b0#1 ++ 0b0000#4 ++ 0b0001#4) = .reserved 0x00000201#32 ∧
    decodeCommand (0b00000000000000000000000#23 ++ 0b1#1 ++ 0b0000#4 ++ 0b0100#4) = .reserved 0x00000104#32 := by decide

/-- R96: GETCFG is the reads of 0x030, 0x034, 0x038, 0x03C, 0x040; four of them are none. -/
theorem test_decode_getcfg :
    decode [.read .b32 0x030#32, .read .b32 0x034#32, .read .b32 0x038#32, .read .b32 0x03C#32, .read .b32 0x040#32,
      .reset] = .ok (.getcfg [.rampup, .phasing, .paylen, .mod, .rampdn], [.reset]) ∧
    decode [.read .b32 0x030#32, .read .b32 0x034#32, .read .b32 0x038#32, .read .b32 0x03C#32, .read .b32 0x03C#32]
      = .error .dataAccess := by decide

/-- R96: FRAMELEN is the read of 0x054; a narrow one is a data access. -/
theorem test_decode_framelen :
    decode [.read .b32 0x054#32] = .ok (.framelen, []) ∧ decode [.read .b8 0x054#32] = .error .dataAccess ∧
    decodeTableWord 32 3 = some .exec := by decide

/-! ### Test configuration T of 95_test_vectors.md -/

/-- Configuration T; the envelopes and the modulator are arbitrary here, with the exact points of ENV_EXACT0. -/
def T : Params where
  evenNegative := false
  pnTaps := defaultPnTaps
  pnTaps_maximal := by decide
  pnSeed := defaultPnSeed
  pnSeed_ne_zero := by decide
  checksum32 := crc32
  scramble := defaultScramble
  scramble_scramble := defaultScramble_defaultScramble
  scramble_length := defaultScramble_length
  fecN := 30
  fecN_bounds := by decide
  fecEnc := fun x => x.flatMap fun b => [b, b]
  fecEnc_length := by intro x hx; simp [List.length_flatMap, hx]
  filler := fun _ => 0#8
  intlvPerm := Equiv.refl _
  hdrMap := defaultHdrMap
  modMap := fun _ _ sym => ⟨sym.setWidth 32, f32Zero⟩
  schemeBpsk := 0#4
  modSupported := fun _ _ => true
  modSupported_default := rfl
  envUp := fun i _ => if i = 0 then f32Zero else 0x3F000000#32
  envUp_zero := by simp
  envDn := fun i _ => if i = 0 then f32One else 0x3F000000#32
  envDn_zero := by simp
  minAlloc := 1#32
  execLatency := fun _ => 0
  nanProduct := fun _ _ => 0x7FC00000#32
  nanProduct_isNaN := by intros; decide
  draw := fun k i => BitVec.ofNat 64 (1000 * k + i)

/-- The state of an instance with this configuration, a large enough output buffer and nothing written. -/
def made (P : Params) (cfg : Cfg) : State :=
  { State.resetFrom P 0 [] [] with
    created := true
    live := cfg
    modSel := ⟨cfg.scheme, cfg.depth⟩
    geoNsym := BitVec.ofNat 32 (nsymOf cfg)
    geoFrameLen := BitVec.ofNat 32 (frameLenOf cfg)
    allocPay := cfg.payLen.setWidth 32
    allocSym := BitVec.ofNat 32 (nsymOf cfg)
    allocSmp := BitVec.ofNat 32 (nsymOf cfg)
    pnSeq := pnBits P.pnTaps P.pnSeed 64
    outCap := 1048576#32 }

/-- The configuration of program P3. -/
def p3 : Cfg := ⟨16#16, 16#16, 10#16, 0#4, 2#4, 16#16⟩

/-! ### Commands: one step each -/

/-- Table 2.9: CREATE from reset. -/
theorem test_create_default :
    let t := create T false (State.resetFrom T 0 [] [])
    t.created = true ∧ t.geoFrameLen = 368#32 ∧ t.allocPay = 0#32 ∧ t.allocSym = 0#32 ∧ t.resizeCnt = 3#32 ∧
      statusWord t = 0x01#32 ∧ t.lfsr = 0b000011#6 := by decide +kernel

/-- Table 2.8: CREATE.S with a staged depth of 0; and on a block that has an instance, where ALREADY_CREATED wins. -/
theorem test_create_staged_errors :
    let bad : Cfg := ⟨16#16, 16#16, 0#16, 3#4, 0#4, 16#16⟩
    statusWord (create T true { State.resetFrom T 0 [] [] with staged := bad }) = 0x10#32 ∧
    statusWord (create T true { made T p3 with staged := bad }) = 0x51#32 := by decide

/-- Table 2.9: the SETCFG from (16, 16, 10, sc, 2, 16) to (0, 16, 10, sc, 4, 16). -/
theorem test_setcfg_resizes :
    let t := setcfg T { made T p3 with staged := ⟨0#16, 16#16, 10#16, 0#4, 4#4, 16#16⟩, resizeCnt := 6#32 }
    t.allocPay = 10#32 ∧ t.allocSym = 20#32 ∧ t.allocSmp = 20#32 ∧ t.resizeCnt = 8#32 ∧ t.geoFrameLen = 372#32 := by decide

/-- Program P2: a depth of 0 is CONFIG_ERROR and leaves the geometry. -/
theorem test_setcfg_rejects_depth_zero :
    let t := setcfg T { made T (Cfg.default T) with staged := ⟨16#16, 16#16, 0#16, 0#4, 0#4, 16#16⟩ }
    statusWord t = 0x11#32 ∧ t.geoFrameLen = 368#32 ∧ t.live = Cfg.default T := by decide

/-- Table 2.8: EXEC from reset is NOT_CREATED, and with OUT_CAP one short CAPACITY_ERROR. -/
theorem test_exec_errors :
    statusWord (runFrame T (State.resetFrom T 0 [] [])) = 0x40#32 ∧
    statusWord (runFrame T { made T (Cfg.default T) with outCap := 367#32 }) = 0x21#32 := by decide

/-- Table 2.9: DESTROY zeroes the sizes and keeps RESIZE_CNT; without an instance it is NOT_CREATED. -/
theorem test_destroy :
    let t := destroy T { made T p3 with resizeCnt := 12#32 }
    statusWord t = 0x00#32 ∧ t.allocSym = 0#32 ∧ t.geoFrameLen = 0#32 ∧ t.resizeCnt = 12#32 ∧
      statusWord (destroy T (State.resetFrom T 0 [] [])) = 0x40#32 := by decide

/-- Program P1, line 6, on the configuration of P3. -/
theorem test_getcfg :
    (getcfg CfgReg.all (made T p3)).responses = [16#32, 16#32, 10#32, 0x02#32, 16#32] := by decide

/-- Program P3, line 4. -/
theorem test_framelen : (framelen (made T p3)).responses = [408#32] := by decide

/-- Table 2.8: a reserved word while FAULT = 1 reports BAD_COMMAND, a command FAULTED. -/
theorem test_fault_priority :
    let s := { made T p3 with fault := true }
    statusWord (raise .badCommand s) = 0x63#32 ∧ statusWord (runFrame T s) = 0x73#32 ∧
      statusWord (setcfg T s) = 0x73#32 := by decide

/-! ### The parts of a frame -/

/-- Table 2.4: outputs and states of the first advances. -/
theorem test_pn_first_bits :
    pnBits 0x21#6 0x01#6 8 = [true, true, true, true, true, false, true, false] ∧
    pnState 0x21#6 0x01#6 6 = 0b111110#6 ∧ pnNext 0x21#6 0x00#6 = 0x00#6 := by decide

/-- Rows H2 and H6: the header of program P3. -/
theorem test_header_h2 :
    let s := execCapture T { made T p3 with hdrIn0 := 0x01234567#32, hdrIn1 := 0x89ABCDEF#32 }
    (hdrChecksum T (hdrAssemble s)).hdrRaw = [0x01#8, 0x23#8, 0x45#8, 0x67#8, 0x89#8, 0xAB#8, 0xCD#8, 0xEF#8, 0x00#8,
      0x0A#8, 0x02#8, 0xA5#8, 0x65#8, 0x83#8, 0xBB#8] ∧
    (hdrEncode T s).hdrRaw = [0xB5#8, 0x49#8, 0xCE#8, 0x82#8, 0x3D#8, 0xC1#8, 0x46#8, 0x0A#8, 0xB4#8, 0x60#8, 0x89#8,
      0x40#8, 0xD1#8, 0xE9#8, 0x30#8] ∧
    (hdrEncode T s).hdrEnc.drop 26 = [0xE9#8, 0xE9#8, 0x30#8, 0x30#8, 0x00#8, 0x00#8] := by decide +kernel

/-- Row H5: the symbols of the byte 0xB4. -/
theorem test_header_symbols :
    ((hdrModulate T { made T p3 with hdrEnc := [0xB4#8] }).hdrSym.take 8).map (·.re)
      = [f32NegOne, f32One, f32NegOne, f32NegOne, f32One, f32NegOne, f32One, f32One] := by decide

/-- Table 2.6: A5 3C at depths 3, 5 and 8, FF at 7, 80 at 15. -/
theorem test_repack :
    let b : Nat → Byte := fun j => [0xA5#8, 0x3C#8].getD j 0xFF#8
    (List.range 6).map (symbolAt b 2 3) = [5#15, 1#15, 2#15, 3#15, 6#15, 0#15] ∧
    (List.range 4).map (symbolAt b 2 5) = [20#15, 20#15, 30#15, 0#15] ∧
    (List.range 2).map (symbolAt b 2 8) = [165#15, 60#15] ∧
    (List.range 2).map (symbolAt (fun _ => 0xFF#8) 1 7) = [127#15, 64#15] ∧
    symbolAt (fun _ => 0x80#8) 1 15 0 = 16384#15 := by decide

/-- Table 2.7: the ramps' signs, the global one of the phasing and the local one of the ramp-down, at RU = 3, PH = 2. -/
theorem test_ramp_signs :
    (rampUpSamples T 0 3).map (·.re) = [0x00000000#32, 0xBF000000#32, 0x3F000000#32] ∧
    (phasingSamples T 3 2).map (·.re) = [f32NegOne, f32One] ∧
    (rampDownSamples T { made T ⟨3#16, 2#16, 0#16, 0#4, 1#4, 2#16⟩ with n := 325 }).map (·.re)
      = [f32One, 0xBF000000#32] := by decide

/-- R135 with a zero divisor: the amplitudes are the draw's (table 2.7, RU = 0, RD = 2). -/
theorem test_ramp_down_zero_divisor :
    (rampDownSamples T { made T ⟨0#16, 0#16, 0#16, 0#4, 1#4, 2#16⟩ with draws := 7 }).map (·.re)
      = [T.drawF32 7 0, T.drawF32 7 1 ^^^ 0x80000000#32] := by decide

/-- Table 2.2, four rows. -/
theorem test_geometry :
    frameLenOf p3 = 408 ∧ nsymOf ⟨5#16, 3#16, 7#16, 0#4, 5#4, 2#16⟩ = 12 ∧
    frameLenOf ⟨65535#16, 65535#16, 65535#16, 0#4, 1#4, 65535#16⟩ = 721205 ∧
    nsymOf ⟨0#16, 0#16, 65535#16, 0#4, 15#4, 0#16⟩ = 34952 := by decide

/-! ### Host accesses and steps -/

/-- Table 2.3: reserved bits are dropped, OUT_CAP is clipped, a read-only register ignores a write. -/
theorem test_csr_writes :
    let s := State.resetFrom T 0 [] []
    csrReadAt 0x018 (csrWriteAt 0x018 0x00012345#32 s) = 0x00002345#32 ∧
    csrReadAt 0x01C (csrWriteAt 0x01C 0x0000FFFF#32 s) = 0x000000FF#32 ∧
    csrReadAt 0x070 (csrWriteAt 0x070 0xFFFFFFFF#32 s) = 0x00100000#32 ∧
    csrReadAt 0x038 (csrWriteAt 0x038 5#32 s) = 0#32 ∧ csrReadAt 0xFFC s = 0#32 := by decide

/-- R68: the admitted accesses at the edges of the windows. -/
theorem test_admit_edges :
    admitAccess .b32 0x00000FFC#32 = .ok (.csr 0xFFC) ∧ admitAccess .b32 0x00001000#32 = .error (.outsideEveryWindow 0x00001000#32) ∧
    admitAccess .b8 0x0001FFFF#32 = .ok (.pin 65535) ∧ admitAccess .b32 0x0001FFFC#32 = .error (.accessWidth .b32 0x0001FFFC#32) ∧
    admitAccess .b32 0x017FFFFC#32 = .ok (.out 0x017FFFFC) ∧
    admitAccess .b32 0x01800000#32 = .error (.outsideEveryWindow 0x01800000#32) ∧
    admitAccess .b32 0x01000002#32 = .error (.misaligned 0x01000002#32) := by decide

/-- The first step after reset runs the word handed to it: EXEC reports NOT_CREATED. -/
theorem test_withFetchWord_exec :
    (match step (State.reset.withFetchWord 32 3) with
      | .next t => t.lastErr
      | .fault _ => .ok
      | .refused _ => .ok) = .notCreated := by decide

/-- The first step after reset takes a CREATE to a next state. -/
theorem test_withFetchWord_create :
    (match step (State.reset.withFetchWord 32 1) with
      | .next _ => true
      | .fault _ => false
      | .refused _ => false) = true := rfl

/-- A misaligned read is refused by its name. -/
theorem test_step_refuses :
    step { State.reset with pending := [.read .b32 0x00000002#32] } = .refused (.misaligned 0x00000002#32) := by rfl

/-! ### Witnesses: for each statement with hypotheses, states and operands that meet them

The states below are of the machine `exec` describes, whose parameters are open: `made Config.params`. -/

/-- An instance with the default configuration, which is valid whatever the parameters are. -/
def live : State := made Config.params (Cfg.default Config.params)

/-- An instance with the configuration of program P3. -/
def loaded : State := made Config.params p3

/-- An instance with depth 8 and no ramp-up, so that the ramp-down's divisor is 0. -/
def deep : State := made Config.params ⟨0#16, 16#16, 10#16, 0#4, 8#4, 2#16⟩

theorem live_canonical : MemCanonical Config.params live := rfl

theorem ready_live : ExecReady live := ⟨rfl, rfl, ⟨rfl, rfl⟩, by decide⟩

theorem ready_loaded : ExecReady loaded := ⟨rfl, rfl, ⟨rfl, rfl⟩, by decide⟩

theorem ready_deep : ExecReady deep := ⟨rfl, rfl, ⟨rfl, rfl⟩, by decide⟩

theorem good_live : InstanceGood Config.params live where
  validLive := ⟨by decide, Config.params.modSupported_default⟩
  geometry := ⟨rfl, rfl⟩
  capacity := ⟨rfl, rfl, rfl⟩
  modSel := rfl
  pnSeq := rfl
  buffers := ⟨by decide, by decide, by decide⟩

theorem inv_live (s : State) (h : s = { live with pending := s.pending }) : Inv Config.params s := by
  rw [h]
  exact {
    instanceGood := fun _ => ⟨good_live.validLive, good_live.geometry, good_live.capacity, rfl, rfl, good_live.buffers⟩
    noInstance := nofun
    noFault := ⟨rfl, nofun, nofun⟩
    quiet := ⟨rfl, rfl⟩
    outCap := (by decide : live.outCap.toNat ≤ 1048576)
    arrays := by simp [live, made, State.resetFrom, pnBits_length]
    canonical := rfl
    windows := nofun }

theorem witness_ExactlyFiveWordsDecodeToACommand :
    0xFFFFFFFF#32 ∉ [0x00000001#32, 0x00000101#32, 0x00000002#32, 0x00000003#32, 0x00000004#32] ∧
    0x00000000#32 ∉ [0x00000001#32, 0x00000101#32, 0x00000002#32, 0x00000003#32, 0x00000004#32] := by decide

theorem witness_DecodeOfEncodeIsTheOperation :
    (Instr.create true).wellFormed = true ∧ (Instr.getcfg CfgReg.all).wellFormed = true ∧
    (Instr.reserved 0x00000000#32).wellFormed = true := by decide

theorem witness_DecodedOperationIsItsEncoding :
    decode [.write .b32 0x000#32 0x00000101#32, .reset] = .ok (.create true, [.reset]) := by decide

theorem witness_StepRunsTheDecodedOperation :
    Instr.framelen.wellFormed = true ∧ State.reset.busy = false ∧
    ({ State.reset with pending := encode .framelen ++ [.reset] } : State).pending = encode .framelen ++ [.reset] ∧
    State.reset.pending = [] := ⟨rfl, rfl, rfl, rfl⟩

/-- The clauses' address ranges at their ends, each in its own range alone. -/
theorem witness_ProtocolViolationsAreRefusedByName :
    State.reset.busy = false ∧
    (∀ a ∈ [0x00000000#32, 0x00000FFF#32], a.toNat ≤ 0x00000FFF) ∧
    (0x00000FFD#32).toNat % 4 ≠ 0 ∧ (0x00000FFC#32).toNat % 4 = 0 ∧
    (∀ a ∈ [0x00010000#32, 0x0001FFFF#32], 0x00010000 ≤ a.toNat ∧ a.toNat ≤ 0x0001FFFF) ∧
    (∀ a ∈ [0x01000000#32, 0x017FFFFF#32],
      0x01000000 ≤ a.toNat ∧ a.toNat ≤ 0x01000000 + 8 * 1048576 - 1) ∧
    (∀ a ∈ [0x00001000#32, 0x0000FFFF#32, 0x00020000#32, 0x00FFFFFF#32, 0x01800000#32, 0xFFFFFFFF#32],
      (0x00001000 ≤ a.toNat ∧ a.toNat ≤ 0x0000FFFF) ∨ (0x00020000 ≤ a.toNat ∧ a.toNat ≤ 0x00FFFFFF) ∨
        0x01000000 + 8 * 1048576 ≤ a.toNat) ∧
    Width.b8 ≠ .b32 ∧ Width.b32 ≠ .b8 := by
  refine ⟨rfl, ?_, by decide, by decide, ?_, ?_, ?_, nofun, nofun⟩ <;> simp

theorem witness_BusyBlockRefusesAccesses :
    let ev : HostEvent := .read .b32 0x054#32
    let s : State := { State.reset with busy := true, pending := [ev] }
    s.busy = true ∧ s.pending = ev :: [] ∧ ev ≠ .read .b32 0x004#32 ∧ ev ≠ .reset := ⟨rfl, rfl, by decide, by decide⟩

theorem witness_WritableRegistersReadBack :
    let v : Word := 0xFFFFFFFF#32
    let s : State := { State.reset with pending := [.write .b32 0x070#32 v, .read .b32 0x070#32] }
    s.busy = false ∧ s.pending = .write .b32 0x070#32 v :: [.read .b32 0x070#32] ∧
    BitVec.ofNat 32 (min v.toNat 1048576) = 0x00100000#32 := ⟨rfl, rfl, by decide⟩

theorem witness_ReservedAndReadOnlyOffsetsIgnoreWrites :
    State.reset.busy = false ∧
    (∀ off ∈ [0x00C, 0x024, 0x088, 0xFFC], off ≤ 0xFFF ∧ off % 4 = 0 ∧
      off ∉ [0x000, 0x004, 0x008, 0x010, 0x014, 0x018, 0x01C, 0x020, 0x030, 0x034, 0x038, 0x03C, 0x040, 0x050, 0x054,
        0x060, 0x064, 0x068, 0x06C, 0x070, 0x074, 0x078, 0x07C, 0x080, 0x084]) ∧
    0x004 % 4 = 0 ∧ 0x07C % 4 = 0 := ⟨rfl, by decide, by decide, by decide⟩

theorem witness_StatusReadsItsFields :
    ({ live with pending := [.read .b32 0x004#32], busy := true, lastErr := .faulted } : State).pending
      = .read .b32 0x004#32 :: [] := rfl

/-- A CFG register read before another access, which is no GETCFG, and a register that no query reads. -/
theorem witness_ReadOnlyRegistersRead :
    let s : State := { loaded with pending := [.read .b32 0x03C#32, .read .b32 0x000#32] }
    s.busy = false ∧ s.pending = .read .b32 0x03C#32 :: [.read .b32 0x000#32] ∧ decodeGetcfg s.pending = none ∧
    0x07C#32 ∉ [0x030#32, 0x034#32, 0x038#32, 0x03C#32, 0x040#32] := ⟨rfl, rfl, by decide, by decide⟩

theorem witness_ReadWriteRegistersRead :
    let s : State := { State.reset with rdDivSel := true, pending := [.read .b32 0x008#32, .reset] }
    s.busy = false ∧ s.pending = .read .b32 0x008#32 :: [.reset] ∧ (if s.rdDivSel then 1#32 else 0#32) = 0x00000001#32 :=
  ⟨rfl, rfl, rfl⟩

/-- Both ends of the window; a read with nothing written, and a write with a read after it. -/
theorem witness_PinByteReadsBack :
    let s (addr : Word) : State := { State.reset with pending := [.read .b8 addr] }
    let w (addr : Word) : State := { State.reset with pending := [.write .b8 addr 0x1FF#32, .read .b8 addr] }
    (∀ addr, (s addr).busy = false ∧ (s addr).pending = .read .b8 addr :: []) ∧
    (∀ addr, (w addr).busy = false ∧ MemCanonical Config.params (w addr) ∧
      (w addr).pending = .write .b8 addr 0x1FF#32 :: [.read .b8 addr]) ∧
    0 ≤ 65535 ∧ 65535 ≤ 65535 ∧ BitVec.ofNat 32 (0x00010000 + 65535) = 0x0001FFFF#32 :=
  ⟨fun _ => ⟨rfl, rfl⟩, fun _ => ⟨rfl, rfl, rfl⟩, by decide, by decide, by decide⟩

/-- Both ends of the window; a read with nothing written, and a write with a read after it. -/
theorem witness_OutWordReadsBack :
    let s (a : Nat) : State := { State.reset with pending := [.read .b32 (BitVec.ofNat 32 a)] }
    let w (a : Nat) : State :=
      { State.reset with pending := [.write .b32 (BitVec.ofNat 32 a) 7#32, .read .b32 (BitVec.ofNat 32 a)] }
    (∀ a, (s a).busy = false ∧ (s a).pending = .read .b32 (BitVec.ofNat 32 a) :: []) ∧
    (∀ a, (w a).busy = false ∧ MemCanonical Config.params (w a) ∧
      (w a).pending = .write .b32 (BitVec.ofNat 32 a) 7#32 :: [.read .b32 (BitVec.ofNat 32 a)]) ∧
    0 < 1048576 ∧ 1048575 < 1048576 ∧ 0x01000000 + 8 * 0 + (if false then 4 else 0) = 0x01000000 ∧
    BitVec.ofNat 32 (0x01000000 + 8 * 1048575 + (if true then 4 else 0)) = 0x017FFFFC#32 :=
  ⟨fun _ => ⟨rfl, rfl⟩, fun _ => ⟨rfl, rfl, rfl⟩, by decide, by decide, by decide, by decide⟩

theorem witness_OnlyCommandWordsChangeStatus :
    let ev : HostEvent := .read .b32 0x074#32
    ev ≠ .reset ∧ (∀ w, ev ≠ .write .b32 0x000#32 w) ∧
    step { live with pending := [ev] } = .next { live with responses := [0#32] } := ⟨nofun, nofun, rfl⟩

theorem witness_ResetInputRestoresTheResetState :
    ({ live with pending := [.reset], busy := true } : State).pending = .reset :: [] := rfl

theorem witness_OnlyResetClearsFault :
    let s : State := { live with fault := true, pending := [.reset] }
    s.fault = true ∧ step s = .next (hardwareReset Config.params { s with pending := [] }) ∧
    (hardwareReset Config.params { s with pending := [] }).fault = false := ⟨rfl, rfl, rfl⟩

/-- A state for each clause: FAULT set; an instance exists; no instance and depth 0; no instance and a valid
configuration. -/
theorem witness_CreateBuildsTheInstance :
    ({ live with fault := true } : State).fault = true ∧ (live.fault = false ∧ live.created = true) ∧
    (State.reset.fault = false ∧ State.reset.created = false) ∧
    ¬ (1 ≤ ({ State.reset.staged with depth := 0#4 } : Cfg).depth.toNat ∧
      Config.params.modSupported State.reset.staged.scheme 0#4 = true) ∧
    1 ≤ State.reset.staged.depth.toNat ∧
    Config.params.modSupported State.reset.staged.scheme State.reset.staged.depth = true :=
  ⟨rfl, ⟨rfl, rfl⟩, ⟨rfl, rfl⟩, fun h => absurd h.1 (by decide), by decide, Config.params.modSupported_default⟩

theorem witness_DefaultCreateSucceeds : State.reset.fault = false ∧ State.reset.created = false := ⟨rfl, rfl⟩

/-- A state for each clause. -/
theorem witness_SetcfgReplacesTheConfiguration :
    ({ live with fault := true } : State).fault = true ∧ (State.reset.fault = false ∧ State.reset.created = false) ∧
    (live.fault = false ∧ live.created = true) ∧
    ¬ (1 ≤ ({ live.staged with depth := 0#4 } : Cfg).depth.toNat ∧
      Config.params.modSupported live.staged.scheme 0#4 = true) ∧
    1 ≤ live.staged.depth.toNat ∧ Config.params.modSupported live.staged.scheme live.staged.depth = true :=
  ⟨rfl, ⟨rfl, rfl⟩, ⟨rfl, rfl⟩, fun h => absurd h.1 (by decide), by decide, Config.params.modSupported_default⟩

/-- The sizes after the SETCFG are 0: equal to those of `live`, and different from those of the second state. -/
theorem witness_BuffersAreReallocatedOnlyOnMismatch :
    let s : State := { live with allocPay := 1#32, allocSym := 2#32, allocSmp := 3#32 }
    (live.fault = false ∧ live.created = true ∧ 1 ≤ live.staged.depth.toNat ∧
      Config.params.modSupported live.staged.scheme live.staged.depth = true) ∧
    (s.fault = false ∧ s.created = true ∧ 1 ≤ s.staged.depth.toNat ∧
      Config.params.modSupported s.staged.scheme s.staged.depth = true) ∧
    live.allocPay = 0#32 ∧ live.allocSym = 0#32 ∧ live.allocSmp = 0#32 :=
  ⟨⟨rfl, rfl, by decide, Config.params.modSupported_default⟩,
    ⟨rfl, rfl, by decide, Config.params.modSupported_default⟩, rfl, rfl, rfl⟩

/-- MIN_ALLOC is open: whatever it is, one of these two configurations requires another payload size. With a MIN_ALLOC of
0 the default configuration meets the clauses for equal sizes. -/
theorem witness_CreateReallocatesBuffersOnlyOnMismatch :
    let s : State := { State.reset with staged := { State.reset.staged with payLen := 10#16 } }
    let P : Params := { T with minAlloc := 0#32 }
    (s.fault = false ∧ s.created = false ∧ 1 ≤ s.staged.depth.toNat ∧
      Config.params.modSupported s.staged.scheme s.staged.depth = true) ∧
    (1 ≤ (1#4).toNat ∧ Config.params.modSupported Config.params.schemeBpsk 1#4 = true) ∧
    (Config.params.minAlloc ≠ s.staged.payLen.setWidth 32 ∨ Config.params.minAlloc ≠ 0#32) ∧
    P.minAlloc = (create P false s).allocPay ∧ P.minAlloc = (create P false s).allocSym ∧
    P.minAlloc = (create P false s).allocSmp :=
  ⟨⟨rfl, rfl, by decide, Config.params.modSupported_default⟩, ⟨by decide, Config.params.modSupported_default⟩,
    by rw [← not_and_or]; exact fun h => absurd (h.1.symm.trans h.2) (by decide), rfl, rfl, rfl⟩

theorem witness_SetcfgOfTheLiveConfigurationChangesNothing :
    live.fault = false ∧ live.created = true ∧ InstanceGood Config.params live ∧ live.staged = live.live :=
  ⟨rfl, rfl, good_live, rfl⟩

/-- A state for each clause. -/
theorem witness_DestroyReleasesTheInstance :
    ({ loaded with fault := true } : State).fault = true ∧ (State.reset.fault = false ∧ State.reset.created = false) ∧
    loaded.fault = false ∧ loaded.created = true := ⟨rfl, ⟨rfl, rfl⟩, rfl, rfl⟩

/-- A state for each clause; in the last two OUT_CAP is one short of GEO_FRAMELEN, and equal to it. -/
theorem witness_ExecChecksInOrder :
    ({ loaded with fault := true } : State).fault = true ∧ (State.reset.fault = false ∧ State.reset.created = false) ∧
    (loaded.fault = false ∧ loaded.created = true) ∧
    ({ loaded with outCap := 407#32 } : State).outCap.toNat < loaded.geoFrameLen.toNat ∧
    loaded.geoFrameLen.toNat ≤ ({ loaded with outCap := 408#32 } : State).outCap.toNat :=
  ⟨rfl, ⟨rfl, rfl⟩, ⟨rfl, rfl⟩, by decide, by decide⟩

/-- A count that matches, and one that does not. -/
theorem witness_ExecEndChecksTheCount :
    let count (s : State) := s.live.rampUp.toNat + s.live.phasing.toNat + 64 + 256 + s.geoNsym.toNat
      + s.live.rampDown.toNat
    let bad : State := { loaded with geoFrameLen := 407#32 }
    (loaded.fault = false ∧ loaded.created = true ∧ loaded.geoFrameLen.toNat ≤ loaded.outCap.toNat ∧
      count loaded = loaded.geoFrameLen.toNat) ∧
    (bad.fault = false ∧ bad.created = true ∧ bad.geoFrameLen.toNat ≤ bad.outCap.toNat ∧
      count bad ≠ bad.geoFrameLen.toNat) := by decide

/-- The outer bytes at the ends of their two ranges. -/
theorem witness_ExecCompletesWithItsFrame :
    ExecReady loaded ∧ ExecReady live ∧ ExecReady deep ∧ 0x0001FFFF < Config.outBase ∧
    Config.outBase + 8 * loaded.geoFrameLen.toNat ≤ 0x01000000 + 8 * 408 :=
  ⟨ready_loaded, ready_live, ready_deep, by decide, by decide⟩

/-- For the statements about one segment: each segment has a first and a last sample. -/
theorem witness_ExecWritesASegment :
    ExecReady loaded ∧ MemCanonical Config.params loaded ∧
    0 < loaded.live.rampUp.toNat ∧ 15 < loaded.live.rampUp.toNat ∧ 15 < loaded.live.phasing.toNat ∧
    39 < loaded.geoNsym.toNat ∧ 15 < loaded.live.rampDown.toNat ∧ 1 < loaded.live.depth.toNat :=
  ⟨ready_loaded, rfl, by decide, by decide, by decide, by decide, by decide, by decide⟩

theorem witness_ExecEncodesTheHeader :
    ExecReady loaded ∧ ∃ (raw11 raw15 : List Byte) (c : Word),
      raw11 = [0x00#8, 0x00#8, 0x00#8, 0x00#8, 0x00#8, 0x00#8, 0x00#8, 0x00#8, 0x00#8, 0x0A#8, 0x02#8] ∧
      loaded.live.payLen.extractLsb' 0 8 = 0x0A#8 ∧ c = Config.params.checksum32 raw11 ∧
      raw15 = raw11 ++ [c.extractLsb' 24 8, c.extractLsb' 16 8, c.extractLsb' 8 8, c.extractLsb' 0 8] :=
  ⟨ready_loaded, _, _, _, rfl, by decide, rfl, rfl⟩

/-- A divisor other than 0, by either setting of RD_DIV_SEL, and a zero divisor. -/
theorem witness_ExecWritesTheRampDown :
    (ExecReady loaded ∧ MemCanonical Config.params loaded ∧
      16 = (if loaded.rdDivSel then loaded.live.rampDown.toNat else loaded.live.rampUp.toNat)) ∧
    (ExecReady deep ∧ MemCanonical Config.params deep ∧
      0 = (if deep.rdDivSel then deep.live.rampDown.toNat else deep.live.rampUp.toNat) ∧
      1 < deep.live.rampDown.toNat) :=
  ⟨⟨ready_loaded, rfl, by decide⟩, ready_deep, rfl, by decide, by decide⟩

theorem witness_ExecLeavesEveryOtherByte :
    ExecReady loaded ∧ MemCanonical Config.params loaded ∧ 0x00010000 < 0x01000000 ∧
    0x01000000 + 8 * loaded.geoFrameLen.toNat ≤ 0x01000000 + 8 * 408 := ⟨ready_loaded, rfl, by decide, by decide⟩

/-- Two different states with the same inputs. -/
theorem witness_ExecOutputIsAFunctionOfItsInputs :
    let s' : State := { loaded with outCap := 408#32, outCount := 7#32, draws := 99, resizeCnt := 3#32 }
    ExecReady loaded ∧ ExecReady s' ∧ MemCanonical Config.params loaded ∧ MemCanonical Config.params s' ∧
    loaded.live = s'.live ∧ loaded.rdDivSel = s'.rdDivSel ∧ loaded.hdrIn0 = s'.hdrIn0 ∧ loaded.hdrIn1 = s'.hdrIn1 ∧
    loaded.pnSeq = s'.pnSeq ∧ loaded.modSel = s'.modSel ∧
    (∀ j, j < loaded.live.payLen.toNat → loaded.pin Config.params j = s'.pin Config.params j) ∧
    ((if loaded.rdDivSel then loaded.live.rampDown else loaded.live.rampUp) = 0#16 → loaded.draws = s'.draws) :=
  ⟨ready_loaded, ⟨rfl, rfl, ⟨rfl, rfl⟩, by decide⟩, rfl, rfl, rfl, rfl, rfl, rfl, rfl, rfl, fun _ _ => rfl,
    fun h => absurd h (by decide)⟩

/-- Each of the four segments with a length of its own, and the ramp-down, has a first and a last sample. -/
theorem witness_ExecWithEmptyPayload :
    ExecReady live ∧ MemCanonical Config.params live ∧ 1 ≤ live.live.depth.toNat ∧ live.live.payLen = 0#16 ∧
    16 = (if live.rdDivSel then live.live.rampDown.toNat else live.live.rampUp.toNat) ∧
    368 = live.live.rampUp.toNat + live.live.phasing.toNat + 320 + live.live.rampDown.toNat ∧
    15 < live.live.rampUp.toNat ∧ 15 < live.live.phasing.toNat ∧ 15 < live.live.rampDown.toNat :=
  ⟨ready_live, rfl, by decide, rfl, by decide, by decide, by decide, by decide, by decide⟩

theorem witness_DepthEightRepackIsTheIdentity :
    ExecReady deep ∧ deep.live.depth = 8#4 ∧ 9 < deep.live.payLen.toNat := ⟨ready_deep, rfl, by decide⟩

theorem witness_GetcfgReturnsTheLiveConfiguration : CfgReg.all.length = 5 ∧ CfgReg.all.Nodup := by decide

theorem witness_ReservedWordReportsBadCommand :
    0x00000103#32 ∉ [0x00000001#32, 0x00000101#32, 0x00000002#32, 0x00000003#32, 0x00000004#32] ∧
    ({ live with fault := true, pending := [.write .b32 0x000#32 0x00000103#32] } : State).busy = false :=
  ⟨by decide, rfl⟩

theorem witness_ErrorsChangeOnlyLastErr :
    exec .exec State.reset = .next { State.reset with lastErr := .notCreated } ∧
    (∀ order, Instr.exec ≠ .getcfg order) ∧ Instr.exec ≠ .framelen ∧ ErrCode.notCreated ≠ .ok ∧
    ErrCode.notCreated ≠ .internalFault := ⟨rfl, nofun, nofun, nofun, nofun⟩

/-- A DESTROY that clears CREATED. -/
theorem witness_CreatedAndFaultHaveTheirWriters :
    exec .destroy live = .next (destroy Config.params live) ∧ (destroy Config.params live).created ≠ live.created :=
  ⟨rfl, by decide⟩

theorem witness_OperationsKeepTheHostsRegisters :
    exec .framelen loaded = .next { loaded with responses := [408#32] } := rfl

theorem witness_SyncSequenceIsImmutable :
    exec .exec State.reset = .next { State.reset with lastErr := .notCreated } ∧
    (∀ staged, Instr.exec ≠ .create staged) ∧ Instr.exec ≠ .destroy := ⟨rfl, nofun, nofun⟩

/-- A state of the invariant with an EXEC to run, and the step it takes. -/
theorem witness_StepKeepsTheInvariant :
    let s : State := { live with pending := [.write .b32 0x000#32 0x00000003#32] }
    Inv Config.params s ∧ step s = .next (runFrame Config.params live) := ⟨inv_live _ rfl, rfl⟩

theorem witness_InternalFaultNeverFires :
    Inv Config.params live ∧ exec .exec live = .next (runFrame Config.params live) := ⟨inv_live _ rfl, rfl⟩

theorem witness_LastChipRepeatsTheFirst : ∃ chips, chips = pnBits T.pnTaps T.pnSeed 64 := ⟨_, rfl⟩

theorem witness_AdmittedTapsHavePeriodSixtyThree :
    0x3F#6 ≠ 0#6 ∧ 0x21#6 ∈ maximalTaps ∧ 0x22#6 ∉ maximalTaps := by decide

theorem witness_InterleaverPermutesTheBytes : (made T p3).hdrEnc.length = 32 := rfl

theorem witness_GeometryStaysInRange :
    1 ≤ p3.depth.toNat ∧ 1 ≤ (⟨65535#16, 65535#16, 65535#16, 15#4, 15#4, 65535#16⟩ : Cfg).depth.toNat := by decide

theorem witness_DefaultChecksumSeesEverySingleByteChange : 0x01#8 ≠ 0x02#8 := by decide

end Sys2Proof.Tests
end

section
/-! SUPPORT. Which accesses decode to which operation (R90, R94, R96), and everything a step can do (R20, R70, R291). -/

namespace Sys2Proof

theorem decode_commandWrite (w : Word) (rest : List HostEvent) :
    decode (commandWrite w :: rest) = .ok (decodeCommand w, rest) := by simp [decode, commandWrite]

theorem decode_framelen (rest : List HostEvent) :
    decode (csrReadEvent .geoFramelen :: rest) = .ok (.framelen, rest) := by simp [decode, csrReadEvent]

theorem decode_getcfg {order : List CfgReg} (h : isGetcfgOrder order = true) (rest : List HostEvent) :
    decode ((order.map fun r => csrReadEvent r.csr) ++ rest) = .ok (.getcfg order, rest) := by
  have hlen : (order.map fun r => csrReadEvent r.csr).length = 5 := by simpa using (isGetcfgOrder_iff.mp h).1
  have hdrop : ((order.map fun r => csrReadEvent r.csr) ++ rest).drop 5 = rest := List.drop_left' hlen
  have hget : decodeGetcfg ((order.map fun r => csrReadEvent r.csr) ++ rest) = some order :=
    decodeGetcfg_eq_some.mpr ⟨h, by rw [hdrop]⟩
  cases order with
  | nil => cases hlen
  | cons r rs =>
    simp only [List.map_cons, List.cons_append, csrReadEvent] at hget hdrop ⊢
    simp [decode, r.addr_ne_framelen, hget, hdrop]

/-- The accesses of a well-formed operation decode to it, whatever follows them (R94, R96). -/
theorem decode_encode_append {i : Instr} (h : i.wellFormed = true) (rest : List HostEvent) :
    decode (encode i ++ rest) = .ok (i, rest) := by
  cases i with
  | create staged => cases staged <;> exact decode_commandWrite _ rest
  | setcfg => exact decode_commandWrite _ rest
  | exec => exact decode_commandWrite _ rest
  | destroy => exact decode_commandWrite _ rest
  | getcfg order => exact decode_getcfg h rest
  | framelen => exact decode_framelen rest
  | reserved w =>
    have hw : w ∉ commandWords := by simpa [Instr.wellFormed] using h
    rw [← decodeCommand_of_not_mem hw, (encode_decodeCommand w).1]
    exact decode_commandWrite w rest

/-- Everything that decodes to an operation: a command word written to CMD, or a query's reads (R90). -/
theorem decode_ok_cases {evs rest : List HostEvent} {i : Instr} (h : decode evs = .ok (i, rest)) :
    (∃ w, evs = commandWrite w :: rest ∧ i = decodeCommand w) ∨
    (evs = csrReadEvent .geoFramelen :: rest ∧ i = .framelen) ∨
    (∃ order, isGetcfgOrder order = true ∧ evs = (order.map fun r => csrReadEvent r.csr) ++ rest ∧
      i = .getcfg order) := by
  unfold decode at h
  split at h
  · cases h
  · cases h
  · split at h
    · next hw =>
      obtain ⟨rfl, rfl⟩ := hw
      cases h
      exact .inl ⟨_, rfl, rfl⟩
    · cases h
  · split at h
    · next hw =>
      obtain ⟨rfl, rfl⟩ := hw
      cases h
      exact .inr (.inl ⟨rfl, rfl⟩)
    · split at h
      · next order hg =>
        cases h
        obtain ⟨ho, he⟩ := decodeGetcfg_eq_some.mp hg
        exact .inr (.inr ⟨order, ho, he, rfl⟩)
      · cases h

end Sys2Proof

namespace Sys2Proof.Machine

/-- A step runs the operation at the front of the pending accesses (R20, R70). -/
theorem step_operation {s : State} {i : Instr} {rest : List HostEvent} (hb : s.busy = false)
    (hd : decode s.pending = .ok (i, rest)) : step s = exec i { s with pending := rest } := by
  cases hp : s.pending with
  | nil => rw [hp] at hd; cases hd
  | cons ev evs =>
    rw [hp] at hd
    simp [step, hp, hb, hd]

/-- With no access pending the block waits (R291). -/
theorem step_of_pending_nil {s : State} (hp : s.pending = []) : step s = .next s := by simp [step, hp]

/-- An access that is no operation has a next state only as the reset input or as an admitted read or write. -/
theorem access_cases {P : Params} {ev : HostEvent} {s t : State} (h : access P ev s = .next t) :
    (ev = .reset ∧ t = hardwareReset P s) ∨
    (∃ w a target, ev = .read w a ∧ admitAccess w a = .ok target ∧ t = s.respond [readTarget P s target]) ∨
    (∃ w a v target, ev = .write w a v ∧ admitAccess w a = .ok target ∧ t = writeTarget P v s target) := by
  cases ev with
  | reset => cases h; exact .inl ⟨rfl, rfl⟩
  | read w a =>
    cases ha : admitAccess w a with
    | error r => rw [access_read_error ha] at h; cases h
    | ok target => rw [access_read_ok ha] at h; cases h; exact .inr (.inl ⟨w, a, target, rfl, ha, rfl⟩)
  | write w a v =>
    cases ha : admitAccess w a with
    | error r => rw [access_write_error ha] at h; cases h
    | ok target => rw [access_write_ok ha] at h; cases h; exact .inr (.inr ⟨w, a, v, target, rfl, ha, rfl⟩)

/-- Everything a step with a next state can do: wait, run the operation at the front, or take the first access. -/
theorem step_cases {s t : State} (h : step s = .next t) :
    (s.pending = [] ∧ t = s) ∨
    (∃ i rest, decode s.pending = .ok (i, rest) ∧ exec i { s with pending := rest } = .next t) ∨
    (∃ ev rest, s.pending = ev :: rest ∧ access Config.params ev { s with pending := rest } = .next t) := by
  unfold step at h
  split at h
  · next hp => cases h; exact .inl ⟨hp, rfl⟩
  · next ev rest hp =>
    split at h
    · cases h
    · split at h
      · next i rest' hd => exact .inr (.inl ⟨i, rest', hp ▸ hd, h⟩)
      · exact .inr (.inr ⟨ev, rest, hp, h⟩)

end Sys2Proof.Machine
end

section
/-! SUPPORT. What each operation, access and reset leaves of the machine's invariant, and that every step keeps it. -/

namespace Sys2Proof.Machine

variable {P : Params}

/-! ### Accesses, errors and reset -/

/-- The invariant looks at no register of the host's but OUT_CAP, at LAST_ERR only for the two fault codes, and not at
OUT_COUNT. -/
theorem Inv.hostUpdate {s : State} (h : Inv P s) {e : ErrCode} (he : e ≠ .internalFault ∧ e ≠ .faulted)
    (divSel : Bool) (staged : Cfg) {cap : Word} (hcap : cap.toNat ≤ 1048576) (count in0 in1 : Word) {m : List Host.Cell}
    (hm : Memory.wf (s.unlisted P) m = true) (hwin : ∀ c ∈ m, InDataWindow c.1) (pending : List HostEvent)
    (responses : List Word) :
    Inv P { s with
      lastErr := e, rdDivSel := divSel, staged := staged, outCap := cap, outCount := count, hdrIn0 := in0,
      hdrIn1 := in1, mem := m, pending := pending, responses := responses } where
  instanceGood hc :=
    have g := h.instanceGood hc
    ⟨g.validLive, g.geometry, g.capacity, g.modSel, g.pnSeq, g.buffers⟩
  noInstance hc :=
    have g := h.noInstance hc
    ⟨g.live, g.geometry, g.buffers⟩
  noFault := ⟨h.noFault.1, he⟩
  quiet := h.quiet
  outCap := hcap
  arrays := h.arrays
  canonical := hm
  windows := hwin

theorem Inv.withPending {s : State} (h : Inv P s) (pending : List HostEvent) : Inv P { s with pending := pending } :=
  h.hostUpdate h.noFault.2 s.rdDivSel s.staged h.outCap s.outCount s.hdrIn0 s.hdrIn1 h.canonical h.windows pending
    s.responses

theorem Inv.respond {s : State} (h : Inv P s) (vs : List Word) : Inv P (s.respond vs) :=
  h.hostUpdate h.noFault.2 s.rdDivSel s.staged h.outCap s.outCount s.hdrIn0 s.hdrIn1 h.canonical h.windows s.pending
    (s.responses ++ vs)

theorem Inv.reported {s : State} (h : Inv P s) {e : ErrCode} (he : e ≠ .internalFault ∧ e ≠ .faulted) (count : Word) :
    Inv P { s with outCount := count, lastErr := e } :=
  h.hostUpdate he s.rdDivSel s.staged h.outCap count s.hdrIn0 s.hdrIn1 h.canonical h.windows s.pending s.responses

theorem Inv.raise {s : State} (h : Inv P s) {e : ErrCode} (he : e ≠ .internalFault ∧ e ≠ .faulted) :
    Inv P (raise e s) := h.reported he s.outCount

/-- A store inside the PIN and OUT windows keeps the invariant (R60, R69). -/
theorem Inv.storeBytes {s : State} (h : Inv P s) {a : Nat} {vs : List Byte}
    (hwin : ∀ x, a ≤ x → x < a + vs.length → InDataWindow x) : Inv P (s.storeBytes P a vs) := by
  have hcells : ∀ c ∈ Memory.writeBytes (s.unlisted P) a vs s.mem, InDataWindow c.1 := by
    intro c hc
    rcases Memory.mem_writeBytes hc with ⟨hlo, hhi⟩ | hc
    · exact hwin c.1 hlo hhi
    · exact h.windows c hc
  exact h.hostUpdate h.noFault.2 s.rdDivSel s.staged h.outCap s.outCount s.hdrIn0 s.hdrIn1
    (Memory.wf_writeBytes h.canonical) hcells s.pending s.responses

theorem Inv.writeTarget {s : State} (h : Inv P s) {w : Width} {a v : Word} {target : Target}
    (ha : admitAccess w a = .ok target) : Inv P (writeTarget P v s target) := by
  rcases admit_ok ha with ⟨rfl, -⟩ | ⟨rfl, hlo, hhi, -⟩ | ⟨rfl, hlo, hhi, -, hmod⟩
  · rw [Machine.writeTarget, csrWriteAt_frame]
    exact h.hostUpdate h.noFault.2 _ _ (csrWriteAt_outCap_le _ v s h.outCap) _ _ _ h.canonical h.windows _ _
  · refine h.storeBytes fun x hx hx' => inDataWindow_pin ?_
    simp only [Config.pinBase, List.length_singleton] at hx hx'
    omega
  · refine h.storeBytes fun x hx hx' => inDataWindow_out ?_
    rw [wordBytes_length] at hx'
    omega

/-- The state of R290 meets the invariant, whatever its draws are numbered from. -/
theorem inv_resetFrom (k : Nat) (pending : List HostEvent) (responses : List Word) :
    Inv P (State.resetFrom P k pending responses) where
  instanceGood := nofun
  noInstance _ := ⟨rfl, ⟨rfl, rfl⟩, rfl, rfl, rfl⟩
  noFault := ⟨rfl, nofun, nofun⟩
  quiet := ⟨rfl, rfl⟩
  outCap := Nat.zero_le _
  arrays := by simp [State.resetFrom]
  canonical := rfl
  windows := nofun

theorem Inv.access {s t : State} (h : Inv P s) {ev : HostEvent} (ht : access P ev s = .next t) : Inv P t := by
  rcases access_cases ht with ⟨-, rfl⟩ | ⟨_, _, _, -, -, rfl⟩ | ⟨_, _, _, _, -, ha, rfl⟩
  · exact inv_resetFrom _ _ _
  · exact h.respond _
  · exact h.writeTarget ha

/-! ### CREATE and SETCFG -/

/-- ENSURE_CAPACITY leaves no buffer with more entries written than its size: it keeps a buffer whose size fits and
empties every other (R241, R243). -/
theorem ensureCapacity_buffers_le {s : State} (h : s.payBuf.cells.length ≤ s.allocPay.toNat ∧
    s.paySym.cells.length ≤ s.allocSym.toNat ∧ s.paySmp.cells.length ≤ s.allocSmp.toNat) :
    (ensureCapacity s).payBuf.cells.length ≤ (ensureCapacity s).allocPay.toNat ∧
    (ensureCapacity s).paySym.cells.length ≤ (ensureCapacity s).allocSym.toNat ∧
    (ensureCapacity s).paySmp.cells.length ≤ (ensureCapacity s).allocSmp.toNat := by
  obtain ⟨hbuf, hsym, hsmp⟩ := h
  rw [ensureCapacity_eq]
  refine ⟨?_, ?_, ?_⟩ <;> dsimp only <;> split
  · next e => exact e ▸ hbuf
  · exact Nat.zero_le _
  · next e => exact e ▸ hsym
  · exact Nat.zero_le _
  · next e => exact e ▸ hsmp
  · exact Nat.zero_le _

/-- A valid configuration taken into a machine that has its sync sequence meets what R45, R49 to R51 and R242 ask
(R123, R124). -/
theorem instanceGood_reconfigured {cfg : Cfg} {s : State} (hv : valid P cfg = true)
    (hpn : s.pnSeq = pnBits P.pnTaps P.pnSeed 64) (hbuf : s.payBuf.cells.length ≤ s.allocPay.toNat ∧
      s.paySym.cells.length ≤ s.allocSym.toNat ∧ s.paySmp.cells.length ≤ s.allocSmp.toNat) :
    InstanceGood P (ensureCapacity (applyCfg cfg s)) := by
  have hvalid := (valid_iff cfg).mp hv
  have hfit := ensureCapacity_buffers_le (s := applyCfg cfg s) hbuf
  rw [reconfigured_eq] at hfit ⊢
  have hpay : (cfg.payLen.setWidth 32).toNat = cfg.payLen.toNat := by
    have := cfg.payLen.isLt
    rw [BitVec.toNat_setWidth]; omega
  exact ⟨hvalid, ⟨geoNsym_toNat cfg hvalid.1, geoFrameLen_toNat cfg hvalid.1⟩, ⟨hpay, rfl, rfl⟩, rfl, hpn, hfit⟩

/-- `InstanceGood` looks at neither CREATED nor LAST_ERR. -/
theorem InstanceGood.withStatus {s : State} (g : InstanceGood P s) (c : Bool) (e : ErrCode) :
    InstanceGood P { s with created := c, lastErr := e } :=
  ⟨g.validLive, g.geometry, g.capacity, g.modSel, g.pnSeq, g.buffers⟩

theorem Inv.created {s : State} (h : Inv P s) (hc : s.created = false) {cfg : Cfg} (hv : valid P cfg = true) :
    Inv P (created P cfg s) := by
  obtain ⟨hbuf, hsym, hsmp⟩ := (h.noInstance hc).buffers
  have g : InstanceGood P (ensureCapacity (applyCfg cfg (initBuffers P (pnGenerate P s)))) :=
    instanceGood_reconfigured hv (by simp [pnGenerate]) (by simp [hbuf, hsym, hsmp])
  have hgood : InstanceGood P (Machine.created P cfg s) := g.withStatus true .ok
  rw [created_eq] at hgood ⊢
  exact {
    instanceGood := fun _ => hgood
    noInstance := nofun
    noFault := ⟨h.noFault.1, nofun, nofun⟩
    quiet := h.quiet
    outCap := h.outCap
    arrays := ⟨pnBits_length _ _ _, h.arrays.2⟩
    canonical := h.canonical
    windows := h.windows }

theorem Inv.create {s : State} (h : Inv P s) (staged : Bool) : Inv P (create P staged s) := by
  rcases create_cases (P := P) staged s with ⟨hf, -⟩ | ⟨-, -, e⟩ | ⟨-, -, -, e⟩ | ⟨-, hc, hv, e⟩
  · exact absurd (h.noFault.1.symm.trans hf) nofun
  · exact e ▸ h.raise ⟨nofun, nofun⟩
  · exact e ▸ h.raise ⟨nofun, nofun⟩
  · exact e ▸ h.created hc hv

theorem Inv.reconfigured {s : State} (h : Inv P s) (hc : s.created = true) {cfg : Cfg} (hv : valid P cfg = true) :
    Inv P (ensureCapacity (applyCfg cfg s)) := by
  have g := h.instanceGood hc
  have hgood := instanceGood_reconfigured hv g.pnSeq g.buffers
  rw [reconfigured_eq] at hgood ⊢
  exact {
    instanceGood := fun _ => hgood
    noInstance := fun hc' => absurd (hc.symm.trans hc') nofun
    noFault := h.noFault
    quiet := h.quiet
    outCap := h.outCap
    arrays := h.arrays
    canonical := h.canonical
    windows := h.windows }

theorem Inv.setcfg {s : State} (h : Inv P s) : Inv P (setcfg P s) := by
  rcases setcfg_cases (P := P) s with ⟨hf, -⟩ | ⟨-, -, e⟩ | ⟨-, -, -, e⟩ | ⟨-, hc, hv, e⟩
  · exact absurd (h.noFault.1.symm.trans hf) nofun
  · exact e ▸ h.raise ⟨nofun, nofun⟩
  · exact e ▸ h.raise ⟨nofun, nofun⟩
  · exact e ▸ (h.reconfigured hc hv).raise ⟨nofun, nofun⟩

/-! ### DESTROY -/

theorem Inv.destroyed {s : State} (h : Inv P s) : Inv P (destroyed P s) where
  instanceGood := nofun
  noInstance _ := ⟨rfl, ⟨rfl, rfl⟩, rfl, rfl, rfl⟩
  noFault := ⟨h.noFault.1, nofun, nofun⟩
  quiet := h.quiet
  outCap := h.outCap
  arrays := by simp [Machine.destroyed, unspecifyInstance]
  canonical := h.canonical
  windows := h.windows

theorem Inv.destroy {s : State} (h : Inv P s) : Inv P (destroy P s) := by
  rcases destroy_cases (P := P) s with ⟨hf, -⟩ | ⟨-, -, e⟩ | ⟨-, -, e⟩
  · exact absurd (h.noFault.1.symm.trans hf) nofun
  · exact e ▸ h.raise ⟨nofun, nofun⟩
  · exact e ▸ h.destroyed

/-! ### EXEC -/

/-- HDR_ENCODE leaves the two header buffers at their sizes (R190-R194). -/
theorem hdrEncode_lengths {s : State} (h : s.hdrRaw.length = 15) :
    (hdrEncode P s).hdrRaw.length = 15 ∧ (hdrEncode P s).hdrEnc.length = 32 := by
  simp [hdrEncode, hdrInterleave, hdrFec, hdrScramble, hdrChecksum, hdrAssemble, wordBytesBE, P.scramble_length, h]

/-- EXEC leaves the header buffers at their sizes (R46). -/
theorem ran_header_lengths {s : State} (h : s.hdrRaw.length = 15) :
    (ran P s).hdrRaw.length = 15 ∧ (ran P s).hdrEnc.length = 32 ∧ (ran P s).hdrSym.length = 256 := by
  have hraw : (execCapture P s).hdrRaw.length = 15 := by simp [userBytes, wordBytesBE, h]
  obtain ⟨henc, henc'⟩ := hdrEncode_lengths (P := P) hraw
  rw [ran, execRun_hdrRaw, execRun_hdrEnc, execRun_hdrSym]
  exact ⟨henc, henc', by simp [hdrModulate]⟩

/-- EXEC writes the first L entries of PAY_BUF and the first nsym of the others (R128, R221, R223). -/
theorem ran_buffer_lengths (s : State) :
    (ran P s).payBuf.cells.length = max s.live.payLen.toNat s.payBuf.cells.length ∧
    (ran P s).paySym.cells.length = max s.geoNsym.toNat s.paySym.cells.length ∧
    (ran P s).paySmp.cells.length = max s.geoNsym.toNat s.paySmp.cells.length := by
  have hbuf : (ran P s).payBuf = (execCapture P s).payBuf := by rw [ran_frame]
  refine ⟨?_, ?_, ?_⟩
  · simp [hbuf, Buffer.put_length]
  · simp [ran, execRun_paySym, repack, payClear, repackSymbols, Buffer.put_length]
  · simp [ran, execRun_paySmp, payModulate, Buffer.put_length]

/-- An EXEC keeps what R45, R49 to R51 and R242 ask. -/
theorem instanceGood_ran {s : State} (g : InstanceGood P s) : InstanceGood P (ran P s) := by
  obtain ⟨hpay, hsym, hsmp⟩ := g.capacity
  obtain ⟨bpay, bsym, bsmp⟩ := g.buffers
  obtain ⟨lpay, lsym, lsmp⟩ := ran_buffer_lengths (P := P) s
  have hbuf : (ran P s).payBuf.cells.length ≤ s.allocPay.toNat ∧ (ran P s).paySym.cells.length ≤ s.allocSym.toNat ∧
      (ran P s).paySmp.cells.length ≤ s.allocSmp.toNat := by
    rw [lpay, lsym, lsmp, ← hpay]
    rw [hsym] at bsym ⊢
    rw [hsmp] at bsmp ⊢
    exact ⟨max_le le_rfl bpay, max_le le_rfl bsym, max_le le_rfl bsmp⟩
  rw [ran_frame] at hbuf ⊢
  exact ⟨g.validLive, ⟨g.geometry.1, g.geometry.2⟩, ⟨hpay, hsym, hsmp⟩, g.modSel, g.pnSeq, hbuf⟩

/-- A frame that fits OUT_CAP stays inside the OUT window (R40, R60). -/
theorem ran_windows {s : State} (h : Inv P s) (hg : GeometryMatches s) (hfit : s.geoFrameLen.toNat ≤ s.outCap.toNat) :
    ∀ c ∈ (ran P s).mem, InDataWindow c.1 := by
  intro c hc
  have hlen : (framed P s).length = s.geoFrameLen.toNat := (ran_n s).symm.trans (ran_n_of_geometry hg)
  have hcap := h.outCap
  rcases (ran_wrote s).cells c hc with ⟨hlo, hhi⟩ | hc
  · simp only [Config.outBase] at hlo hhi
    exact inDataWindow_out (by omega)
  · exact h.windows c hc

theorem Inv.ran {s : State} (h : Inv P s) (hc : s.created = true) (hfit : s.geoFrameLen.toNat ≤ s.outCap.toNat) :
    Inv P (ran P s) := by
  have g := h.instanceGood hc
  have hgood := instanceGood_ran g
  have hwin := ran_windows h g.geometry hfit
  have hcanon := (ran_wrote s).canonical h.canonical
  have hlen := ran_header_lengths (P := P) h.arrays.2.1
  rw [ran_frame] at hgood hwin hcanon hlen ⊢
  exact {
    instanceGood := fun _ => hgood
    noInstance := fun hc' => absurd (hc.symm.trans hc') nofun
    noFault := h.noFault
    quiet := ⟨h.quiet.1, rfl⟩
    outCap := h.outCap
    arrays := ⟨h.arrays.1, hlen⟩
    canonical := hcanon
    windows := hwin }

/-- The count of an EXEC matches the geometry, so no EXEC of the invariant reports INTERNAL_FAULT (R136, R263). -/
theorem Inv.runFrame {s : State} (h : Inv P s) : Inv P (runFrame P s) := by
  rcases runFrame_cases (P := P) s with ⟨hf, -⟩ | ⟨-, -, e⟩ | ⟨-, -, -, e⟩ | ⟨hf, hc, hfit, -⟩
  · exact absurd (h.noFault.1.symm.trans hf) nofun
  · exact e ▸ h.raise ⟨nofun, nofun⟩
  · exact e ▸ h.raise ⟨nofun, nofun⟩
  · rw [runFrame_of_ready ⟨hf, hc, (h.instanceGood hc).geometry, hfit⟩]
    exact (h.ran hc hfit).reported (e := .ok) ⟨nofun, nofun⟩ s.geoFrameLen

/-! ### Every step -/

theorem Inv.exec {i : Instr} {s t : State} (h : Inv Config.params s) (ht : exec i s = .next t) :
    Inv Config.params t := by
  cases i <;> cases ht
  case create staged => exact h.create staged
  case setcfg => exact h.setcfg
  case exec => exact h.runFrame
  case destroy => exact h.destroy
  case getcfg order => exact h.respond _
  case framelen => exact h.respond _
  case reserved w => exact h.raise ⟨nofun, nofun⟩

/-- Settles O48: each thing a step can do, an operation or an access, keeps the invariant. -/
theorem stepKeepsTheInvariant : Obligations.StepKeepsTheInvariant := by
  intro s t h ht
  rcases step_cases ht with ⟨-, rfl⟩ | ⟨i, rest, -, he⟩ | ⟨ev, rest, -, ha⟩
  · exact h
  · exact (h.withPending rest).exec he
  · exact (h.withPending rest).access ha

end Sys2Proof.Machine
end

section
/-! SUPPORT. Which operations and accesses write STATUS, the sync sequence and the host's own registers (R20, R45, R53,
R270), and the statements about them. -/

namespace Sys2Proof.Machine

variable {P : Params}

/-! ### The writers of STATUS -/

/-- A data write leaves LAST_ERR, CREATED and FAULT (R270). -/
theorem writeTarget_status {w : Width} {a v : Word} {target : Target} (s : State)
    (h : admitAccess w a = .ok target) :
    (writeTarget P v s target).lastErr = s.lastErr ∧ (writeTarget P v s target).created = s.created ∧
      (writeTarget P v s target).fault = s.fault := by
  rw [writeTarget_frame s h]
  exact ⟨rfl, rfl, rfl⟩

/-- Only a successful CREATE sets CREATED; none touches FAULT (R123). -/
theorem create_status (staged : Bool) (s : State) :
    (create P staged s).fault = s.fault ∧
    ((create P staged s).created ≠ s.created → (create P staged s).created = true ∧
      (create P staged s).lastErr = .ok) := by
  rcases create_cases (P := P) staged s with ⟨-, e⟩ | ⟨-, -, e⟩ | ⟨-, -, -, e⟩ | ⟨-, -, -, e⟩
  · simp [e]
  · simp [e]
  · simp [e]
  · rw [e, created_eq]
    exact ⟨rfl, fun _ => ⟨rfl, rfl⟩⟩

/-- SETCFG touches neither CREATED nor FAULT (R124). -/
theorem setcfg_status (s : State) : (setcfg P s).created = s.created ∧ (setcfg P s).fault = s.fault := by
  rcases setcfg_cases (P := P) s with ⟨-, e⟩ | ⟨-, -, e⟩ | ⟨-, -, -, e⟩ | ⟨-, -, -, e⟩
  · simp [e]
  · simp [e]
  · simp [e]
  · rw [e, reconfigured_eq]
    exact ⟨rfl, rfl⟩

/-- Only an EXEC whose count is wrong sets FAULT, with INTERNAL_FAULT; none touches CREATED (R136). -/
theorem runFrame_status (s : State) :
    (runFrame P s).created = s.created ∧
    ((runFrame P s).fault ≠ s.fault → (runFrame P s).fault = true ∧ (runFrame P s).lastErr = .internalFault) := by
  rcases runFrame_cases (P := P) s with ⟨-, e⟩ | ⟨-, -, e⟩ | ⟨-, -, -, e⟩ | ⟨-, -, -, e⟩
  · simp [e]
  · simp [e]
  · simp [e]
  · obtain ⟨hcreated, hfault, -⟩ := ran_fields (P := P) s
    rw [e]
    by_cases hn : (ran P s).n = (ran P s).geoFrameLen.toNat
    · rw [execEnd_of_eq hn]
      exact ⟨hcreated, fun h => absurd hfault h⟩
    · rw [execEnd_of_ne hn]
      exact ⟨hcreated, fun _ => ⟨rfl, rfl⟩⟩

/-- Only a successful DESTROY clears CREATED; none touches FAULT (R137). -/
theorem destroy_status (s : State) :
    (destroy P s).fault = s.fault ∧
    ((destroy P s).created ≠ s.created → (destroy P s).created = false ∧ (destroy P s).lastErr = .ok) := by
  rcases destroy_cases (P := P) s with ⟨-, e⟩ | ⟨-, -, e⟩ | ⟨-, -, e⟩
  · simp [e]
  · simp [e]
  · rw [e]
    exact ⟨rfl, fun _ => ⟨rfl, rfl⟩⟩

/-- Settles O14: an access that is neither reset nor a command word is a query, a read or a data write. -/
theorem onlyCommandWordsChangeStatus : Obligations.OnlyCommandWordsChangeStatus := by
  intro s t ev rest hp hreset hcmd ht
  rcases step_cases ht with ⟨hp', -⟩ | ⟨i, rest', hd, he⟩ | ⟨ev', rest', hp', ha⟩
  · rw [hp] at hp'; cases hp'
  · rcases decode_ok_cases hd with ⟨w, hw, -⟩ | ⟨-, rfl⟩ | ⟨order, -, -, rfl⟩
    · rw [hp] at hw
      exact absurd (List.cons.inj hw).1 (hcmd w)
    · cases he
      exact ⟨rfl, rfl, rfl⟩
    · cases he
      exact ⟨rfl, rfl, rfl⟩
  · rw [hp] at hp'
    obtain ⟨rfl, rfl⟩ := List.cons.inj hp'
    rcases access_cases ha with ⟨h, -⟩ | ⟨_, _, _, -, -, rfl⟩ | ⟨_, _, _, _, -, hadmit, rfl⟩
    · exact absurd h hreset
    · exact ⟨rfl, rfl, rfl⟩
    · exact writeTarget_status _ hadmit

/-- Settles O43, by the commands' own laws; the queries and the reserved words leave both bits. -/
theorem createdAndFaultHaveTheirWriters : Obligations.CreatedAndFaultHaveTheirWriters := by
  intro i s t h
  cases i <;> cases h
  case create staged =>
    obtain ⟨hfault, hcreated⟩ := create_status (P := Config.params) staged s
    exact ⟨fun h => .inl ⟨⟨staged, rfl⟩, hcreated h⟩, fun h => absurd hfault h⟩
  case setcfg =>
    obtain ⟨hcreated, hfault⟩ := setcfg_status (P := Config.params) s
    exact ⟨fun h => absurd hcreated h, fun h => absurd hfault h⟩
  case exec =>
    obtain ⟨hcreated, hfault⟩ := runFrame_status (P := Config.params) s
    exact ⟨fun h => absurd hcreated h, fun h => ⟨rfl, hfault h⟩⟩
  case destroy =>
    obtain ⟨hfault, hcreated⟩ := destroy_status (P := Config.params) s
    exact ⟨fun h => .inr ⟨rfl, hcreated h⟩, fun h => absurd hfault h⟩
  case getcfg order => exact ⟨fun h => absurd rfl h, fun h => absurd rfl h⟩
  case framelen => exact ⟨fun h => absurd rfl h, fun h => absurd rfl h⟩
  case reserved w => exact ⟨fun h => absurd rfl h, fun h => absurd rfl h⟩

/-! ### The host's registers and the sync sequence -/

/-- `t` has the host's registers, the pending accesses and BUSY as `s` has them. -/
def HostKept (s t : State) : Prop :=
  t.staged = s.staged ∧ t.rdDivSel = s.rdDivSel ∧ t.outCap = s.outCap ∧ t.hdrIn0 = s.hdrIn0 ∧
    t.hdrIn1 = s.hdrIn1 ∧ t.pending = s.pending ∧ t.busy = s.busy

theorem hostKept_raise (e : ErrCode) (s : State) : HostKept s (raise e s) := ⟨rfl, rfl, rfl, rfl, rfl, rfl, rfl⟩

theorem hostKept_respond (vs : List Word) (s : State) : HostKept s (s.respond vs) :=
  ⟨rfl, rfl, rfl, rfl, rfl, rfl, rfl⟩

theorem hostKept_create (staged : Bool) (s : State) : HostKept s (create P staged s) := by
  rcases create_cases (P := P) staged s with ⟨-, e⟩ | ⟨-, -, e⟩ | ⟨-, -, -, e⟩ | ⟨-, -, -, e⟩
  · exact e ▸ hostKept_raise _ s
  · exact e ▸ hostKept_raise _ s
  · exact e ▸ hostKept_raise _ s
  · rw [e, created_eq]
    exact ⟨rfl, rfl, rfl, rfl, rfl, rfl, rfl⟩

theorem hostKept_setcfg (s : State) : HostKept s (setcfg P s) := by
  rcases setcfg_cases (P := P) s with ⟨-, e⟩ | ⟨-, -, e⟩ | ⟨-, -, -, e⟩ | ⟨-, -, -, e⟩
  · exact e ▸ hostKept_raise _ s
  · exact e ▸ hostKept_raise _ s
  · exact e ▸ hostKept_raise _ s
  · rw [e, reconfigured_eq]
    exact ⟨rfl, rfl, rfl, rfl, rfl, rfl, rfl⟩

theorem hostKept_runFrame (s : State) : HostKept s (runFrame P s) := by
  rcases runFrame_cases (P := P) s with ⟨-, e⟩ | ⟨-, -, e⟩ | ⟨-, -, -, e⟩ | ⟨-, -, -, e⟩
  · exact e ▸ hostKept_raise _ s
  · exact e ▸ hostKept_raise _ s
  · exact e ▸ hostKept_raise _ s
  · rw [e, execEnd_frame, ran_frame]
    exact ⟨rfl, rfl, rfl, rfl, rfl, rfl, rfl⟩

theorem hostKept_destroy (s : State) : HostKept s (destroy P s) := by
  rcases destroy_cases (P := P) s with ⟨-, e⟩ | ⟨-, -, e⟩ | ⟨-, -, e⟩
  · exact e ▸ hostKept_raise _ s
  · exact e ▸ hostKept_raise _ s
  · rw [e]
    exact ⟨rfl, rfl, rfl, rfl, rfl, rfl, rfl⟩

/-- Settles O44, operation by operation. -/
theorem operationsKeepTheHostsRegisters : Obligations.OperationsKeepTheHostsRegisters := by
  intro i s t h
  cases i <;> cases h
  case create staged => exact hostKept_create staged s
  case setcfg => exact hostKept_setcfg s
  case exec => exact hostKept_runFrame s
  case destroy => exact hostKept_destroy s
  case getcfg order => exact hostKept_respond _ s
  case framelen => exact hostKept_respond _ s
  case reserved w => exact hostKept_raise _ s

theorem setcfg_sequence (s : State) : (setcfg P s).pnSeq = s.pnSeq ∧ (setcfg P s).lfsr = s.lfsr := by
  rcases setcfg_cases (P := P) s with ⟨-, e⟩ | ⟨-, -, e⟩ | ⟨-, -, -, e⟩ | ⟨-, -, -, e⟩
  · simp [e]
  · simp [e]
  · simp [e]
  · rw [e, reconfigured_eq]
    exact ⟨rfl, rfl⟩

theorem runFrame_sequence (s : State) : (runFrame P s).pnSeq = s.pnSeq ∧ (runFrame P s).lfsr = s.lfsr := by
  rcases runFrame_cases (P := P) s with ⟨-, e⟩ | ⟨-, -, e⟩ | ⟨-, -, -, e⟩ | ⟨-, -, -, e⟩
  · simp [e]
  · simp [e]
  · simp [e]
  · rw [e, execEnd_frame, ran_frame]
    exact ⟨rfl, rfl⟩

/-- Settles O46: of the other operations only SETCFG and EXEC do more than respond or report. -/
theorem syncSequenceIsImmutable : Obligations.SyncSequenceIsImmutable := by
  intro i s t h hcreate hdestroy
  cases i <;> cases h
  case create staged => exact absurd rfl (hcreate staged)
  case setcfg => exact setcfg_sequence s
  case exec => exact runFrame_sequence s
  case destroy => exact absurd rfl hdestroy
  case getcfg order => exact ⟨rfl, rfl⟩
  case framelen => exact ⟨rfl, rfl⟩
  case reserved w => exact ⟨rfl, rfl⟩

/-- Settles O5: what an operation encodes to decodes to it, whatever follows. -/
theorem stepRunsTheDecodedOperation : Obligations.StepRunsTheDecodedOperation := by
  intro s
  refine ⟨fun i rest hwf hb hp => step_operation hb ?_, step_of_pending_nil⟩
  rw [hp]
  exact decode_encode_append hwf rest

end Sys2Proof.Machine
end

section
/-! SUPPORT. Host accesses to the CSR window, register by register (R22-R44, R52, R69), and the statements about them. -/

namespace Sys2Proof

theorem Csr.offset_le (c : Csr) : c.offset ≤ 0x84 := by cases c <;> decide

theorem Csr.addr_eq (c : Csr) : c.addr = BitVec.ofNat 32 c.offset := by simp [Csr.addr, Config.csrBase]

theorem Csr.addr_toNat (c : Csr) : c.addr.toNat = c.offset := by
  have := c.offset_le
  rw [Csr.addr_eq, BitVec.toNat_ofNat]; omega

theorem Csr.mem_all (c : Csr) : c ∈ Csr.all := by cases c <;> decide

theorem Csr.addr_injective {c c' : Csr} (h : c.addr = c'.addr) : c = c' := by
  have e := Machine.Csr.atOffset_offset c
  rw [← c.addr_toNat, h, c'.addr_toNat, Machine.Csr.atOffset_offset] at e
  exact (Option.some.inj e).symm

/-- An access stream that does not begin with a CFG read begins no GETCFG (R96). -/
theorem decodeGetcfg_of_cfgRead?_none {ev : HostEvent} (h : cfgRead? ev = none) (rest : List HostEvent) :
    decodeGetcfg (ev :: rest) = none := by simp [decodeGetcfg, cfgReads?, h]

end Sys2Proof

namespace Sys2Proof.Machine

/-! ### One access to a register -/

theorem admit_csrAddr (c : Csr) : admitAccess .b32 c.addr = .ok (.csr c.offset) := by
  have hle := c.offset_le
  rw [admit_csr (by rw [c.addr_toNat]; omega), admitWord_b32 (by rw [c.addr_toNat]; exact Csr.offset_mod c),
    c.addr_toNat]

theorem csrReadAt_offset (c : Csr) (s : State) : csrReadAt c.offset s = csrRead s c := by
  simp [csrReadAt, Csr.atOffset_offset]

theorem csrWriteAt_offset (c : Csr) (v : Word) (s : State) : csrWriteAt c.offset v s = csrWrite v s c := by
  simp [csrWriteAt, Csr.atOffset_offset]

theorem csrRead_withPending (s : State) (pending : List HostEvent) (c : Csr) :
    csrRead { s with pending := pending } c = csrRead s c := by cases c <;> rfl

theorem csrWrite_withPending (v : Word) (s : State) (pending : List HostEvent) (c : Csr) :
    csrWrite v { s with pending := pending } c = { csrWrite v s c with pending := pending } := by cases c <;> rfl

@[simp] theorem csrWrite_busy (v : Word) (s : State) (c : Csr) : (csrWrite v s c).busy = s.busy := by cases c <;> rfl

@[simp] theorem csrWrite_responses (v : Word) (s : State) (c : Csr) : (csrWrite v s c).responses = s.responses := by
  cases c <;> rfl

/-- A 32-bit write to a register other than CMD stores in it, whatever accesses follow (R69). -/
theorem step_csrWrite {s : State} {c : Csr} {v : Word} {rest : List HostEvent} (hc : c ≠ .cmd) (hb : s.busy = false)
    (hp : s.pending = .write .b32 c.addr v :: rest) : step s = .next { csrWrite v s c with pending := rest } := by
  rw [step_write hb hp (fun h => hc (Csr.addr_injective h)) (admit_csrAddr c), writeTarget, csrWriteAt_offset,
    csrWrite_withPending]

/-- A 32-bit read of a register returns it, whatever accesses follow, unless it begins a GETCFG (R69, R96); the read of
GEO_FRAMELEN is the FRAMELEN operation. -/
theorem step_csrRead {s : State} {c : Csr} {rest : List HostEvent} (hb : s.busy = false)
    (hp : s.pending = .read .b32 c.addr :: rest) (hg : decodeGetcfg s.pending = none) :
    step s = .next { s with pending := rest, responses := s.responses ++ [csrRead s c] } := by
  by_cases hc : c = .geoFramelen
  · subst hc
    exact step_operation hb (hp ▸ decode_framelen rest)
  · rw [step_read_of_no_getcfg hb hp (fun h => hc (Csr.addr_injective h)) hg (admit_csrAddr c), readTarget,
      csrReadAt_offset, csrRead_withPending]
    rfl

/-- A register that no GETCFG reads, whatever accesses follow. -/
theorem step_csrRead_of_not_cfg {s : State} {c : Csr} {rest : List HostEvent} (hb : s.busy = false)
    (hp : s.pending = .read .b32 c.addr :: rest) (hc : cfgRead? (csrReadEvent c) = none) :
    step s = .next { s with pending := rest, responses := s.responses ++ [csrRead s c] } :=
  step_csrRead hb hp (hp ▸ decodeGetcfg_of_cfgRead?_none hc rest)

/-! ### The fields of a word -/

theorem ofBool_setWidth (b : Bool) : (BitVec.ofBool b).setWidth 32 = if b then 1#32 else 0#32 := by cases b <;> rfl

/-- A modulation byte in a word: the scheme above the depth (R97). -/
theorem modByte_setWidth (cfg : Cfg) :
    (modByte cfg).setWidth 32 = (cfg.scheme.setWidth 32 <<< 4) ||| cfg.depth.setWidth 32 := by
  apply BitVec.eq_of_getLsbD_eq
  intro i hi
  simp only [modByte, BitVec.getLsbD_setWidth, BitVec.getLsbD_append, BitVec.getLsbD_or, BitVec.getLsbD_shiftLeft]
  interval_cases i <;> simp

theorem and_one (v : Word) : v &&& 0x00000001#32 = (BitVec.ofBool (v.getLsbD 0)).setWidth 32 := by
  apply BitVec.eq_of_getLsbD_eq
  intro i hi
  simp only [BitVec.getLsbD_and, BitVec.getLsbD_setWidth, BitVec.getLsbD_ofBool]
  interval_cases i <;> simp

theorem and_halfword (v : Word) : v &&& 0x0000FFFF#32 = (v.setWidth 16).setWidth 32 := by
  apply BitVec.eq_of_getLsbD_eq
  intro i hi
  simp only [BitVec.getLsbD_and, BitVec.getLsbD_setWidth]
  interval_cases i <;> simp

/-- The modulation byte of the two fields a write to STG_MOD stores (R27). -/
theorem and_byte (v : Word) (cfg : Cfg) :
    v &&& 0x000000FF#32
      = (modByte { cfg with scheme := v.extractLsb' 4 4, depth := v.extractLsb' 0 4 }).setWidth 32 := by
  apply BitVec.eq_of_getLsbD_eq
  intro i hi
  simp only [modByte, BitVec.getLsbD_and, BitVec.getLsbD_setWidth, BitVec.getLsbD_append, BitVec.getLsbD_extractLsb']
  interval_cases i <;> simp

/-! ### Read-write registers -/

/-- The registers the host reads and writes (R23-R28, R40, R44). -/
def readWriteCsrs : List Csr :=
  [.ctrl, .stgRampup, .stgPhasing, .stgPaylen, .stgMod, .stgRampdn, .outCap, .hdrIn0, .hdrIn1]

theorem readWriteCsrs_no_query : ∀ c ∈ readWriteCsrs, c ≠ .cmd ∧ cfgRead? (csrReadEvent c) = none := by decide

/-- A register written and then read, whatever accesses follow (R69). -/
theorem step_csrWrite_read {s : State} {c : Csr} {v : Word} {rest : List HostEvent} (hc : c ∈ readWriteCsrs)
    (hb : s.busy = false) (hp : s.pending = .write .b32 c.addr v :: rest) :
    step s = .next { csrWrite v s c with pending := rest } ∧
    ∀ rest', rest = .read .b32 c.addr :: rest' →
      step { csrWrite v s c with pending := rest }
        = .next { csrWrite v s c with
            pending := rest', responses := s.responses ++ [csrRead (csrWrite v s c) c] } := by
  obtain ⟨hcmd, hcfg⟩ := readWriteCsrs_no_query c hc
  refine ⟨step_csrWrite hcmd hb hp, ?_⟩
  rintro rest' rfl
  have hread := step_csrRead_of_not_cfg (s := { csrWrite v s c with pending := .read .b32 c.addr :: rest' })
    ((csrWrite_busy v s c).trans hb) rfl hcfg
  rwa [csrRead_withPending, csrWrite_responses] at hread

/-- Settles O8: each row of the table is a register, what a write leaves and what a read then returns. -/
theorem writableRegistersReadBack : Obligations.WritableRegistersReadBack := by
  intro s rest off v r s' hb hp hrow
  rw [and_one, and_halfword, and_byte v s.staged, ← outCapStored_eq] at hrow
  change _ ∈ readWriteCsrs.map fun c => (c.addr, csrRead (csrWrite v s c) c, csrWrite v s c) at hrow
  obtain ⟨c, hc, he⟩ := List.mem_map.mp hrow
  obtain ⟨rfl, rfl, rfl⟩ : c.addr = off ∧ csrRead (csrWrite v s c) c = r ∧ csrWrite v s c = s' := by simpa using he
  exact step_csrWrite_read hc hb hp

/-- Settles O57: each row of the table is a register that no GETCFG reads. -/
theorem readWriteRegistersRead : Obligations.ReadWriteRegistersRead := by
  intro s rest off v hb hp hrow
  rw [← ofBool_setWidth, ← modByte_setWidth] at hrow
  change _ ∈ readWriteCsrs.map fun c => (c.addr, csrRead s c) at hrow
  obtain ⟨c, hc, he⟩ := List.mem_map.mp hrow
  obtain ⟨rfl, rfl⟩ := Prod.mk.inj he
  exact step_csrRead_of_not_cfg hb hp (readWriteCsrs_no_query c hc).2

/-! ### Read-only registers and reserved offsets -/

/-- The registers the host only reads, STATUS aside (R29-R39, R41-R43). -/
def readOnlyCsrs : List Csr :=
  [.cfgRampup, .cfgPhasing, .cfgPaylen, .cfgMod, .cfgRampdn, .geoNsym, .geoFramelen, .allocPay, .allocSym, .allocSmp,
    .resizeCnt, .outCount, .faultExp, .faultCnt]

/-- A write to a read-only register has no effect (R52). -/
theorem csrWrite_readOnly {c : Csr} (hc : c ∈ Csr.status :: readOnlyCsrs) (v : Word) (s : State) :
    c ≠ .cmd ∧ csrWrite v s c = s := by
  unfold readOnlyCsrs at hc
  fin_cases hc <;> exact ⟨nofun, rfl⟩

/-- The CFG registers are those a GETCFG reads (R96). -/
theorem addr_mem_of_cfgRead? {c : Csr} {r : CfgReg} (h : cfgRead? (csrReadEvent c) = some r) :
    c.addr ∈ [0x030#32, 0x034#32, 0x038#32, 0x03C#32, 0x040#32] := by
  have e := cfgRead?_eq_some h
  simp only [csrReadEvent, HostEvent.read.injEq, true_and] at e
  rw [e]
  cases r <;> decide

/-- Settles O11: each row of the table is a register, and only a CFG register's read can begin a GETCFG. -/
theorem readOnlyRegistersRead : Obligations.ReadOnlyRegistersRead := by
  intro s rest off v hb hp hcfg hrow
  rw [← modByte_setWidth] at hrow
  change _ ∈ (Csr.cmd :: readOnlyCsrs).map fun c => (c.addr, csrRead s c) at hrow
  obtain ⟨c, -, he⟩ := List.mem_map.mp hrow
  obtain ⟨rfl, rfl⟩ := Prod.mk.inj he
  cases hread : cfgRead? (csrReadEvent c) with
  | none => exact step_csrRead_of_not_cfg hb hp hread
  | some r => exact step_csrRead hb hp (hcfg (addr_mem_of_cfgRead? hread))

/-- An address of the CSR window that is no register's is admitted as a reserved offset (R52, R68). -/
theorem admit_reserved {off : Nat} (hoff : off ≤ 0xFFF) (hmod : off % 4 = 0) :
    admitAccess .b32 (BitVec.ofNat 32 off) = .ok (.csr off) := by
  have hn : (BitVec.ofNat 32 off).toNat = off := by rw [BitVec.toNat_ofNat]; omega
  rw [admit_csr (by omega), admitWord_b32 (by omega), hn]

theorem reserved_ne_addr {off : Nat} (hoff : off ≤ 0xFFF) (h : ∀ c : Csr, c.offset ≠ off) (c : Csr) :
    BitVec.ofNat 32 off ≠ c.addr := by
  intro e
  have e' := congrArg BitVec.toNat e
  rw [c.addr_toNat, BitVec.toNat_ofNat] at e'
  exact h c (by omega)

/-- Settles O9: a reserved offset names no register, and a read-only register takes no write. -/
theorem reservedAndReadOnlyOffsetsIgnoreWrites : Obligations.ReservedAndReadOnlyOffsetsIgnoreWrites := by
  intro s rest off v hb hoff hmod
  refine ⟨fun hfree => ?_, fun hro hp => ?_⟩
  · change off ∉ Csr.all.map Csr.offset at hfree
    have hne : ∀ c : Csr, c.offset ≠ off := fun c e => hfree (List.mem_map.mpr ⟨c, c.mem_all, e⟩)
    have hnone := Csr.atOffset_none hne
    have haddr := reserved_ne_addr hoff hne
    refine ⟨fun hp => ?_, fun hp => ?_⟩
    · rw [step_read hb hp (haddr _) (fun r => haddr r.csr) (admit_reserved hoff hmod), readTarget, csrReadAt, hnone]
      rfl
    · rw [step_write hb hp (haddr _) (admit_reserved hoff hmod), writeTarget, csrWriteAt, hnone]
  · change off ∈ (Csr.status :: readOnlyCsrs).map Csr.offset at hro
    obtain ⟨c, hc, rfl⟩ := List.mem_map.mp hro
    obtain ⟨hcmd, hw⟩ := csrWrite_readOnly hc v s
    rw [step_csrWrite hcmd hb (c.addr_eq ▸ hp), hw]

/-! ### STATUS -/

/-- Bits 3:0 of STATUS as the host reads it (R22). -/
theorem statusWord_flags (s : State) :
    (statusWord s).getLsbD 0 = s.created ∧ (statusWord s).getLsbD 1 = s.fault ∧ (statusWord s).getLsbD 2 = s.busy ∧
    (statusWord s).getLsbD 3 = false := by
  simp only [statusWord, BitVec.getLsbD_append]
  simp

/-- Bits 7:4 of STATUS hold the code of LAST_ERR (R22, R261). -/
theorem statusWord_lastErr (s : State) : (statusWord s >>> 4) &&& 0xF#32 = s.lastErr.code.setWidth 32 := by
  apply BitVec.eq_of_getLsbD_eq
  intro i hi
  simp only [statusWord, BitVec.getLsbD_and, BitVec.getLsbD_ushiftRight, BitVec.getLsbD_append,
    BitVec.getLsbD_setWidth]
  interval_cases i <;> simp

/-- Bits 31:8 of STATUS read 0 (R22). -/
theorem statusWord_above (s : State) : statusWord s >>> 8 = 0#32 := by
  apply BitVec.eq_of_getLsbD_eq
  intro i hi
  simp only [statusWord, BitVec.getLsbD_ushiftRight, BitVec.getLsbD_append]
  simp

/-- Settles O10: BUSY or not, the read of STATUS is taken. -/
theorem statusReadsItsFields : Obligations.StatusReadsItsFields := by
  intro s rest hp
  have hd : decode (.read .b32 Csr.status.addr :: rest) = .error .dataAccess :=
    decode_read_of_no_getcfg (by decide) (decodeGetcfg_of_cfgRead?_none (by decide) rest)
  have hstep := (step_access (.inr rfl) hp hd).trans (access_read_ok (admit_csrAddr .status))
  obtain ⟨hcreated, hfault, hbusy, hzero⟩ := statusWord_flags s
  refine ⟨statusWord s, hstep, hcreated, hfault, hbusy, hzero, (statusWord_lastErr s).trans ?_, statusWord_above s⟩
  cases s.lastErr <;> rfl

end Sys2Proof.Machine
end

section
/-! SUPPORT. Host accesses to the PIN and OUT windows and to no window (R60-R64, R68, R69), which operations write the
windows' bytes (R62, R63, R295), and the statements about them. -/

namespace Sys2Proof.Machine

open Sys2Proof.Laws.Encoding (IsCsrAccess isCsrAccess_csrReadEvent isCsrAccess_commandWrite)

variable {P : Params}

/-! ### Which accesses are refused -/

/-- The access an operation begins with is an aligned 32-bit access to the CSR window (R90, R96). -/
theorem isCsrAccess_of_decode {ev : HostEvent} {evs rest : List HostEvent} {i : Instr}
    (h : decode (ev :: evs) = .ok (i, rest)) : IsCsrAccess ev := by
  rcases decode_ok_cases h with ⟨w, he, -⟩ | ⟨he, -⟩ | ⟨order, horder, he, -⟩
  · rw [(List.cons.inj he).1]
    exact isCsrAccess_commandWrite w
  · rw [(List.cons.inj he).1]
    exact isCsrAccess_csrReadEvent .geoFramelen
  · cases order with
    | nil => cases horder
    | cons r rs =>
      rw [(List.cons.inj he).1]
      exact isCsrAccess_csrReadEvent r.csr

theorem exec_next (i : Instr) (s : State) : ∃ t, exec i s = .next t := by cases i <;> exact ⟨_, rfl⟩

section Admission

variable {s : State} {ev : HostEvent} {rest : List HostEvent} {width : Width} {addr : Word}

/-- With BUSY 0, a read or write has a next state where it is admitted and is refused where it is not, with the name
admission gives (R64, R68); one that begins an operation is admitted. -/
theorem step_of_admitAccess (hb : s.busy = false) (hp : s.pending = ev :: rest)
    (hev : ev = .read width addr ∨ ∃ v, ev = .write width addr v) :
    (∀ target, admitAccess width addr = .ok target → ∃ t, step s = .next t) ∧
    (∀ r, admitAccess width addr = .error r → step s = .refused r) := by
  cases hd : decode (ev :: rest) with
  | ok op =>
    obtain ⟨i, rest'⟩ := op
    have hcsr : width = .b32 ∧ addr.toNat ≤ 0xFFF ∧ addr.toNat % 4 = 0 := by
      have h := isCsrAccess_of_decode hd
      rcases hev with rfl | ⟨v, rfl⟩ <;> exact h
    obtain ⟨rfl, hle, hmod⟩ := hcsr
    refine ⟨fun _ _ => ?_, fun r hr => ?_⟩
    · rw [step_operation hb (hp ▸ hd)]
      exact exec_next i _
    · rw [admit_csr hle, admitWord_b32 hmod] at hr
      cases hr
  | error e =>
    rw [step_access (.inl hb) hp hd]
    rcases hev with rfl | ⟨v, rfl⟩
    · exact ⟨fun _ ht => ⟨_, access_read_ok ht⟩, fun _ hr => access_read_error hr⟩
    · exact ⟨fun _ ht => ⟨_, access_write_ok ht⟩, fun _ hr => access_write_error hr⟩

/-- What a step makes of an access to a window of words: CSR or OUT (R68). -/
theorem step_of_admitWord {target : Target} (hb : s.busy = false) (hp : s.pending = ev :: rest)
    (hev : ev = .read width addr ∨ ∃ v, ev = .write width addr v)
    (hw : admitAccess width addr = admitWord width addr target) :
    (width ≠ .b32 → step s = .refused (.accessWidth width addr)) ∧
    (width = .b32 → addr.toNat % 4 ≠ 0 → step s = .refused (.misaligned addr)) ∧
    (width = .b32 → addr.toNat % 4 = 0 → ∃ t, step s = .next t) := by
  obtain ⟨hok, herror⟩ := step_of_admitAccess hb hp hev
  refine ⟨fun hwidth => herror _ (hw.trans (admitWord_width hwidth)), ?_, ?_⟩
  · rintro rfl hmod
    exact herror _ (hw.trans (admitWord_misaligned hmod))
  · rintro rfl hmod
    exact hok _ (hw.trans (admitWord_b32 hmod))

end Admission

/-- Settles O6, window by window. -/
theorem protocolViolationsAreRefusedByName : Obligations.ProtocolViolationsAreRefusedByName := by
  intro s ev rest width addr hb hp hev
  obtain ⟨hok, herror⟩ := step_of_admitAccess hb hp hev
  refine ⟨fun hcsr => ?_, fun hpin => ⟨fun hwidth => ?_, ?_⟩, fun hout => ?_, fun hnone => ?_⟩
  · exact step_of_admitWord hb hp hev (admit_csr hcsr)
  · exact herror _ ((admit_pin hpin).trans (if_pos hwidth))
  · rintro rfl
    exact hok _ ((admit_pin hpin).trans (if_neg (not_not.mpr rfl)))
  · exact step_of_admitWord hb hp hev (admit_out (by omega))
  · exact herror _ (admit_outside (by omega))

/-! ### Accesses to PIN and OUT -/

/-- Above the CSR window no address is a register's (R60). -/
theorem ne_csrAddr_of_le {a : Word} (h : 0x1000 ≤ a.toNat) (c : Csr) : a ≠ c.addr := by
  rintro rfl
  have := c.offset_le
  rw [c.addr_toNat] at h
  omega

/-- The word at an address is the same where its four bytes are. -/
theorem wordAt_congr {s t : State} {b : Nat} (h : ∀ i, i < 4 → t.byteAt P (b + i) = s.byteAt P (b + i)) :
    t.wordAt P b = s.wordAt P b := by
  have h0 := h 0 (by omega)
  rw [Nat.add_zero] at h0
  simp only [State.wordAt, h0, h 1 (by omega), h 2 (by omega), h 3 (by omega)]

/-- A store leaves the words outside it. -/
theorem wordAt_storeBytes_outside {s : State} {a b : Nat} {vs : List Byte} (h : b + 4 ≤ a ∨ a + vs.length ≤ b) :
    (s.storeBytes P a vs).wordAt P b = s.wordAt P b :=
  wordAt_congr fun _ _ => byteAt_storeBytes_outside (by omega)

/-- A byte of a data word, widened again (log entry 26). -/
theorem setWidth_extract_byte (v : Word) : (v.setWidth 8).setWidth 32 = v &&& 0xFF#32 := by
  apply BitVec.eq_of_getLsbD_eq
  intro i hi
  simp only [BitVec.getLsbD_and, BitVec.getLsbD_setWidth]
  interval_cases i <;> simp

section Pin

variable {s : State} {j : Nat} {rest : List HostEvent}

theorem pinAddr_toNat (hj : j ≤ 65535) : (BitVec.ofNat 32 (0x10000 + j)).toNat = 0x10000 + j := by
  rw [BitVec.toNat_ofNat]; omega

theorem admit_pinAddr (hj : j ≤ 65535) : admitAccess .b8 (BitVec.ofNat 32 (0x10000 + j)) = .ok (.pin j) := by
  rw [admit_pin (by rw [pinAddr_toNat hj]; omega), pinAddr_toNat hj, Nat.add_sub_cancel_left]
  rfl

theorem pinAddr_ne_csrAddr (hj : j ≤ 65535) (c : Csr) : BitVec.ofNat 32 (0x10000 + j) ≠ c.addr :=
  ne_csrAddr_of_le (by rw [pinAddr_toNat hj]; omega) c

/-- A read of a PIN byte returns the byte `b` it holds and changes nothing (R62, R69). -/
theorem step_pinRead {b : Byte} (hb : s.busy = false) (hj : j ≤ 65535)
    (hp : s.pending = .read .b8 (BitVec.ofNat 32 (0x10000 + j)) :: rest) (hpin : s.pin Config.params j = b) :
    step s = .next { s with pending := rest, responses := s.responses ++ [b.setWidth 32] } :=
  hpin ▸ step_read hb hp (pinAddr_ne_csrAddr hj _) (fun r => pinAddr_ne_csrAddr hj r.csr) (admit_pinAddr hj)

theorem step_pinWrite {v : Word} (hb : s.busy = false) (hj : j ≤ 65535)
    (hp : s.pending = .write .b8 (BitVec.ofNat 32 (0x10000 + j)) v :: rest) :
    step s = .next ({ s with pending := rest }.storeBytes Config.params (0x10000 + j) [v.extractLsb' 0 8]) :=
  step_write hb hp (pinAddr_ne_csrAddr hj _) (admit_pinAddr hj)

theorem pin_storeBytes {b : Byte} (h : MemCanonical P s) : (s.storeBytes P (0x10000 + j) [b]).pin P j = b :=
  byteAt_storeBytes_inside (i := 0) (vs := [b]) h Nat.zero_lt_one

end Pin

/-- Settles O12: the step of a read, the step of a write, and the byte the store leaves. -/
theorem pinByteReadsBack : Obligations.PinByteReadsBack := by
  rintro s rest j addr hb hj rfl
  refine ⟨fun hp => step_pinRead hb hj hp rfl, fun v hcanon hp => ?_⟩
  have hpin := pin_storeBytes (s := { s with pending := rest }) (j := j) (b := v.extractLsb' 0 8) hcanon
  rw [← BitVec.setWidth_eq_extractLsb' (by omega)] at hpin
  refine ⟨_, step_pinWrite hb hj hp, rfl, hpin, fun a ha => ?_, ?_⟩
  · exact byteAt_storeBytes_outside (by simp only [List.length_singleton]; omega)
  · rintro rest' rfl
    rw [← setWidth_extract_byte]
    exact step_pinRead hb hj rfl hpin

section Out

variable {s : State} {a : Nat} {rest : List HostEvent}

theorem outAddr_toNat (ha : a < 0x1800000) : (BitVec.ofNat 32 a).toNat = a := by
  rw [BitVec.toNat_ofNat]; omega

theorem admit_outAddr (ha : 0x1000000 ≤ a ∧ a < 0x1800000) (hmod : a % 4 = 0) :
    admitAccess .b32 (BitVec.ofNat 32 a) = .ok (.out a) := by
  have e := outAddr_toNat ha.2
  rw [admit_out (by rwa [e]), admitWord_b32 (by rwa [e]), e]

theorem outAddr_ne_csrAddr (ha : 0x1000000 ≤ a ∧ a < 0x1800000) (c : Csr) : BitVec.ofNat 32 a ≠ c.addr :=
  ne_csrAddr_of_le (by rw [outAddr_toNat ha.2]; omega) c

/-- A read of an OUT word returns the word `v` it holds and changes nothing (R63, R69). -/
theorem step_outRead {v : Word} (hb : s.busy = false) (ha : 0x1000000 ≤ a ∧ a < 0x1800000) (hmod : a % 4 = 0)
    (hp : s.pending = .read .b32 (BitVec.ofNat 32 a) :: rest) (hword : s.wordAt Config.params a = v) :
    step s = .next { s with pending := rest, responses := s.responses ++ [v] } :=
  hword ▸ step_read hb hp (outAddr_ne_csrAddr ha _) (fun r => outAddr_ne_csrAddr ha r.csr) (admit_outAddr ha hmod)

theorem step_outWrite {v : Word} (hb : s.busy = false) (ha : 0x1000000 ≤ a ∧ a < 0x1800000) (hmod : a % 4 = 0)
    (hp : s.pending = .write .b32 (BitVec.ofNat 32 a) v :: rest) :
    step s = .next ({ s with pending := rest }.storeBytes Config.params a (wordBytes v)) :=
  step_write hb hp (outAddr_ne_csrAddr ha _) (admit_outAddr ha hmod)

end Out

/-- The host address of a half of OUT[k] (R63). -/
def outHalf (k : Nat) (imaginary : Bool) : Nat := 0x01000000 + 8 * k + if imaginary then 4 else 0

theorem outHalf_bounds {k : Nat} (hk : k < 1048576) (imaginary : Bool) :
    (0x1000000 ≤ outHalf k imaginary ∧ outHalf k imaginary < 0x1800000) ∧ outHalf k imaginary % 4 = 0 := by
  unfold outHalf
  cases imaginary <;> simp only [Bool.false_eq_true, if_true, if_false] <;> omega

theorem wordAt_outHalf (s : State) (k : Nat) (imaginary : Bool) :
    s.wordAt P (outHalf k imaginary) = if imaginary then (s.out P k).im else (s.out P k).re := by
  cases imaginary <;> rfl

/-- A word stored in one half of OUT[k] leaves the other half (R63). -/
theorem out_storeBytes_outHalf {s : State} {k : Nat} {v : Word} (h : MemCanonical P s) (imaginary : Bool) :
    (s.storeBytes P (outHalf k imaginary) (wordBytes v)).out P k
      = if imaginary then ⟨(s.out P k).re, v⟩ else ⟨v, (s.out P k).im⟩ := by
  cases imaginary with
  | false => exact congrArg₂ Sample.mk (wordAt_storeBytes h) (wordAt_storeBytes_outside (.inr le_rfl))
  | true => exact congrArg₂ Sample.mk (wordAt_storeBytes_outside (.inl le_rfl)) (wordAt_storeBytes h)

/-- Settles O13: the step of a read, the step of a write, and the sample the store leaves. -/
theorem outWordReadsBack : Obligations.OutWordReadsBack := by
  rintro s rest k imaginary a hb hk ha
  obtain rfl : a = outHalf k imaginary := ha
  obtain ⟨hwin, hmod⟩ := outHalf_bounds hk imaginary
  refine ⟨fun hp => step_outRead hb hwin hmod hp (wordAt_outHalf s k imaginary), fun v hcanon hp => ?_⟩
  have hword := wordAt_storeBytes (s := { s with pending := rest }) (a := outHalf k imaginary) (w := v) hcanon
  refine ⟨_, step_outWrite hb hwin hmod hp, rfl, out_storeBytes_outHalf hcanon imaginary, fun b hb' => ?_, ?_⟩
  · exact byteAt_storeBytes_outside hb'
  · rintro rest' rfl
    exact step_outRead hb hwin hmod rfl hword

/-! ### The operations and the windows -/

/-- CREATE writes no byte of the windows (R123). -/
theorem create_mem (staged : Bool) (s : State) :
    (create P staged s).mem = s.mem ∧ (create P staged s).memDraw = s.memDraw := by
  rcases create_cases (P := P) staged s with ⟨-, e⟩ | ⟨-, -, e⟩ | ⟨-, -, -, e⟩ | ⟨-, -, -, e⟩
  · simp [e]
  · simp [e]
  · simp [e]
  · rw [e, created_eq]
    exact ⟨rfl, rfl⟩

/-- SETCFG writes no byte of the windows (R124). -/
theorem setcfg_mem (s : State) : (setcfg P s).mem = s.mem ∧ (setcfg P s).memDraw = s.memDraw := by
  rcases setcfg_cases (P := P) s with ⟨-, e⟩ | ⟨-, -, e⟩ | ⟨-, -, -, e⟩ | ⟨-, -, -, e⟩
  · simp [e]
  · simp [e]
  · simp [e]
  · rw [e, reconfigured_eq]
    exact ⟨rfl, rfl⟩

/-- DESTROY writes no byte of the windows (R137). -/
theorem destroy_mem (s : State) : (destroy P s).mem = s.mem ∧ (destroy P s).memDraw = s.memDraw := by
  rcases destroy_cases (P := P) s with ⟨-, e⟩ | ⟨-, -, e⟩ | ⟨-, -, e⟩
  · simp [e]
  · simp [e]
  · rw [e]
    exact ⟨rfl, rfl⟩

/-- No operation but EXEC writes a byte of the windows (R295). -/
theorem exec_mem {i : Instr} {s t : State} (h : exec i s = .next t) (hi : i ≠ .exec) :
    t.mem = s.mem ∧ t.memDraw = s.memDraw := by
  cases i <;> cases h
  case create staged => exact create_mem staged s
  case setcfg => exact setcfg_mem s
  case exec => exact absurd rfl hi
  case destroy => exact destroy_mem s
  case getcfg order => exact ⟨rfl, rfl⟩
  case framelen => exact ⟨rfl, rfl⟩
  case reserved w => exact ⟨rfl, rfl⟩

/-- EXEC_END writes no byte of the windows (R136). -/
theorem execEnd_mem (s : State) : (execEnd s).mem = s.mem ∧ (execEnd s).memDraw = s.memDraw := by
  rw [execEnd_frame]
  exact ⟨rfl, rfl⟩

/-- EXEC writes no byte below the OUT window (R62, R129). -/
theorem byteAt_runFrame_below_out {s : State} {a : Nat} (ha : a < Config.outBase) :
    (runFrame P s).byteAt P a = s.byteAt P a := by
  rcases runFrame_cases (P := P) s with ⟨-, e⟩ | ⟨-, -, e⟩ | ⟨-, -, -, e⟩ | ⟨-, -, -, e⟩
  · exact e ▸ byteAt_congr rfl rfl a
  · exact e ▸ byteAt_congr rfl rfl a
  · exact e ▸ byteAt_congr rfl rfl a
  · obtain ⟨hmem, hdraw⟩ := execEnd_mem (ran P s)
    exact (e ▸ byteAt_congr hmem hdraw a).trans ((ran_wrote s).outside a (.inl ha))

/-- Settles O45: EXEC writes to OUT alone, and every other operation keeps the bytes. -/
theorem onlyExecWritesTheWindows : Obligations.OnlyExecWritesTheWindows := by
  intro i s t h
  by_cases hi : i = .exec
  · subst hi
    cases h
    refine ⟨fun j hj => byteAt_runFrame_below_out ?_, fun hne => absurd rfl hne⟩
    simp only [Config.pinBase, Config.outBase]
    omega
  · obtain ⟨hmem, hdraw⟩ := exec_mem h hi
    exact ⟨fun j _ => byteAt_congr hmem hdraw _, fun _ a => byteAt_congr hmem hdraw a⟩

end Sys2Proof.Machine
end

section
/-! SUPPORT. The statements about the encoding (R92, R94, R96) and the lemmas about reading registers one by one. -/

namespace Sys2Proof

/-- Settles O3, by the decoder's equation for the encoding of each constructor. -/
theorem decodeOfEncodeIsTheOperation : Obligations.DecodeOfEncodeIsTheOperation := by
  intro i rest hwf
  exact decode_encode_append hwf rest

/-- Settles O4: a decoded list is a command write, a FRAMELEN read or the reads of a GETCFG, each an encoding. -/
theorem decodedOperationIsItsEncoding : Obligations.DecodedOperationIsItsEncoding := by
  intro evs i rest h
  rcases decode_ok_cases h with ⟨w, rfl, rfl⟩ | ⟨rfl, rfl⟩ | ⟨order, horder, rfl, rfl⟩
  · obtain ⟨henc, hwf⟩ := encode_decodeCommand w
    exact ⟨hwf, by rw [henc, List.singleton_append]⟩
  · exact ⟨rfl, rfl⟩
  · exact ⟨horder, rfl⟩

/-- Settles O2: each command word by computing its fields, every other word by the decoder's law for reserved words. -/
theorem exactlyFiveWordsDecodeToACommand : Obligations.ExactlyFiveWordsDecodeToACommand := by
  intro w
  refine ⟨?_, ?_, ?_, ?_, ?_, decodeCommand_of_not_mem⟩ <;> rintro rfl <;> decide

/-- Settles O1: the words are literals, so the decoder computes each clause. -/
theorem tableWordsDecode : Obligations.TableWordsDecode := by
  unfold Obligations.TableWordsDecode
  decide

end Sys2Proof

namespace Sys2Proof.Machine

variable {P : Params}

/-- A response changes no register. -/
@[simp] theorem csrRead_respond (s : State) (vs : List Word) (c : Csr) : csrRead (s.respond vs) c = csrRead s c := by
  cases c <;> rfl

theorem respond_respond (s : State) (vs ws : List Word) : (s.respond vs).respond ws = s.respond (vs ++ ws) := by
  simp [State.respond]

/-- The 32-bit read of a register is admitted, returns it and changes nothing else (R69). -/
theorem access_csrReadEvent (s : State) (c : Csr) :
    access P (csrReadEvent c) s = .next (s.respond [csrRead s c]) := by
  rw [csrReadEvent, access_read_ok (admit_csrAddr c), readTarget, csrReadAt_offset]

theorem getcfg_nil (s : State) : getcfg [] s = s := by simp [getcfg, State.respond]

/-- A GETCFG is its first read and then the GETCFG of the others, since a read changes no register (R96). -/
theorem getcfg_cons (r : CfgReg) (rs : List CfgReg) (s : State) :
    getcfg (r :: rs) s = getcfg rs (s.respond [csrRead s r.csr]) := by
  simp [getcfg, respond_respond]

/-- Settles O39, by induction on the list of registers: each access is a GETCFG's first read. -/
theorem getcfgIsItsReadsOneByOne : Obligations.GetcfgIsItsReadsOneByOne := by
  intro order
  induction order with
  | nil => exact fun s => congrArg Host.Outcome.next (getcfg_nil s).symm
  | cons r rs ih =>
    intro s
    dsimp only [List.foldl_cons]
    rw [access_csrReadEvent, ih]
    exact congrArg Host.Outcome.next (getcfg_cons r rs s).symm

end Sys2Proof.Machine
end

section
/-! SUPPORT. CREATE, SETCFG and DESTROY (R123, R124, R137), the two queries (R125, R126) and the geometry (R122): one
equation a path of each command, and the statements about them. -/

namespace Sys2Proof.Machine

variable {P : Params}

/-! ### Geometry -/

/-- nsym is the least count of depth-bit groups that covers the payload (R122, R222). -/
theorem nsymOf_le_iff {cfg : Cfg} (h : 1 ≤ cfg.depth.toNat) (m : Nat) :
    nsymOf cfg ≤ m ↔ 8 * cfg.payLen.toNat ≤ m * cfg.depth.toNat := by
  rw [nsymOf, Nat.div_le_iff_le_mul_add_pred (by omega), Nat.mul_comm cfg.depth.toNat m]
  omega

/-- Settles O54: the bounds of the four 16-bit fields, and nsym as a least count. -/
theorem geometryStaysInRange : Obligations.GeometryStaysInRange := by
  intro cfg h
  have hmin : 320 ≤ frameLenOf cfg := by unfold frameLenOf; omega
  exact ⟨nsymOf_lt cfg h, hmin, frameLenOf_le cfg h, (nsymOf_le_iff h _).mp le_rfl, fun m => (nsymOf_le_iff h m).mpr⟩

theorem payLen_setWidth_toNat (cfg : Cfg) : (cfg.payLen.setWidth 32).toNat = cfg.payLen.toNat := by
  have := cfg.payLen.isLt
  rw [BitVec.toNat_setWidth]; omega

theorem eq_payLen_setWidth_iff {w : Word} {cfg : Cfg} : w = cfg.payLen.setWidth 32 ↔ w.toNat = cfg.payLen.toNat := by
  rw [← BitVec.toNat_inj, payLen_setWidth_toNat]

theorem valid_eq_false_of_not {cfg : Cfg} (h : ¬ (1 ≤ cfg.depth.toNat ∧ P.modSupported cfg.scheme cfg.depth = true)) :
    valid P cfg = false := Bool.eq_false_iff.mpr fun hv => h ((valid_iff cfg).mp hv)

/-! ### CREATE -/

section Create

variable {staged : Bool} {s : State}

theorem create_of_fault (hf : s.fault = true) : create P staged s = raise .faulted s := by simp [create, hf]

theorem create_of_created (hf : s.fault = false) (hc : s.created = true) :
    create P staged s = raise .alreadyCreated s := by simp [create, hf, hc]

theorem create_of_invalid (hf : s.fault = false) (hc : s.created = false)
    (hv : valid P (createOperand P staged s) = false) : create P staged s = raise .configError s := by
  simp [create, hf, hc, hv]

theorem create_of_valid (hf : s.fault = false) (hc : s.created = false)
    (hv : valid P (createOperand P staged s) = true) :
    create P staged s = created P (createOperand P staged s) s := by simp [create, created, hf, hc, hv]

end Create

/-- A successful CREATE counts its reallocations: one of PAY_BUF, and PAY_SYM and PAY_SMP together (R123, R241). -/
theorem created_resizeCnt_eq (cfg : Cfg) (s : State) :
    (created P cfg s).resizeCnt.toNat = (if P.minAlloc.toNat = cfg.payLen.toNat then 0 else 1)
      + (if P.minAlloc = (created P cfg s).geoNsym then 0 else 2) := by
  have hgeo : (created P cfg s).geoNsym = BitVec.ofNat 32 (nsymOf cfg) := by rw [created_eq]
  rw [created_resizeCnt_toNat, hgeo]
  simp only [eq_payLen_setWidth_iff]
  split <;> split <;> rfl

/-- Settles O18: each path by CREATE's equation for it, what it builds by `created_eq`. -/
theorem createBuildsTheInstance : Obligations.CreateBuildsTheInstance := by
  intro staged s cfg hcfg
  obtain rfl : cfg = createOperand Config.params staged s := hcfg
  refine ⟨fun hf => congrArg Host.Outcome.next (create_of_fault hf),
    fun hf hc => congrArg Host.Outcome.next (create_of_created hf hc),
    fun hf hc hv => congrArg Host.Outcome.next (create_of_invalid hf hc (valid_eq_false_of_not hv)),
    fun hf hc hd hm => ⟨_, congrArg Host.Outcome.next (create_of_valid hf hc ((valid_iff _).mpr ⟨hd, hm⟩)), ?_⟩⟩
  generalize createOperand Config.params staged s = cfg at hd ⊢
  have hresize := created_resizeCnt_eq (P := Config.params) cfg s
  rw [created_eq] at hresize ⊢
  exact ⟨rfl, rfl, rfl, rfl, geoNsym_toNat cfg hd, geoFrameLen_toNat cfg hd, payLen_setWidth_toNat cfg, rfl, rfl,
    hresize, pnBits_eq_map _ _ _, rfl, rfl⟩

/-- DEFAULT_CFG has no payload symbols and a frame of 368 samples (R120, R122). -/
theorem geometry_default : nsymOf (Cfg.default P) = 0 ∧ frameLenOf (Cfg.default P) = 368 := by
  have hn : nsymOf (Cfg.default P) = 0 := nsymOf_empty _ le_rfl rfl
  exact ⟨hn, by rw [frameLenOf, hn]; rfl⟩

/-- Settles O19: DEFAULT_CFG is valid, and its geometry is that of an empty payload. -/
theorem defaultCreateSucceeds : Obligations.DefaultCreateSucceeds := by
  intro s hf hc
  refine ⟨created Config.params (Cfg.default Config.params) s,
    congrArg Host.Outcome.next (create_of_valid hf hc valid_default), ?_⟩
  obtain ⟨hn, hlen⟩ := geometry_default (P := Config.params)
  have hresize := created_resizeCnt_toNat (P := Config.params) (Cfg.default Config.params) s
  rw [created_eq]
  rw [hn] at hresize ⊢
  rw [hlen]
  refine ⟨rfl, rfl, rfl, rfl, rfl, rfl, rfl, BitVec.eq_of_toNat_eq (hresize.trans ?_)⟩
  change ((if Config.params.minAlloc = 0#32 then 0 else 1) + (if Config.params.minAlloc = 0#32 then 0 else 1)
    + (if Config.params.minAlloc = 0#32 then 0 else 1)) % 2 ^ 32 = _
  split <;> rfl

/-! ### SETCFG -/

section Setcfg

variable {s : State}

theorem setcfg_of_fault (hf : s.fault = true) : setcfg P s = raise .faulted s := by simp [setcfg, hf]

theorem setcfg_of_not_created (hf : s.fault = false) (hc : s.created = false) :
    setcfg P s = raise .notCreated s := by simp [setcfg, hf, hc]

theorem setcfg_of_invalid (hf : s.fault = false) (hc : s.created = true) (hv : valid P s.staged = false) :
    setcfg P s = raise .configError s := by simp [setcfg, hf, hc, hv]

theorem setcfg_of_valid (hf : s.fault = false) (hc : s.created = true) (hv : valid P s.staged = true) :
    setcfg P s = raise .ok (ensureCapacity (applyCfg s.staged s)) := by simp [setcfg, hf, hc, hv]

end Setcfg

/-- Settles O20: each path by SETCFG's equation for it, the configuration installed by `reconfigured_eq`. -/
theorem setcfgReplacesTheConfiguration : Obligations.SetcfgReplacesTheConfiguration := by
  intro s
  refine ⟨fun hf => congrArg Host.Outcome.next (setcfg_of_fault hf),
    fun hf hc => congrArg Host.Outcome.next (setcfg_of_not_created hf hc),
    fun hf hc hv => congrArg Host.Outcome.next (setcfg_of_invalid hf hc (valid_eq_false_of_not hv)),
    fun hf hc hd hm => ⟨_, congrArg Host.Outcome.next (setcfg_of_valid hf hc ((valid_iff _).mpr ⟨hd, hm⟩)), ?_⟩⟩
  have hresize := ensureCapacity_resizeCnt_toNat (applyCfg s.staged s)
  rw [reconfigured_eq] at hresize ⊢
  exact ⟨rfl, rfl, rfl, geoNsym_toNat _ hd, geoFrameLen_toNat _ hd, payLen_setWidth_toNat _, rfl, rfl, hresize, rfl⟩

/-! ### DESTROY -/

section Destroy

variable {s : State}

theorem destroy_of_fault (hf : s.fault = true) : destroy P s = raise .faulted s := by simp [destroy, hf]

theorem destroy_of_not_created (hf : s.fault = false) (hc : s.created = false) :
    destroy P s = raise .notCreated s := by simp [destroy, hf, hc]

theorem destroy_of_created (hf : s.fault = false) (hc : s.created = true) : destroy P s = destroyed P s := by
  simp [destroy, destroyed, hf, hc]

end Destroy

/-- Settles O23: each path by DESTROY's equation for it. -/
theorem destroyReleasesTheInstance : Obligations.DestroyReleasesTheInstance := by
  intro s
  exact ⟨fun hf => congrArg Host.Outcome.next (destroy_of_fault hf),
    fun hf hc => congrArg Host.Outcome.next (destroy_of_not_created hf hc),
    fun hf hc => ⟨_, congrArg Host.Outcome.next (destroy_of_created hf hc), rfl, rfl, rfl, rfl, rfl, rfl, rfl, rfl,
      rfl, rfl, rfl, rfl⟩⟩

/-! ### Queries -/

/-- Settles O38, register by register: each is returned as the host reads it alone. -/
theorem getcfgReturnsTheLiveConfiguration : Obligations.GetcfgReturnsTheLiveConfiguration := by
  intro order s _ _
  refine congrArg (fun vs => Host.Outcome.next (s.respond vs)) (List.map_congr_left fun r _ => ?_)
  cases r
  case mod => exact modByte_setWidth s.live
  all_goals rfl

/-- Settles O40: FRAMELEN is the response of GEO_FRAMELEN. -/
theorem framelenReturnsTheFrameLength : Obligations.FramelenReturnsTheFrameLength := fun _ => rfl

end Sys2Proof.Machine
end

section
/-! SUPPORT. EXEC (R127-R136, R138, R139): one equation a path, the state a successful EXEC leaves, its samples segment by
segment, and the statements about them. -/

namespace Sys2Proof.Machine

variable {P : Params}

/-! ### The paths of EXEC -/

section Paths

variable {s : State}

theorem runFrame_of_fault (hf : s.fault = true) : runFrame P s = raise .faulted s := by simp [runFrame, hf]

theorem runFrame_of_not_created (hf : s.fault = false) (hc : s.created = false) :
    runFrame P s = raise .notCreated s := by simp [runFrame, hf, hc]

theorem runFrame_of_too_small (hf : s.fault = false) (hc : s.created = true)
    (hcap : s.outCap.toNat < s.geoFrameLen.toNat) : runFrame P s = raise .capacityError s := by
  simp [runFrame, hf, hc, hcap]

theorem runFrame_of_checked (hf : s.fault = false) (hc : s.created = true)
    (hcap : s.geoFrameLen.toNat ≤ s.outCap.toNat) : runFrame P s = execEnd (ran P s) := by
  simp [runFrame, ran, hf, hc, Nat.not_lt.mpr hcap]

end Paths

theorem execEnd_lastErr (s : State) : (execEnd s).lastErr = .ok ∨ (execEnd s).lastErr = .internalFault := by
  by_cases h : s.n = s.geoFrameLen.toNat
  · exact .inl (by rw [execEnd_of_eq h])
  · exact .inr (by rw [execEnd_of_ne h])

/-- Settles O24: each path by EXEC's equation for it. -/
theorem execChecksInOrder : Obligations.ExecChecksInOrder := by
  intro s
  exact ⟨fun hf => congrArg Host.Outcome.next (runFrame_of_fault hf),
    fun hf hc => congrArg Host.Outcome.next (runFrame_of_not_created hf hc),
    fun hf hc hcap => congrArg Host.Outcome.next (runFrame_of_too_small hf hc hcap),
    fun hf hc hcap => ⟨_, congrArg Host.Outcome.next (runFrame_of_checked hf hc hcap), execEnd_lastErr _⟩⟩

/-- Settles O26: EXEC_END compares the number of samples emitted with GEO_FRAMELEN. -/
theorem execEndChecksTheCount : Obligations.ExecEndChecksTheCount := by
  intro s count hf hc hcap hcount
  have hn : (ran Config.params s).n = count := by rw [ran_n, framed_length, hcount]
  obtain ⟨-, hfault, -, -, -, -, hlen, hexp, hcnt, -⟩ := ran_fields (P := Config.params) s
  refine ⟨_, congrArg Host.Outcome.next (runFrame_of_checked hf hc hcap), ?_, fun heq => ?_, fun hne => ?_⟩
  · rw [execEnd_frame, hn]
  · rw [execEnd_of_eq (by rw [hn, hlen, heq])]
    exact ⟨rfl, hfault.trans hf, hexp, hcnt⟩
  · rw [execEnd_of_ne (by rw [hn, hlen]; exact hne), hn, hlen]
    exact ⟨rfl, rfl, rfl, rfl⟩

/-- Settles O49: EXEC keeps the invariant, which excludes INTERNAL_FAULT. -/
theorem internalFaultNeverFires : Obligations.InternalFaultNeverFires := by
  intro s t h ht
  obtain ⟨hfault, herr, -⟩ := (h.exec ht).noFault
  exact ⟨herr, hfault⟩

/-! ### The state a successful EXEC leaves -/

/-- What an EXEC that executes normally leaves (R127-R136). -/
def executed (P : Params) (s : State) : State := { ran P s with outCount := s.geoFrameLen, lastErr := .ok }

theorem exec_of_ready {s : State} (h : ExecReady s) : exec .exec s = .next (executed Config.params s) :=
  congrArg Host.Outcome.next (runFrame_of_ready h)

@[simp] theorem executed_out (s : State) (k : Nat) : (executed P s).out P k = (ran P s).out P k := out_congr rfl rfl k

@[simp] theorem executed_byteAt (s : State) (a : Nat) : (executed P s).byteAt P a = (ran P s).byteAt P a :=
  byteAt_congr rfl rfl a

/-- The frame has GEO_FRAMELEN samples (R129, R136). -/
theorem framed_length_of_geometry {s : State} (h : GeometryMatches s) :
    (framed P s).length = s.geoFrameLen.toNat := (ran_n s).symm.trans (ran_n_of_geometry h)

/-- EXEC leaves every byte outside OUT[0..GEO_FRAMELEN-1] (R62, R129, R295). -/
theorem executed_byteAt_outside {s : State} (h : GeometryMatches s) {a : Nat}
    (ha : a < Config.outBase ∨ Config.outBase + 8 * s.geoFrameLen.toNat ≤ a) :
    (executed P s).byteAt P a = s.byteAt P a := by
  rw [executed_byteAt]
  exact (ran_wrote s).outside a (by rwa [framed_length_of_geometry h])

/-- The ramp-down's divisor is 0 when the register RD_DIV_SEL selects is (R135). -/
theorem rampDownDivisor_eq_zero {s : State} :
    rampDownDivisor s = 0 ↔ (if s.rdDivSel then s.live.rampDown else s.live.rampUp) = 0#16 := by
  unfold rampDownDivisor
  cases s.rdDivSel <;> exact BitVec.toNat_inj (y := 0#16)

/-- Settles O25: `ran_frame` says which fields EXEC_RUN writes. -/
theorem execCompletesWithItsFrame : Obligations.ExecCompletesWithItsFrame := by
  intro s h
  refine ⟨_, exec_of_ready h, ?_, fun a => executed_byteAt_outside h.geometry⟩
  simp only [← rampDownDivisor_eq_zero]
  have hn := ran_n_of_geometry (P := Config.params) h.geometry
  rw [executed, ran_frame, hn]

/-- Settles O34: the frame has GEO_FRAMELEN samples, and EXEC stores nothing else. -/
theorem execLeavesEveryOtherByte : Obligations.ExecLeavesEveryOtherByte := by
  intro s h _
  exact ⟨_, exec_of_ready h, fun a => executed_byteAt_outside h.geometry⟩

/-! ### The samples of a successful EXEC -/

section Samples

variable {s : State}

/-- The product of sgn(k) and 1.0 (R11, R131). -/
theorem signTimes_sgn_one (k : Nat) :
    signTimes P (sgnNegative P k) f32One = if decide (k % 2 = 0) == P.evenNegative then f32NegOne else f32One := by
  rw [sgnNegative_eq, signTimes_one]

theorem executed_out_rampUp (hs : MemCanonical P s) {i : Nat} (hi : i < s.live.rampUp.toNat) :
    IsSignTimes P i (P.envUp i s.live.rampUp.toNat) ((executed P s).out P i).re ∧
      ((executed P s).out P i).im = f32Zero := by
  rw [executed_out, ran_out_rampUp hs hi]
  exact ⟨isSignTimes_signTimes _ _, rfl⟩

theorem executed_out_phasing (hs : MemCanonical P s) {j : Nat} (hj : j < s.live.phasing.toNat) :
    (executed P s).out P (s.live.rampUp.toNat + j)
      = ⟨if decide ((s.live.rampUp.toNat + j) % 2 = 0) == P.evenNegative then f32NegOne else f32One, f32Zero⟩ := by
  rw [executed_out, ran_out_phasing hs hj, signTimes_sgn_one]

theorem executed_out_rampDown (hs : MemCanonical P s) {i : Nat} (hi : i < s.live.rampDown.toNat) :
    IsSignTimes P i (if rampDownDivisor s = 0 then P.drawF32 s.draws i else P.envDn i (rampDownDivisor s))
        ((executed P s).out P (s.live.rampUp.toNat + s.live.phasing.toNat + 320 + s.geoNsym.toNat + i)).re ∧
      ((executed P s).out P (s.live.rampUp.toNat + s.live.phasing.toNat + 320 + s.geoNsym.toNat + i)).im
        = f32Zero := by
  rw [executed_out, ran_out_rampDown hs hi]
  exact ⟨isSignTimes_signTimes _ _, rfl⟩

end Samples

/-- Settles O27, from the samples of the first segment. -/
theorem execWritesTheRampUp : Obligations.ExecWritesTheRampUp := by
  intro s h hs
  exact ⟨_, exec_of_ready h, fun _ => executed_out_rampUp hs⟩

/-- Settles O28, from the samples of the second segment. -/
theorem execWritesThePhasing : Obligations.ExecWritesThePhasing := by
  intro s h hs
  exact ⟨_, exec_of_ready h, fun _ => executed_out_phasing hs⟩

/-- Settles O33, from the samples of the last segment; the statement's divisor is `rampDownDivisor`. -/
theorem execWritesTheRampDown : Obligations.ExecWritesTheRampDown := by
  rintro s d h hs hd
  obtain rfl : d = rampDownDivisor s := hd
  exact ⟨_, exec_of_ready h, fun _ => executed_out_rampDown hs⟩

/-- Settles O36: without payload symbols the ramp-down follows the header. -/
theorem execWithEmptyPayload : Obligations.ExecWithEmptyPayload := by
  rintro s d count h hdepth hpay hd hcount
  obtain rfl : d = rampDownDivisor s := hd
  have hnsym : s.geoNsym.toNat = 0 := h.geometry.1.trans (nsymOf_empty s.live hdepth hpay)
  have hlen : s.geoFrameLen.toNat = count := by
    rw [h.geometry.2, frameLenOf, nsymOf_empty s.live hdepth hpay, hcount]
  have hgeo : (executed Config.params s).geoNsym = s.geoNsym := by rw [executed, ran_frame]
  refine ⟨_, exec_of_ready h, rfl, hgeo.trans (BitVec.eq_of_toNat_eq hnsym), hlen,
    fun a ha => executed_byteAt_outside h.geometry (hlen ▸ ha), fun hs => ⟨fun _ => executed_out_rampUp hs,
      fun _ => executed_out_phasing hs, fun k hk => ?_, fun p hp => ?_, fun i hi => ?_⟩⟩
  · rw [executed_out]
    exact ran_out_sync hs hk
  · rw [executed_out]
    exact ran_out_header hs hp
  · have hdown := executed_out_rampDown hs hi
    rwa [hnsym] at hdown

/-! ### What the samples depend on (R139) -/

/-- The eleven bytes HDR_CHECKSUM covers, as EXEC_CAPTURE and HDR_ASSEMBLE make them (R128, R190). -/
theorem hdrAssemble_capture_take (s : State) :
    (hdrAssemble (execCapture P s)).hdrRaw.take 11
      = userBytes s ++ [s.live.payLen.extractLsb' 8 8, s.live.payLen.extractLsb' 0 8, modByte s.live] := rfl

/-- The encoded header depends on the user bytes and the live configuration, and not on what HDR_RAW held (R190-R195). -/
theorem hdrEncode_capture_congr {s t : State} (hu : userBytes s = userBytes t) (hl : s.live = t.live) :
    (hdrEncode P (execCapture P s)).hdrEnc = (hdrEncode P (execCapture P t)).hdrEnc := by
  simp only [hdrEncode, hdrInterleave, hdrFec, hdrScramble, hdrChecksum, hdrAssemble_capture_take, hu, hl]

theorem ran_headerSamples_congr {s t : State} (hu : userBytes s = userBytes t) (hl : s.live = t.live) :
    headerSamples (ran P s) = headerSamples (ran P t) := by
  refine headerSamples_congr ?_
  rw [ran, ran, execRun_hdrSym, execRun_hdrSym]
  exact hdrModulate_congr (hdrEncode_capture_congr hu hl)

/-- The payload segment by its symbols (R221, R223, R224). -/
theorem ran_payloadSamples (s : State) :
    payloadSamples P (ran P s) = (List.range s.geoNsym.toNat).map fun k =>
      P.modMap s.modSel.scheme s.modSel.depth (symbolAt (s.pin P) s.live.payLen.toNat s.live.depth.toNat k) := by
  have hg : (ran P s).geoNsym = s.geoNsym := by rw [ran_frame]
  rw [payloadSamples, hg]
  exact List.map_congr_left fun k hk => ran_paySmp_get s (List.mem_range.mp hk)

theorem ran_payloadSamples_congr {s t : State} (hl : s.live = t.live) (hg : s.geoNsym = t.geoNsym)
    (hm : s.modSel = t.modSel) (hpin : ∀ j, j < s.live.payLen.toNat → s.pin P j = t.pin P j) :
    payloadSamples P (ran P s) = payloadSamples P (ran P t) := by
  rw [hl] at hpin
  simp only [ran_payloadSamples, symbolAt_congr hpin, hl, hg, hm]

/-- The ramp-down depends on the draws for a zero divisor alone (R135). -/
theorem rampDownSamples_congr_of_divisor {s t : State} (hl : s.live = t.live) (hc : s.rdDivSel = t.rdDivSel)
    (hd : rampDownDivisor s = 0 → s.draws = t.draws) : rampDownSamples P s = rampDownSamples P t := by
  have hdiv : rampDownDivisor s = rampDownDivisor t := by simp only [rampDownDivisor, hl, hc]
  have hamp : rampDownAmplitude P s = rampDownAmplitude P t := by
    funext i
    rw [rampDownAmplitude, rampDownAmplitude, ← hdiv]
    split
    · next h0 => rw [hd h0]
    · rfl
  simp only [rampDownSamples, hamp, hl]

/-- Settles O35: `framed_eq` lists the six segments, and each depends on the inputs alone. -/
theorem execOutputIsAFunctionOfItsInputs : Obligations.ExecOutputIsAFunctionOfItsInputs := by
  intro s s' h h' hs hs' hl hc h0 h1 hpn hm hpin hdraw
  have hnsym : s.geoNsym = s'.geoNsym := BitVec.eq_of_toNat_eq (by rw [h.geometry.1, h'.geometry.1, hl])
  have hlen : s.geoFrameLen = s'.geoFrameLen := BitVec.eq_of_toNat_eq (by rw [h.geometry.2, h'.geometry.2, hl])
  have hframe : framed Config.params s = framed Config.params s' := by
    rw [framed_eq, framed_eq, syncSamples_congr hpn,
      ran_headerSamples_congr (by rw [userBytes, userBytes, h0, h1]) hl, ran_payloadSamples_congr hl hnsym hm hpin,
      rampDownSamples_congr_of_divisor hl hc fun hzero => hdraw (rampDownDivisor_eq_zero.mp hzero), hl]
  refine ⟨_, _, exec_of_ready h, exec_of_ready h', hlen, fun k hk => ?_⟩
  have hk' : k < (framed Config.params s').length := by
    rwa [← hframe, framed_length_of_geometry h.geometry]
  have hsample := List.getElem?_eq_getElem hk'
  rw [executed_out, executed_out, ran_out hs' hsample]
  exact ran_out hs (by rw [hframe, hsample])

end Sys2Proof.Machine
end

section
/-! SUPPORT. The sync sequence (R170-R175): the register under the admitted taps runs through the 63 nonzero states,
whatever the seed, and what that says of the chips; the sync segment of the frame. -/

namespace Sys2Proof.Machine

open Function

variable {P : Params} {taps u v : BitVec 6}

/-! ### The register as an iteration -/

theorem pnState_eq_iterate (taps v : BitVec 6) (k : Nat) : pnState taps v k = (pnNext taps)^[k] v := by
  induction k with
  | zero => rfl
  | succ k ih => rw [pnState, ih, iterate_succ_apply']

/-- The zero state is the generator's fixed point: R170 asks for a nonzero seed because of it. -/
theorem isFixedPt_pnNext_zero (taps : BitVec 6) : IsFixedPt (pnNext taps) 0#6 := by
  simp [IsFixedPt, pnNext, pnBit, parity6]

/-- The bit an advance returns is the bit it shifts into the register (R171). -/
theorem pnBit_eq_getLsbD_pnNext (taps v : BitVec 6) : pnBit taps v = (pnNext taps v).getLsbD 0 := by
  simp [pnNext]

/-! ### Registers of period 63 -/

/-- The register first returns to its seed after 63 advances when 63 is the seed's minimal period. -/
theorem firstReturn_iff_minimalPeriod :
    (pnState taps v 63 = v ∧ ∀ k, 0 < k → k < 63 → pnState taps v k ≠ v) ↔ minimalPeriod (pnNext taps) v = 63 := by
  simp only [pnState_eq_iterate]
  constructor
  · rintro ⟨hret, hfirst⟩
    have hper : IsPeriodicPt (pnNext taps) 63 v := hret
    have hle := hper.minimalPeriod_le (by decide)
    have hpos := hper.minimalPeriod_pos (by decide)
    by_contra hne
    exact hfirst _ hpos (by omega) iterate_minimalPeriod
  · intro h
    exact ⟨h ▸ iterate_minimalPeriod,
      fun k hpos hlt => not_isPeriodicPt_of_pos_of_lt_minimalPeriod hpos.ne' (h.symm ▸ hlt)⟩

/-- The 63 states a nonzero register can be in. -/
def nonzeroStates : List (BitVec 6) := (List.range 63).map fun k => BitVec.ofNat 6 (k + 1)

theorem mem_nonzeroStates (hv : v ≠ 0#6) : v ∈ nonzeroStates := by
  have hpos : v.toNat ≠ 0 := fun h => hv (BitVec.eq_of_toNat_eq h)
  have hlt := v.isLt
  exact List.mem_map.mpr ⟨v.toNat - 1, List.mem_range.mpr (by omega), by
    rw [Nat.sub_add_cancel (by omega), BitVec.ofNat_toNat, BitVec.setWidth_eq]⟩

/-- The states the register runs through from v in 63 advances. -/
def orbit (taps v : BitVec 6) : List (BitVec 6) := (List.range 63).map (pnState taps v)

section Period

variable (h : minimalPeriod (pnNext taps) v = 63)
include h

theorem mem_periodicPts_of_minimalPeriod : v ∈ periodicPts (pnNext taps) :=
  minimalPeriod_pos_iff_mem_periodicPts.mp (by omega)

theorem minimalPeriod_pnState (k : Nat) : minimalPeriod (pnNext taps) (pnState taps v k) = 63 := by
  rw [pnState_eq_iterate, minimalPeriod_apply_iterate (mem_periodicPts_of_minimalPeriod h), h]

theorem ne_zero_of_minimalPeriod : v ≠ 0#6 := by
  rintro rfl
  rw [minimalPeriod_eq_one_iff_isFixedPt.mpr (isFixedPt_pnNext_zero taps)] at h
  cases h

theorem orbit_nodup : (orbit taps v).Nodup := by
  refine List.Nodup.map_on (fun i hi j hj hij => ?_) List.nodup_range
  rw [List.mem_range, ← h] at hi hj
  rw [pnState_eq_iterate, pnState_eq_iterate] at hij
  exact iterate_injOn_Iio_minimalPeriod hi hj hij

/-- A register of period 63 runs through every nonzero state: its 63 states are distinct, and none is zero. -/
theorem orbit_perm_nonzeroStates : (orbit taps v).Perm nonzeroStates := by
  have hsub : orbit taps v ⊆ nonzeroStates := fun u hu => by
    obtain ⟨k, -, rfl⟩ := List.mem_map.mp hu
    exact mem_nonzeroStates (ne_zero_of_minimalPeriod (minimalPeriod_pnState h k))
  exact (List.subperm_of_subset (orbit_nodup h) hsub).perm_of_length_le (by simp [orbit, nonzeroStates])

/-- All nonzero seeds lie on one cycle, so they share the period 63. -/
theorem minimalPeriod_of_ne_zero (hu : u ≠ 0#6) : minimalPeriod (pnNext taps) u = 63 := by
  obtain ⟨k, -, rfl⟩ := List.mem_map.mp ((orbit_perm_nonzeroStates h).mem_iff.mpr (mem_nonzeroStates hu))
  exact minimalPeriod_pnState h k

end Period

/-! ### The admitted tap masks -/

/-- The admitted masks are those under which seed 1 returns after 63 advances, and after neither 63 / 7 nor 63 / 3. -/
theorem mem_maximalTaps_iff_returns : ∀ taps : BitVec 6, taps ∈ maximalTaps ↔
    pnState taps 1#6 63 = 1#6 ∧ pnState taps 1#6 9 ≠ 1#6 ∧ pnState taps 1#6 21 ≠ 1#6 := by decide +kernel

theorem eq_sixtyThree_iff_dvd (m : Nat) : m = 63 ↔ m ∣ 63 ∧ ¬ m ∣ 9 ∧ ¬ m ∣ 21 := by
  have hdivisors : ∀ m ∈ Nat.divisors 63, ¬ m ∣ 9 → ¬ m ∣ 21 → m = 63 := by decide
  constructor
  · rintro rfl
    decide
  · rintro ⟨hdvd, h9, h21⟩
    exact hdivisors m (Nat.mem_divisors.mpr ⟨hdvd, by decide⟩) h9 h21

theorem mem_maximalTaps_iff_minimalPeriod : taps ∈ maximalTaps ↔ minimalPeriod (pnNext taps) 1#6 = 63 := by
  have hreturn (k : Nat) : pnState taps 1#6 k = 1#6 ↔ minimalPeriod (pnNext taps) 1#6 ∣ k := by
    rw [pnState_eq_iterate, ← isPeriodicPt_iff_minimalPeriod_dvd]; rfl
  rw [mem_maximalTaps_iff_returns, eq_sixtyThree_iff_dvd]
  simp only [ne_eq, hreturn]

/-- Settles O52: one nonzero seed has period 63 exactly when every nonzero seed has, so seed 1 decides. -/
theorem admittedTapsHavePeriodSixtyThree : Obligations.AdmittedTapsHavePeriodSixtyThree := by
  intro taps seed hseed
  rw [firstReturn_iff_minimalPeriod, mem_maximalTaps_iff_minimalPeriod]
  exact ⟨fun h => minimalPeriod_of_ne_zero h hseed, fun h => minimalPeriod_of_ne_zero h (by decide)⟩

/-! ### The chips -/

/-- The first 63 chips are the low bits of the 63 states after the seed. -/
theorem pnBits_take_eq_map_orbit (taps v : BitVec 6) :
    (pnBits taps v 64).take 63 = (orbit taps (pnNext taps v)).map (·.getLsbD 0) := by
  rw [pnBits_eq_map, ← List.map_take, List.take_range, orbit, List.map_map]
  refine List.map_congr_left fun k _ => ?_
  rw [comp_apply, ← pnState_succ, pnState, pnBit_eq_getLsbD_pnNext]

/-- Settles O51: the register is back at the seed for chip 63, and chips 0..62 are the low bits of the nonzero states in
some order. -/
theorem lastChipRepeatsTheFirst : Obligations.LastChipRepeatsTheFirst := by
  rintro P _ rfl
  have h : minimalPeriod (pnNext P.pnTaps) P.pnSeed = 63 :=
    minimalPeriod_of_ne_zero (mem_maximalTaps_iff_minimalPeriod.mp P.pnTaps_maximal) P.pnSeed_ne_zero
  obtain ⟨hreturn, -⟩ := firstReturn_iff_minimalPeriod.mpr h
  have hperm : ((pnBits P.pnTaps P.pnSeed 64).take 63).Perm (nonzeroStates.map (·.getLsbD 0)) :=
    pnBits_take_eq_map_orbit .. ▸ (orbit_perm_nonzeroStates (minimalPeriod_pnState h 1)).map _
  refine ⟨pnBits_length .., ?_, ?_, ?_⟩
  · rw [pnBits_eq_map]
    simp [hreturn, pnState]
  · rw [hperm.count_eq]
    decide
  · rw [hperm.count_eq]
    decide

/-- Settles O50: the listed chips and states, computed. -/
theorem defaultSequenceOfChips : Obligations.DefaultSequenceOfChips := by
  unfold Obligations.DefaultSequenceOfChips
  decide +kernel

/-! ### The sync segment -/

theorem executed_out_sync {s : State} (hs : MemCanonical P s) {k : Nat} (hk : k < 64) :
    (executed P s).out P (s.live.rampUp.toNat + s.live.phasing.toNat + k)
      = ⟨if s.pnSeq.getD k false then f32One else f32NegOne, f32Zero⟩ := by
  rw [executed_out, ran_out_sync hs hk, chipSample]

/-- Settles O29, from the samples of the third segment. -/
theorem execWritesTheSyncSequence : Obligations.ExecWritesTheSyncSequence := by
  intro s h hs
  exact ⟨_, exec_of_ready h, fun _ => executed_out_sync hs⟩

end Sys2Proof.Machine
end

section
/-! SUPPORT. The header codec (R190-R198): what each byte and symbol of the encoded header is, and the default checksum
and scrambler (R191, R192, R199). -/

namespace Sys2Proof.Machine

variable {P : Params}

/-! ### The interleaver -/

@[simp] theorem interleaveSource_val (j : Fin 32) : interleaveSource P j.val = (P.intlvPerm j).val := by
  simp [interleaveSource]

theorem hdrInterleave_length (s : State) : (hdrInterleave P s).hdrEnc.length = 32 := by simp [hdrInterleave]

/-- Output byte j of the interleaver is input byte INTLV_PERM(j) (R194). -/
theorem hdrInterleave_getD (s : State) (j : Fin 32) :
    (hdrInterleave P s).hdrEnc.getD j.val 0#8 = s.hdrEnc.getD (P.intlvPerm j).val 0#8 := by
  simp [hdrInterleave]

theorem ofFn_getD {bytes : List Byte} {n : Nat} (h : bytes.length = n) :
    (List.ofFn fun j : Fin n => bytes.getD j.val 0#8) = bytes := by
  subst h
  simp

/-- The interleaver only moves bytes: INTLV_PERM is a permutation of the 32 positions (R194). -/
theorem hdrInterleave_perm {s : State} (h : s.hdrEnc.length = 32) : (hdrInterleave P s).hdrEnc.Perm s.hdrEnc := by
  have hmoved := Equiv.Perm.ofFn_comp_perm P.intlvPerm fun j : Fin 32 => s.hdrEnc.getD j.val 0#8
  have hnew : ((fun j : Fin 32 => s.hdrEnc.getD j.val 0#8) ∘ P.intlvPerm)
      = fun j : Fin 32 => (hdrInterleave P s).hdrEnc.getD j.val 0#8 := funext fun j => (hdrInterleave_getD s j).symm
  rwa [hnew, ofFn_getD (hdrInterleave_length s), ofFn_getD h] at hmoved

/-- Settles O53: the interleaver reindexes the block by a permutation and writes no other field. -/
theorem interleaverPermutesTheBytes : Obligations.InterleaverPermutesTheBytes := by
  intro P s h
  exact ⟨hdrInterleave_perm h, hdrInterleave_getD s, rfl⟩

/-! ### The encoded header -/

/-- The modulation byte of a header: the scheme above the depth (R97). -/
theorem modByte_eq (cfg : Cfg) : modByte cfg = (cfg.scheme.setWidth 8 <<< 4) ||| cfg.depth.setWidth 8 := by
  simpa using congrArg (BitVec.setWidth 8) (modByte_setWidth cfg)

/-- The eleven assembled bytes of the header: the user's, the payload length and the modulation (R190). -/
def assembledBytes (s : State) : List Byte :=
  userBytes s ++ [s.live.payLen.extractLsb' 8 8, s.live.payLen.extractLsb' 0 8, modByte s.live]

/-- HDR_RAW after an EXEC: the assembled bytes and their checksum, scrambled (R190-R192). -/
theorem ran_hdrRaw (s : State) :
    (ran P s).hdrRaw = P.scramble (assembledBytes s ++ wordBytesBE (P.checksum32 (assembledBytes s))) := by
  rw [ran, execRun_hdrRaw]
  simp only [hdrEncode, hdrInterleave_hdrRaw, hdrFec_hdrRaw, hdrScramble, hdrChecksum, hdrAssemble_capture_take,
    assembledBytes]

/-- Byte k of the block HDR_FEC makes: the code up to FEC_N, the filler after it (R193). -/
theorem hdrFec_getD (s : State) (k : Fin 32) :
    (hdrFec P s).hdrEnc.getD k.val 0#8
      = if k.val < P.fecN then (P.fecEnc s.hdrRaw).getD k.val 0#8 else P.filler k.val := by
  simp [hdrFec]

/-- Byte j of HDR_ENC after an EXEC: byte INTLV_PERM(j) of the coded header and its filler (R193-R195). -/
theorem ran_hdrEnc_getD (s : State) (j : Fin 32) :
    (ran P s).hdrEnc.getD j.val 0#8
      = if (P.intlvPerm j).val < P.fecN then (P.fecEnc (ran P s).hdrRaw).getD (P.intlvPerm j).val 0#8
        else P.filler (P.intlvPerm j).val := by
  rw [ran, execRun_hdrEnc, execRun_hdrRaw, hdrEncode, hdrInterleave_getD, hdrFec_getD]
  rfl

theorem ran_hdrEnc_length (s : State) : (ran P s).hdrEnc.length = 32 := by
  rw [ran, execRun_hdrEnc, hdrEncode, hdrInterleave_length]

@[simp] theorem executed_hdrRaw (s : State) : (executed P s).hdrRaw = (ran P s).hdrRaw := rfl
@[simp] theorem executed_hdrEnc (s : State) : (executed P s).hdrEnc = (ran P s).hdrEnc := rfl
@[simp] theorem executed_hdrSym (s : State) : (executed P s).hdrSym = (ran P s).hdrSym := rfl

/-- Settles O30: HDR_RAW by the first three stages of the codec, each byte of HDR_ENC by the last two. -/
theorem execEncodesTheHeader : Obligations.ExecEncodesTheHeader := by
  intro s raw11 raw15 c h h11 hc h15
  have hassembled : assembledBytes s = raw11 := by
    simp only [h11, assembledBytes, userBytes, wordBytesBE, modByte_eq, List.cons_append, List.nil_append]
  have hraw : raw15 = assembledBytes s ++ wordBytesBE (Config.params.checksum32 (assembledBytes s)) := by
    rw [h15, hc, hassembled, wordBytesBE]
  refine ⟨_, exec_of_ready h, ?_⟩
  rw [executed_hdrRaw, executed_hdrEnc, hraw]
  exact ⟨ran_hdrRaw s, ran_hdrEnc_length s, ran_hdrEnc_getD s⟩

/-! ### The header segment -/

theorem ran_hdrSym (s : State) :
    (ran P s).hdrSym = (List.range 256).map fun p => P.hdrMap (bitMSB (fun j => (ran P s).hdrEnc.getD j 0#8) p) := by
  rw [ran, execRun_hdrSym, execRun_hdrEnc]
  rfl

/-- Settles O31: HDR_MODULATE maps the bits of HDR_ENC one by one, and the fourth segment of the frame is HDR_SYM. -/
theorem execWritesTheHeaderSymbols : Obligations.ExecWritesTheHeaderSymbols := by
  intro s h hs
  refine ⟨_, exec_of_ready h, by simp [ran_hdrSym], fun p hp => ⟨?_, ?_⟩⟩
  · simp [ran_hdrSym, hp, bitMSB]
  · rw [executed_out]
    exact ran_out_header hs hp

/-! ### The default checksum and scrambler -/

/-- Settles O55: the listed values, computed. -/
theorem defaultChecksumAndScramblerVectors : Obligations.DefaultChecksumAndScramblerVectors := by
  unfold Obligations.DefaultChecksumAndScramblerVectors
  decide +kernel

/-- The top bit of the register after a bit is the bit shifted out: the polynomial has its top bit set (R191). -/
theorem crc32Bit_msb (c : Word) : (crc32Bit c).getLsbD 31 = c.getLsbD 0 := by
  unfold crc32Bit
  cases c.getLsbD 0 <;> simp

/-- One bit of the CRC-32 register loses nothing: its top bit says what was shifted out. -/
theorem crc32Bit_injective : Function.Injective crc32Bit := by
  intro c d h
  have h0 : c.getLsbD 0 = d.getLsbD 0 := by rw [← crc32Bit_msb, h, crc32Bit_msb]
  have hshift : c >>> 1 = d >>> 1 := by
    unfold crc32Bit at h
    rw [h0] at h
    split at h
    · exact BitVec.xor_left_inj _ |>.mp h
    · exact h
  refine BitVec.eq_of_getLsbD_eq fun i _ => ?_
  cases i with
  | zero => exact h0
  | succ i => simpa [Nat.add_comm] using congrArg (·.getLsbD i) hshift

theorem repeat_injective {α : Type} {f : α → α} (hf : Function.Injective f) (k : Nat) :
    Function.Injective (Nat.repeat f k) := by
  induction k with
  | zero => exact Function.injective_id
  | succ k ih => exact hf.comp ih

/-- For a given byte, different registers stay different. -/
theorem crc32Byte_injective_register (b : Byte) : Function.Injective fun c => crc32Byte c b := fun _ _ h =>
  BitVec.xor_left_inj _ |>.mp (repeat_injective crc32Bit_injective 8 h)

/-- From a given register, different bytes leave different registers. -/
theorem crc32Byte_injective_byte (c : Word) : Function.Injective (crc32Byte c) := by
  intro b b' h
  have hwide : b.setWidth 32 = b'.setWidth 32 := BitVec.xor_right_inj _ |>.mp (repeat_injective crc32Bit_injective 8 h)
  simpa using congrArg (BitVec.setWidth 8) hwide

/-- Registers that differ before the same bytes differ after them. -/
theorem foldl_crc32Byte_injective (bytes : List Byte) : Function.Injective fun c => bytes.foldl crc32Byte c := by
  induction bytes with
  | nil => exact Function.injective_id
  | cons b bytes ih => exact ih.comp (crc32Byte_injective_register b)

/-- Settles O56: the register is the same before the byte, differs after it, and the bytes that follow keep the
difference. -/
theorem defaultChecksumSeesEverySingleByteChange : Obligations.DefaultChecksumSeesEverySingleByteChange := by
  intro before after b b' hne h
  have hfold := BitVec.xor_left_inj _ |>.mp h
  rw [List.foldl_append, List.foldl_append] at hfold
  exact hne (crc32Byte_injective_byte _ (foldl_crc32Byte_injective after hfold))

end Sys2Proof.Machine
end

section
/-! SUPPORT. The payload codec (R220-R225): the symbols an EXEC leaves in PAY_SYM, bit by bit, the payload segment of the
frame, and the repack with depth 8. -/

namespace Sys2Proof.Machine

variable {P : Params}

/-! ### The bits of a symbol -/

/-- Bit j of group k of the stream, counted from the top of the group, stands at position d - 1 - j of symbol k (R221). -/
theorem symbolAt_getLsbD_of_lt (B : Nat → Byte) (len k : Nat) {d j : Nat} (hd : d ≤ 15) (hj : j < d) :
    (symbolAt B len d k).getLsbD (d - 1 - j) = payloadBit B len (k * d + j) := by
  rw [symbolAt_getLsbD B len d k hd, decide_eq_true (by omega), Bool.true_and, show d - 1 - (d - 1 - j) = j by omega]

/-- A symbol has d bits (R221). -/
theorem symbolAt_getLsbD_of_ge (B : Nat → Byte) (len k : Nat) {d i : Nat} (hd : d ≤ 15) (hi : d ≤ i) :
    (symbolAt B len d k).getLsbD i = false := by
  rw [symbolAt_getLsbD B len d k hd, decide_eq_false (by omega), Bool.false_and]

theorem depth_le (cfg : Cfg) : cfg.depth.toNat ≤ 15 := Nat.le_of_lt_succ cfg.depth.isLt

/-! ### The payload after an EXEC -/

@[simp] theorem executed_payBuf (s : State) : (executed P s).payBuf = (ran P s).payBuf := rfl
@[simp] theorem executed_paySym (s : State) : (executed P s).paySym = (ran P s).paySym := rfl
@[simp] theorem executed_geoNsym (s : State) : (executed P s).geoNsym = s.geoNsym := by rw [executed, ran_frame]

/-- Sample k of the payload segment is MOD_MAP of symbol k (R223, R224). -/
theorem executed_out_payload {s : State} (hs : MemCanonical P s) {k : Nat} (hk : k < s.geoNsym.toNat) :
    (executed P s).out P (s.live.rampUp.toNat + s.live.phasing.toNat + 320 + k)
      = P.modMap s.modSel.scheme s.modSel.depth (symbolAt (s.pin P) s.live.payLen.toNat s.live.depth.toNat k) := by
  rw [executed_out, ran_out_payload hs hk, ran_paySmp_get s hk]

/-- Settles O32: symbol k of the captured bytes, by its d bits and the zeros above them. -/
theorem execWritesThePayload : Obligations.ExecWritesThePayload := by
  intro s h hs
  have hd := depth_le s.live
  refine ⟨_, exec_of_ready h, fun k hk =>
    ⟨symbolAt (s.pin Config.params) s.live.payLen.toNat s.live.depth.toNat k, fun j hj => ?_, fun i hi => ?_, ?_, ?_⟩⟩
  · exact symbolAt_getLsbD_of_lt _ _ k hd hj
  · exact symbolAt_getLsbD_of_ge _ _ k hd hi
  · rw [executed_paySym]
    exact ran_paySym_get s hk
  · exact executed_out_payload hs hk

/-! ### Depth 8 -/

/-- With depth 8 the payload has one symbol a byte (R122, R225). -/
theorem nsymOf_of_depth_eight {cfg : Cfg} (h : cfg.depth.toNat = 8) : nsymOf cfg = cfg.payLen.toNat := by
  rw [nsymOf, h]
  omega

/-- Settles O37: PAY_BUF is the captured payload, and symbol k of it with depth 8 is its byte k. -/
theorem depthEightRepackIsTheIdentity : Obligations.DepthEightRepackIsTheIdentity := by
  intro s h hdepth
  have hd : s.live.depth.toNat = 8 := congrArg BitVec.toNat hdepth
  have hnsym : s.geoNsym.toNat = s.live.payLen.toNat := h.geometry.1.trans (nsymOf_of_depth_eight hd)
  refine ⟨_, exec_of_ready h, by rw [executed_geoNsym, hnsym], fun k hk => ?_⟩
  have hbuf := ran_payBuf_get (P := Config.params) s hk
  have hsym := ran_paySym_get (P := Config.params) s (hnsym ▸ hk)
  rw [executed_paySym, executed_payBuf, hsym, hbuf, hd, symbolAt_eight _ hk]
  exact ⟨rfl, rfl⟩

end Sys2Proof.Machine
end

section
/-! SUPPORT. The buffer manager (R240-R245): what ENSURE_CAPACITY leaves in the three payload buffers, said by the sizes
it leaves, and the statements about SETCFG and CREATE that follow. -/

namespace Sys2Proof.Machine

variable {P : Params}

/-! ### ENSURE_CAPACITY -/

@[simp] theorem ensureCapacity_allocPay (s : State) : (ensureCapacity s).allocPay = s.live.payLen.setWidth 32 := by
  rw [ensureCapacity_eq]

@[simp] theorem ensureCapacity_allocSym (s : State) : (ensureCapacity s).allocSym = s.geoNsym := by
  rw [ensureCapacity_eq]

@[simp] theorem ensureCapacity_allocSmp (s : State) : (ensureCapacity s).allocSmp = s.geoNsym := by
  rw [ensureCapacity_eq]

/-- A buffer whose recorded size stays keeps its contents; one whose recorded size changes has a draw of this
ENSURE_CAPACITY's own and nothing written (R241, R243). -/
theorem ensureCapacity_contents (s : State) :
    (s.allocPay = (ensureCapacity s).allocPay → (ensureCapacity s).payBuf = s.payBuf) ∧
    (s.allocSym = (ensureCapacity s).allocSym → (ensureCapacity s).paySym = s.paySym) ∧
    (s.allocSmp = (ensureCapacity s).allocSmp → (ensureCapacity s).paySmp = s.paySmp) ∧
    (s.allocPay ≠ (ensureCapacity s).allocPay → (ensureCapacity s).payBuf.cells = [] ∧
      s.draws ≤ (ensureCapacity s).payBuf.draw ∧ (ensureCapacity s).payBuf.draw < (ensureCapacity s).draws) ∧
    (s.allocSym ≠ (ensureCapacity s).allocSym → (ensureCapacity s).paySym.cells = [] ∧
      s.draws ≤ (ensureCapacity s).paySym.draw ∧ (ensureCapacity s).paySym.draw < (ensureCapacity s).draws) ∧
    (s.allocSmp ≠ (ensureCapacity s).allocSmp → (ensureCapacity s).paySmp.cells = [] ∧
      s.draws ≤ (ensureCapacity s).paySmp.draw ∧ (ensureCapacity s).paySmp.draw < (ensureCapacity s).draws) := by
  rw [ensureCapacity_allocPay, ensureCapacity_allocSym, ensureCapacity_allocSmp]
  obtain ⟨hpayKept, hpayNew⟩ := ensureCapacity_payBuf s
  obtain ⟨hsymKept, hsymNew⟩ := ensureCapacity_paySym s
  obtain ⟨hsmpKept, hsmpNew⟩ := ensureCapacity_paySmp s
  exact ⟨hpayKept, hsymKept, hsmpKept, hpayNew, hsymNew, hsmpNew⟩

/-- RESIZE_CNT advances by the number of recorded sizes that change (R241). -/
theorem ensureCapacity_resizeCnt (s : State) :
    (ensureCapacity s).resizeCnt.toNat = (s.resizeCnt.toNat + (if s.allocPay = (ensureCapacity s).allocPay then 0 else 1)
      + (if s.allocSym = (ensureCapacity s).allocSym then 0 else 1)
      + (if s.allocSmp = (ensureCapacity s).allocSmp then 0 else 1)) % 2 ^ 32 := by
  rw [ensureCapacity_allocPay, ensureCapacity_allocSym, ensureCapacity_allocSmp]
  exact ensureCapacity_resizeCnt_toNat s

/-! ### SETCFG and CREATE -/

/-- Settles O21: SETCFG runs ENSURE_CAPACITY on the staged configuration, and installing that touches no buffer. -/
theorem buffersAreReallocatedOnlyOnMismatch : Obligations.BuffersAreReallocatedOnlyOnMismatch := by
  intro s hf hc hd hm
  refine ⟨_, congrArg Host.Outcome.next (setcfg_of_valid hf hc ((valid_iff _).mpr ⟨hd, hm⟩)), ?_⟩
  exact ⟨ensureCapacity_resizeCnt (applyCfg s.staged s), ensureCapacity_contents (applyCfg s.staged s)⟩

/-- Settles O58: CREATE runs ENSURE_CAPACITY from a state whose three recorded sizes are MIN_ALLOC and whose contents are
those it found. -/
theorem createReallocatesBuffersOnlyOnMismatch : Obligations.CreateReallocatesBuffersOnlyOnMismatch := by
  intro staged s cfg hcfg hf hc hd hm
  obtain rfl : cfg = createOperand Config.params staged s := hcfg
  refine ⟨_, congrArg Host.Outcome.next (create_of_valid hf hc ((valid_iff _).mpr ⟨hd, hm⟩)), ?_⟩
  exact ensureCapacity_contents
    (applyCfg (createOperand Config.params staged s) (initBuffers Config.params (pnGenerate Config.params s)))

/-! ### SETCFG of the live configuration -/

/-- Installing the live configuration again changes nothing: MOD_SEL and the geometry are already its own (R49, R51). -/
theorem applyCfg_live_of_good {s : State} (g : InstanceGood P s) : applyCfg s.live s = s := by
  obtain ⟨hnsym, hlen⟩ := g.geometry
  rw [applyCfg, ← hnsym, ← hlen, ← g.modSel, BitVec.ofNat_toNat, BitVec.ofNat_toNat, BitVec.setWidth_eq,
    BitVec.setWidth_eq]

/-- In a good state the recorded sizes are the required ones, so there is nothing to reallocate (R242, R244). -/
theorem ensureCapacity_of_good {s : State} (g : InstanceGood P s) : ensureCapacity s = s := by
  obtain ⟨hpay, hsym, hsmp⟩ := g.capacity
  exact ensureCapacity_of_fit (eq_payLen_setWidth_iff.mpr hpay) hsym hsmp

/-- Settles O22: neither installing the configuration nor ENSURE_CAPACITY has anything to change. -/
theorem setcfgOfTheLiveConfigurationChangesNothing : Obligations.SetcfgOfTheLiveConfigurationChangesNothing := by
  intro s hf hc g hlive
  have hv : valid Config.params s.staged = true := hlive ▸ (valid_iff s.live).mpr g.validLive
  refine congrArg Host.Outcome.next ?_
  calc setcfg Config.params s
      = raise .ok (ensureCapacity (applyCfg s.staged s)) := setcfg_of_valid hf hc hv
    _ = raise .ok s := by rw [hlive, applyCfg_live_of_good g, ensureCapacity_of_good g]

end Sys2Proof.Machine
end

section
/-! SUPPORT. Errors (R260-R269): what the error path of a command leaves, and the statements about BAD_COMMAND, FAULT
and LAST_ERR. -/

namespace Sys2Proof.Machine

variable {P : Params}

/-! ### The error path of a command -/

/-- A command that took `s` to `t` succeeded, failed EXEC's end check, or left all but LAST_ERR (R260, R269). -/
def EndedOrOnlyRaised (s t : State) : Prop :=
  t.lastErr = .ok ∨ t.lastErr = .internalFault ∨ t = { s with lastErr := t.lastErr }

theorem endedOrOnlyRaised_raise (e : ErrCode) (s : State) : EndedOrOnlyRaised s (raise e s) := .inr (.inr rfl)

theorem endedOrOnlyRaised_create (staged : Bool) (s : State) : EndedOrOnlyRaised s (create P staged s) := by
  rcases create_cases (P := P) staged s with ⟨-, e⟩ | ⟨-, -, e⟩ | ⟨-, -, -, e⟩ | ⟨-, -, -, e⟩
  · exact e ▸ endedOrOnlyRaised_raise _ s
  · exact e ▸ endedOrOnlyRaised_raise _ s
  · exact e ▸ endedOrOnlyRaised_raise _ s
  · exact e ▸ .inl rfl

theorem endedOrOnlyRaised_setcfg (s : State) : EndedOrOnlyRaised s (setcfg P s) := by
  rcases setcfg_cases (P := P) s with ⟨-, e⟩ | ⟨-, -, e⟩ | ⟨-, -, -, e⟩ | ⟨-, -, -, e⟩
  · exact e ▸ endedOrOnlyRaised_raise _ s
  · exact e ▸ endedOrOnlyRaised_raise _ s
  · exact e ▸ endedOrOnlyRaised_raise _ s
  · exact e ▸ .inl rfl

theorem endedOrOnlyRaised_runFrame (s : State) : EndedOrOnlyRaised s (runFrame P s) := by
  rcases runFrame_cases (P := P) s with ⟨-, e⟩ | ⟨-, -, e⟩ | ⟨-, -, -, e⟩ | ⟨-, -, -, e⟩
  · exact e ▸ endedOrOnlyRaised_raise _ s
  · exact e ▸ endedOrOnlyRaised_raise _ s
  · exact e ▸ endedOrOnlyRaised_raise _ s
  · rw [e]
    exact (execEnd_lastErr (ran P s)).imp_right .inl

theorem endedOrOnlyRaised_destroy (s : State) : EndedOrOnlyRaised s (destroy P s) := by
  rcases destroy_cases (P := P) s with ⟨-, e⟩ | ⟨-, -, e⟩ | ⟨-, -, e⟩
  · exact e ▸ endedOrOnlyRaised_raise _ s
  · exact e ▸ endedOrOnlyRaised_raise _ s
  · exact e ▸ .inl rfl

/-- Every operation but a query reports a result (R260, R261). -/
theorem endedOrOnlyRaised_exec {i : Instr} {s t : State} (h : exec i s = .next t)
    (hgetcfg : ∀ order, i ≠ .getcfg order) (hframelen : i ≠ .framelen) : EndedOrOnlyRaised s t := by
  cases i <;> cases h
  case create staged => exact endedOrOnlyRaised_create staged s
  case setcfg => exact endedOrOnlyRaised_setcfg s
  case exec => exact endedOrOnlyRaised_runFrame s
  case destroy => exact endedOrOnlyRaised_destroy s
  case getcfg order => exact absurd rfl (hgetcfg order)
  case framelen => exact absurd rfl hframelen
  case reserved w => exact endedOrOnlyRaised_raise _ s

/-- Settles O42: success and the failed end check are excluded, so the command only raised its error. -/
theorem errorsChangeOnlyLastErr : Obligations.ErrorsChangeOnlyLastErr := by
  intro i s t h hgetcfg hframelen hok hinternal
  exact ((endedOrOnlyRaised_exec h hgetcfg hframelen).resolve_left hok).resolve_left hinternal

/-! ### Reserved words -/

/-- Settles O41: the word decodes to the reserved operation, whose meaning does not look at the state. -/
theorem reservedWordReportsBadCommand : Obligations.ReservedWordReportsBadCommand := by
  intro w s hw
  refine ⟨rfl, fun rest hb hp => ?_⟩
  have hd : decode s.pending = .ok (.reserved w, rest) :=
    calc decode s.pending = decode (commandWrite w :: rest) := congrArg decode hp
      _ = .ok (decodeCommand w, rest) := decode_commandWrite w rest
      _ = .ok (.reserved w, rest) := by rw [decodeCommand_of_not_mem hw]
  exact step_operation hb hd

/-! ### FAULT -/

/-- No operation clears FAULT (R267). -/
theorem exec_keeps_fault {i : Instr} {s t : State} (h : exec i s = .next t) (hs : s.fault = true) : t.fault = true := by
  by_contra ht
  obtain ⟨-, hfault⟩ := createdAndFaultHaveTheirWriters i s t h
  obtain ⟨-, hset, -⟩ := hfault fun e => ht (e.trans hs)
  exact ht hset

/-- Settles O17: waiting, operations, reads and data writes keep a set FAULT, which leaves the reset input. -/
theorem onlyResetClearsFault : Obligations.OnlyResetClearsFault := by
  intro s t hstep hs ht
  have hne : t.fault ≠ s.fault := by simp [hs, ht]
  rcases step_cases hstep with ⟨-, rfl⟩ | ⟨i, rest, -, he⟩ | ⟨ev, rest, hp, ha⟩
  · exact absurd rfl hne
  · exact absurd ((exec_keeps_fault he hs).trans hs.symm) hne
  · rcases access_cases ha with ⟨rfl, -⟩ | ⟨_, _, _, -, -, rfl⟩ | ⟨_, _, _, _, -, hadmit, rfl⟩
    · exact ⟨rest, hp⟩
    · exact absurd rfl hne
    · obtain ⟨-, -, hfault⟩ := writeTarget_status { s with pending := rest } hadmit
      exact absurd hfault hne

end Sys2Proof.Machine
end

section
/-! SUPPORT. Reset (R290, R291) and the host's duty while BUSY reads 1 (R292), and the statements about them. -/

namespace Sys2Proof.Machine

variable {P : Params}

/-! ### The reset state -/

/-- The state reset gives has the values of R290's table, whatever its draws are numbered from and whatever the host has
yet to issue and has read. -/
theorem isResetState_resetFrom (k : Nat) (pending : List HostEvent) (responses : List Word) :
    IsResetState P k (State.resetFrom P k pending responses) where
  status := ⟨rfl, rfl, rfl, rfl⟩
  ctrl := rfl
  staged := rfl
  live := rfl
  geometry := ⟨rfl, rfl⟩
  alloc := ⟨rfl, rfl, rfl, rfl⟩
  execution := ⟨rfl, rfl, rfl, rfl⟩
  header := ⟨rfl, rfl⟩
  sequencer := ⟨rfl, rfl⟩
  unwritten := ⟨rfl, rfl, rfl, rfl⟩
  drawn := by simp [State.resetFrom]

/-- Settles O15: the reset state is the one numbered from 0, with nothing pending or answered. -/
theorem resetStateHasTheResetValues : Obligations.ResetStateHasTheResetValues :=
  ⟨isResetState_resetFrom 0 [] [], rfl, rfl⟩

/-- Settles O47: every state reset gives meets the invariant. -/
theorem resetSatisfiesTheInvariant : Obligations.ResetSatisfiesTheInvariant := inv_resetFrom 0 [] []

/-! ### The reset input -/

/-- The reset input begins no operation (R90). -/
theorem decode_reset (rest : List HostEvent) : decode (.reset :: rest) = .error .resetInput := rfl

/-- A step takes the reset input, BUSY or not (R291). -/
theorem step_reset {s : State} {rest : List HostEvent} (hp : s.pending = .reset :: rest) :
    step s = .next (hardwareReset Config.params { s with pending := rest }) :=
  step_access (.inr rfl) hp (decode_reset rest)

/-- Settles O16: the step is the hardware reset, whose draws are numbered from the old counter. -/
theorem resetInputRestoresTheResetState : Obligations.ResetInputRestoresTheResetState := by
  intro s rest hp
  exact ⟨_, step_reset hp, isResetState_resetFrom s.draws rest s.responses, rfl, rfl⟩

/-! ### The host's duty while BUSY reads 1 -/

/-- The two accesses a busy block takes are the read of STATUS and the reset input (R291, R292). -/
theorem allowedWhileBusy_iff {ev : HostEvent} :
    allowedWhileBusy ev = true ↔ ev = csrReadEvent .status ∨ ev = .reset := by simp [allowedWhileBusy]

/-- A busy block refuses every other access (R292). -/
theorem step_of_not_allowedWhileBusy {s : State} {ev : HostEvent} {rest : List HostEvent} (hb : s.busy = true)
    (hp : s.pending = ev :: rest) (hev : ¬ allowedWhileBusy ev = true) : step s = .refused .accessWhileBusy := by
  simp [step, hp, hb, hev]

/-- Settles O7: the access is neither of the two that a busy block takes. -/
theorem busyBlockRefusesAccesses : Obligations.BusyBlockRefusesAccesses := by
  intro s ev rest hb hp hstatus hreset
  have hev : ¬ (ev = csrReadEvent .status ∨ ev = .reset) := not_or.mpr ⟨hstatus, hreset⟩
  exact step_of_not_allowedWhileBusy hb hp (mt allowedWhileBusy_iff.mp hev)

end Sys2Proof.Machine
end
